-- ==== Sys2Proof/Word.lean ====
section
/-! DEFINITION. The word types of the engine (spec/00_scope.md R11): nothing here computes. -/

namespace Sys2Proof

/-- A control register, an operand or a command word: IDX_W = CMD_W = 32 bits (R11, R21, R65). -/
abbrev Word := BitVec 32

/-- A datum of the number system R64, held as its binary64 pattern: NUM_W = 64 bits (R11, R84, R87).
ENC and DEC are the identity on these patterns (R87). -/
abbrev Num64 := BitVec 64

/-- The host data path: DATA_W = max(32, NUM_W) = 64 bits (R11). -/
abbrev Data := BitVec 64

/-- A host address: ADDR_W = 35 bits, region in bits 34:32, index in bits 31:0 (R11, R43). -/
abbrev Addr := BitVec 35

end Sys2Proof
end

