-- ==== Sys2Proof/Config.lean ====
section
/-! DEFINITION. What an implementation fixes (spec/00_scope.md R7, R8, R9, R12) and the one free value of the
number system R64 (spec/40_twiddle.md R86). A machine carries its Config in State as hard-wired data that no
step changes, so that every statement quantifies over all configurations (log entry 1). -/

namespace Sys2Proof

/-- The open parameters of the engine. `n`: the table size is N = 2^n (R7). `T`: recursion threshold of FFT1 (R8).
`b`: base block size of FFT2 is B = 2^b (R9). `stackDepth`: capacity of the task stack (R12). -/
structure Config where
  n : Nat
  T : Nat
  b : Nat
  stackDepth : Nat
deriving DecidableEq, Repr

/-- N = 2^n, the table size and the length of every bank (R7). -/
def Config.N (c : Config) : Nat := 2 ^ c.n

/-- B = 2^b, the base block size of FFT2 (R9). -/
def Config.B (c : Config) : Nat := 2 ^ c.b

/-- nb = N div B, the number of blocks of FFT2 (spec/45_fft_iterative.md R141). -/
def Config.blocks (c : Config) : Nat := c.N / c.B

/-- The configuration that State.reset uses: n = 3 (N = 8), T = 2, b = 1 (B = 2), a stack of 2n + 1 = 7 entries, the
configuration of spec/95_test_vectors.md sections 5 and 6 (P2). DESIGN CHOICE (log entry 2): the spec leaves the
values open (R7 to R9); no statement rests on them. -/
def Config.reference : Config := ⟨3, 2, 1, 7⟩

/-- The operations of R64 that can produce a NaN (R86). -/
inductive NanOp where
  | add
  | sub
  | mul
  | divn
deriving DecidableEq, Repr

/-- FREE VALUE (R86, spec/93_implementation_defined.md U6; log entry 3): sign (bit 51) and payload (bits 50:0) of the
quiet NaN an operation of R64 produces. It has no body, so nothing can be proved of it beyond that it is a function of
the operation and its operands, which is what R83 says of every NUM operation. -/
opaque Config.nanDraw : NanOp → Num64 → Num64 → BitVec 52

end Sys2Proof
end

