-- ==== Sys2Proof/Syntax.lean ====
section
/-! DEFINITION. The commands of the engine: one constructor per row of spec/opcode_table.json (spec/30_encoding.md
R67). A command word has no operand fields (R65, R68): operands come from the operand registers. -/

namespace Sys2Proof

/-- The six commands (R3, R67). -/
inductive Instr where
  /-- `INIT`, opcode 1: fill the twiddle table (spec/40_twiddle.md R93). -/
  | init
  /-- `DFT`, opcode 2: the direct transform (spec/41_dft.md R105). -/
  | dft
  /-- `FFT1`, opcode 3: the recursive transform (spec/43_fft_recursive.md R122). -/
  | fft1
  /-- `FFT2`, opcode 4: the iterative transform (spec/45_fft_iterative.md R142). -/
  | fft2
  /-- `BPASS`, opcode 5: one butterfly pass (spec/42_butterfly.md R116). -/
  | bpass
  /-- `BREV`, opcode 6: bit reversal of one index (spec/44_bitreverse.md R137). -/
  | brev
deriving DecidableEq, Repr

end Sys2Proof
end

