-- ==== Sys2Proof/WellFormed.lean ====
section
/-! DEFINITION. Well-formedness of configurations, command words and commands. -/

namespace Sys2Proof

/-- The constraints on the parameters: 1 ≤ n ≤ 30 (R7), 0 ≤ T < 2^32 (R8), 1 ≤ B ≤ N, that is b ≤ n (R9), and a task
stack of at least 2n + 1 entries (R12). -/
def Config.wellFormed (c : Config) : Bool :=
  decide (1 ≤ c.n) && decide (c.n ≤ 30) && decide (c.T < 2 ^ 32) && decide (c.b ≤ c.n)
    && decide (2 * c.n + 1 ≤ c.stackDepth)

/-- A command word that format C admits (R65, R66): reserved bits 31:4 zero and an opcode in 1 to 6. -/
def wordWellFormed (w : Word) : Bool :=
  w.extractLsb' 4 28 == 0#28 && decide (1 ≤ (w.extractLsb' 0 4).toNat) && decide ((w.extractLsb' 0 4).toNat ≤ 6)

/-- Every command is well formed: a command has no fields that could be out of range (R65, R68). -/
def Instr.wellFormed : Instr → Bool
  | .init => true
  | .dft => true
  | .fft1 => true
  | .fft2 => true
  | .bpass => true
  | .brev => true

end Sys2Proof
end

