-- ==== Sys2Proof/Decode.lean ====
section
/-! DEFINITION. Decoding and encoding of command words (spec/30_encoding.md R65 to R67, R70, R82). -/

namespace Sys2Proof

/-- Why a command word is illegal (R70). Both reasons raise the same fault ILLEGAL_CMD. -/
inductive DecodeError where
  /-- Bits 31:4 are not all zero. -/
  | reservedBits
  /-- The reserved bits are zero and the opcode is 0 or 7 to 15. -/
  | illegalOpcode (opc : BitVec 4)
deriving DecidableEq, Repr

/-- Field opc, bits 3:0 (R65). -/
def opcField (w : Word) : BitVec 4 := w.extractLsb' 0 4

/-- Field rsvd, bits 31:4 (R65). -/
def rsvdField (w : Word) : BitVec 28 := w.extractLsb' 4 28

/-- The opcode map (R67). -/
def decodeOpc (opc : BitVec 4) : Option Instr :=
  if opc = 1#4 then some .init
  else if opc = 2#4 then some .dft
  else if opc = 3#4 then some .fft1
  else if opc = 4#4 then some .fft2
  else if opc = 5#4 then some .bpass
  else if opc = 6#4 then some .brev
  else none

/-- Decode, total on every 32-bit word (R66): a command, or the reason the word is illegal (R70). -/
def decode (w : Word) : Except DecodeError Instr :=
  if rsvdField w ≠ 0#28 then .error .reservedBits
  else
    match decodeOpc (opcField w) with
    | some i => .ok i
    | none => .error (.illegalOpcode (opcField w))

/-- The opcode of each command (R67). -/
def opcOf : Instr → BitVec 4
  | .init => 1#4
  | .dft => 2#4
  | .fft1 => 3#4
  | .fft2 => 4#4
  | .bpass => 5#4
  | .brev => 6#4

/-- The command word of each command (R65): reserved bits zero above the opcode. -/
def encode (i : Instr) : Word := 0#28 ++ opcOf i

/-- The command the decoder reads from a row of the opcode table: bits at and above `nbits` are zero; the word is one
32-bit command word (R72), so no word order is involved (R49). -/
def decodeTableWord (nbits w : Nat) : Option Instr :=
  match decode (BitVec.ofNat 32 (w % 2 ^ nbits)) with
  | .ok i => some i
  | .error _ => none

end Sys2Proof
end

