-- ==== Sys2Proof/Machine/State.lean ====
section
/-! DEFINITION. The state of the engine (spec/10_state.md R20 to R41) as plain data, the host side of the bus, the
reasons a step can stop, and the state after reset. NUM is an argument of the model (spec/00_scope.md R10, D10): the state
is written for any carrier `α` of NUM and any width `w` = DATA_W of the host data path (R11): `State α w`. `State` alone is
the state of the reference instance R64, `State Num64 64` (R84, R87). -/

namespace Sys2Proof.Machine

/-- The six banks (R31, R32). -/
inductive BankId where
  | inRe
  | inIm
  | outRe
  | outIm
  | twCos
  | twSin
deriving DecidableEq, Repr

/-- One bank: (index, word) pairs with strictly rising indices. A word that is not listed holds no value (R40). -/
abbrev Bank (α : Type) := List (Nat × α)

/-- The six banks of N words each (R31, R32). There is no byte address anywhere (spec/20_memory.md R43, R49): a cell is
one whole word of NUM. -/
structure Memory (α : Type) where
  inRe : Bank α
  inIm : Bank α
  outRe : Bank α
  outIm : Bank α
  twCos : Bank α
  twSin : Bank α
deriving DecidableEq, Repr

/-- A task of the sequencer (R33). -/
inductive Task where
  | fft (ioff ooff size stride : Nat)
  | dft (ioff ooff size stride : Nat)
  | bpass (ooff size : Nat)
deriving DecidableEq, Repr

/-- The phase of the loop controller (R35). -/
inductive Phase where
  | idle
  | fill
  | scatter
  | stages
deriving DecidableEq, Repr

/-- IT, the loop registers of INIT and FFT2 (R35). -/
structure LoopRegs where
  phase : Phase
  j : Nat
  w : Nat
  base : Nat
deriving DecidableEq, Repr

/-- IT = (IDLE, 0, 0, 0) (R39). -/
def LoopRegs.idle : LoopRegs := ⟨.idle, 0, 0, 0⟩

/-- The working registers of one output bin of a DFT task: bin index, sample index, phase accumulator and the two
accumulators (R36, spec/41_dft.md R101). -/
structure DftRegs (α : Type) where
  k : Nat
  s : Nat
  ph : Nat
  accRe : α
  accIm : α
deriving DecidableEq, Repr

/-- The working registers of BREVNET computed serially: shift register and result (R36, spec/44_bitreverse.md R133). -/
structure BrevRegs where
  v : Nat
  r : Nat
deriving DecidableEq, Repr

/-- The working registers inside one task, dead between tasks (R36). -/
inductive Work (α : Type) where
  | dead
  | dft (regs : DftRegs α)
  | bpass (i : Nat)
  | brev (regs : BrevRegs)
deriving DecidableEq, Repr

/-- What a command's execution acts on: the banks, the task stack SEQ (head = top, R33), the loop registers IT (R35)
and the working registers (R36). -/
structure Datapath (α : Type) where
  mem : Memory α
  seq : List Task
  it : LoopRegs
  work : Work α
deriving DecidableEq, Repr

/-- The cause recorded in STATUS.CAUSE (spec/60_exceptions.md R154). The reserved codes 8 to 15 are never written
(U8), so they have no constructor. -/
inductive Cause where
  | noFault
  | illegalCmd
  | tableNotInit
  | tableReinit
  | badSize
  | badStride
  | badRange
  | badIndex
deriving DecidableEq, Repr

/-- STATUS (R23). Its reserved bits 3 and 31:8 read 0 because no field holds them; `Status.toWord` lays the fields out. -/
structure Status where
  tvalid : Bool
  err : Bool
  done : Bool
  cause : Cause
deriving DecidableEq, Repr

/-- The kind of a bus transaction (spec/20_memory.md R42). -/
inductive Kind where
  | rd
  | wr
deriving DecidableEq, Repr

/-- A request on a host bus of data width `w` (R11, R42, spec/30_encoding.md R73 format H). -/
structure RequestOf (w : Nat) where
  kind : Kind
  addr : Addr
  wdata : BitVec w
deriving DecidableEq, Repr

/-- A response of a host bus of data width `w` (R42). An error response and the response to a write carry no data (U10):
`rdata` exists only for a read that is answered OKAY. -/
inductive ResponseOf (w : Nat) where
  | okay
  | okayData (rdata : BitVec w)
  | error
deriving DecidableEq, Repr

/-- The host side of the bus, the MODEL's own (log entry 4): the transactions the host is still going to perform, in
order, and the responses it has been given, newest first. The engine's state is everything else. -/
structure HostBusOf (w : Nat) where
  pending : List (RequestOf w)
  responses : List (ResponseOf w)
deriving DecidableEq, Repr

/-- Request, response and host side of the 64-bit bus of R64 (R11). -/
abbrev Request := RequestOf 64

abbrev Response := ResponseOf 64

abbrev HostBus := HostBusOf 64

/-- Why the machine stops with a fault of the MODEL. None of these is a fault of the engine (R152 to R164): the engine's
faults are next states. Each of them names something the spec shows cannot arise. -/
inductive Fault where
  /-- Raised by a push on a full task stack. Safe: the spec shows it cannot arise (R127, U17). -/
  | stackOverflow
  /-- Raised by an engine access to a word that does not exist, index N or above. Safe: the spec shows it cannot arise
  for an accepted command (R56, R125, R145). -/
  | outOfBank (bank : BankId) (index : Nat)
  /-- Raised when a sequencer or controller loop has not ended after the bound on its number of steps. Safe: the spec
  shows it cannot arise (R126, R148, R187). -/
  | sequencerHung
deriving DecidableEq, Repr

/-- Why the model gives no meaning. -/
inductive Refusal where
  /-- Raised by an arm of `exec` for a command without a meaning. No arm does. Safe. -/
  | notModelled (mnemonic : String)
  /-- Raised by a read, by the host or by a command, of a bank word that holds no value: the spec orders a refusal
  (R60, U5). Safe. -/
  | noValue (bank : BankId) (index : Nat)
  /-- Raised by DFTBIN outside its preconditions, which the spec orders refused (R107, U2). Safe: it cannot arise inside
  a command. -/
  | dftbinDomain
  /-- Raised by BREVNET outside its domain, which the spec orders refused (R136, U4). Safe: it cannot arise inside a
  command. -/
  | brevnetDomain
  /-- Raised by a host transaction that begins while the engine is busy, which the bus excludes (R52). Safe: no state of
  a run is busy between transactions. -/
  | engineBusy
deriving DecidableEq, Repr

/-- The whole machine for a NUM with carrier `α` on a bus of width `w`: the hard-wired parameters (R30), the control
registers (R21; CMD has no storage, R22, and PARAM_N, PARAM_T, PARAM_B are hard-wired from `cfg`), the datapath (banks, SEQ,
IT, working registers) and the host side of the bus. Where no NUM is named it is that of R64 (R84, R87). -/
structure State (α : Type := Num64) (w : Nat := 64) where
  cfg : Config
  status : Status
  size : Word
  stride : Word
  ioff : Word
  ooff : Word
  result : Word
  fcmd : Word
  dp : Datapath α
  bus : HostBusOf w
deriving DecidableEq, Repr

/-- Banks in which no word holds a value (R40). -/
def Memory.empty {α : Type} : Memory α := ⟨[], [], [], [], [], []⟩

/-- STATUS after reset (R39). -/
def Status.reset : Status := ⟨false, false, false, .noFault⟩

/-- The datapath after reset: no word holds a value, SEQ empty, IT idle, working registers dead (R39, R40, R173). -/
def Datapath.reset {α : Type} : Datapath α := ⟨Memory.empty, [], LoopRegs.idle, .dead⟩

/-- The state after reset of an engine built with the parameters `c` and any NUM (R39, R40, R173), no host transaction
pending. Nothing of it depends on NUM: no bank word holds a value. -/
def State.resetIn {α : Type} {w : Nat} (c : Config) : State α w :=
  { cfg := c, status := Status.reset, size := 0, stride := 0, ioff := 0, ooff := 0, result := 0, fcmd := 0,
    dp := Datapath.reset, bus := ⟨[], []⟩ }

/-- The same for R64. -/
def State.resetWith (c : Config) : State := State.resetIn c

/-- The state after reset of the reference configuration (log entry 2). -/
def State.reset : State := State.resetWith Config.reference

end Sys2Proof.Machine
end

