-- ==== Sys2Proof/Machine/Flags.lean ====
section
/-! DEFINITION. The fields of STATUS: their layout and every way one of them changes (spec/10_state.md R23,
spec/60_exceptions.md R154, R160). The engine has no arithmetic flags (R23, spec/40_twiddle.md R86). -/

namespace Sys2Proof.Machine

/-- The cause codes (R154). -/
def Cause.code : Cause → BitVec 4
  | .noFault => 0#4
  | .illegalCmd => 1#4
  | .tableNotInit => 2#4
  | .tableReinit => 3#4
  | .badSize => 4#4
  | .badStride => 5#4
  | .badRange => 6#4
  | .badIndex => 7#4

/-- STATUS as the host reads it (R23): CAUSE in bits 7:4, DONE bit 2, ERR bit 1, TVALID bit 0, every other bit 0. -/
def Status.toWord (f : Status) : Word :=
  0#24 ++ f.cause.code ++ 0#1 ++ BitVec.ofBool f.done ++ BitVec.ofBool f.err ++ BitVec.ofBool f.tvalid

/-- DONE is cleared by the issue of any command (R23, R153). -/
def Status.clearDone (f : Status) : Status := { f with done := false }

/-- DONE is set by the completion of any command (R23). -/
def Status.setDone (f : Status) : Status := { f with done := true }

/-- TVALID is set by INIT completing (R23, R93). -/
def Status.setTvalid (f : Status) : Status := { f with tvalid := true }

/-- Fault entry sets ERR and CAUSE (R160). -/
def Status.recordFault (f : Status) (c : Cause) : Status := { f with err := true, cause := c }

end Sys2Proof.Machine
end

