-- ==== Sys2Proof/Machine/Operands.lean ====
section
/-! DEFINITION. Operand assembly (spec/30_encoding.md R68), the views and runs an operand names (spec/20_memory.md R56)
and the conditions on operands that the checks of spec/60_exceptions.md R153 are made of. All arithmetic is on naturals
(spec/00_scope.md R14). -/

namespace Sys2Proof.Machine

/-- The four operands as sampled at issue (R53, R68). -/
structure Operands where
  size : Nat
  stride : Nat
  ioff : Nat
  ooff : Nat
deriving DecidableEq, Repr

/-- Each operand is the full unsigned value of its register (R68). -/
abbrev State.operands {α : Type} {w : Nat} (s : State α w) : Operands := ⟨s.size.toNat, s.stride.toNat, s.ioff.toNat, s.ooff.toNat⟩

/-- The power-of-two test of the hardware (R14). -/
def isPow2 (x : Nat) : Bool := x != 0 && (x &&& (x - 1)) == 0

/-- Index of sample `s` of the input view (ioff, stride) (R56). -/
def viewIndex (ioff stride s : Nat) : Nat := ioff + s * stride

/-- Index of word `k` of the output run at ooff (R56). -/
def runIndex (ooff k : Nat) : Nat := ooff + k

/-- The last word of the input view is in the bank (R153, R158). -/
def viewInRange (c : Config) (ioff size stride : Nat) : Bool := decide (ioff + (size - 1) * stride ≤ c.N - 1)

/-- The last word of the output run is in the bank (R153, R158). -/
def runInRange (c : Config) (ooff size : Nat) : Bool := decide (ooff + size ≤ c.N)

/-- The domain of DFTBIN: the preconditions of R105 on its view, and k below size (spec/41_dft.md R101, R107, U2). -/
def dftbinDomain (c : Config) (ioff size stride k : Nat) : Bool :=
  isPow2 size && decide (size ≤ c.N) && decide (stride * size ≤ c.N) && viewInRange c ioff size stride && decide (k < size)

/-- The domain of BREVNET: max a power of two, i below max (spec/44_bitreverse.md R133, R136, U4). -/
def brevnetDomain (i max : Nat) : Bool := isPow2 max && decide (i < max)

end Sys2Proof.Machine
end

