-- ==== Sys2Proof/Machine/Ops.lean ====
section
/-! DEFINITION. The operations every command is written with: access to the banks (spec/20_memory.md R51, R56 to R60),
loops, the task stack (spec/10_state.md R33), the response of a transaction, fault entry (spec/60_exceptions.md R160)
and the issue procedure (R153). There is no return from a fault: only reset clears ERR (R41, R163), and reset is the
initial state, not a transition (R172). -/

namespace Sys2Proof.Machine

/-- Why an operation stops without a next state. -/
inductive Stop where
  | fault (f : Fault)
  | refuse (r : Refusal)
deriving DecidableEq, Repr

/-- The result of an operation that can stop. -/
abbrev Res (β : Type) := Except Stop β

/-! ### Banks -/

/-- The value of word `i`, if it holds one (R40). -/
def Bank.read {α : Type} : Bank α → Nat → Option α
  | [], _ => none
  | (k, v) :: rest, i => if i = k then some v else Bank.read rest i

/-- Give word `i` the value `v`, keeping the indices in rising order. -/
def Bank.write {α : Type} : Bank α → Nat → α → Bank α
  | [], i, v => [(i, v)]
  | (k, w) :: rest, i, v =>
    if i < k then (i, v) :: (k, w) :: rest
    else if i = k then (i, v) :: rest
    else (k, w) :: Bank.write rest i v

/-- The canonical form of a bank of N words: indices strictly rising, from `lo` on, and below N. -/
def Bank.wfFrom {α : Type} (N : Nat) : Nat → Bank α → Bool
  | _, [] => true
  | lo, (k, _) :: rest => decide (lo ≤ k) && decide (k < N) && Bank.wfFrom N (k + 1) rest

def Bank.wf {α : Type} (N : Nat) (b : Bank α) : Bool := Bank.wfFrom N 0 b

/-- The bank of a name (R31, R32). -/
def Memory.bank {α : Type} (m : Memory α) : BankId → Bank α
  | .inRe => m.inRe
  | .inIm => m.inIm
  | .outRe => m.outRe
  | .outIm => m.outIm
  | .twCos => m.twCos
  | .twSin => m.twSin

def Memory.setBank {α : Type} (m : Memory α) (b : BankId) (x : Bank α) : Memory α :=
  match b with
  | .inRe => { m with inRe := x }
  | .inIm => { m with inIm := x }
  | .outRe => { m with outRe := x }
  | .outIm => { m with outIm := x }
  | .twCos => { m with twCos := x }
  | .twSin => { m with twSin := x }

/-- The canonical form of all six banks. -/
def Memory.wf {α : Type} (N : Nat) (m : Memory α) : Bool :=
  Bank.wf N m.inRe && Bank.wf N m.inIm && Bank.wf N m.outRe && Bank.wf N m.outIm && Bank.wf N m.twCos && Bank.wf N m.twSin

/-- BANK[i], or `none` where the word holds no value (R17, R60). -/
def Memory.read {α : Type} (m : Memory α) (b : BankId) (i : Nat) : Option α := Bank.read (m.bank b) i

/-- BANK[i] <- v (R17). -/
def Memory.write {α : Type} (m : Memory α) (b : BankId) (i : Nat) (v : α) : Memory α :=
  m.setBank b (Bank.write (m.bank b) i v)

/-- A read made by the engine (R56, R60). -/
def Memory.load {α : Type} (c : Config) (m : Memory α) (b : BankId) (i : Nat) : Res α :=
  if i < c.N then
    match m.read b i with
    | some v => .ok v
    | none => .error (.refuse (.noValue b i))
  else .error (.fault (.outOfBank b i))

/-- A write made by the engine (R56). -/
def Memory.store {α : Type} (c : Config) (m : Memory α) (b : BankId) (i : Nat) (v : α) : Res (Memory α) :=
  if i < c.N then .ok (m.write b i v) else .error (.fault (.outOfBank b i))

/-! ### Loops -/

/-- `for i = 0 .. count-1` (R17), in that order. -/
def forN {σ : Type} : Nat → (Nat → σ → Res σ) → σ → Res σ
  | 0, _, x => .ok x
  | k + 1, f, x => do
    let y ← forN k f x
    f k y

/-! ### The task stack -/

/-- `push(task)` (R17, R33); the stack holds `stackDepth` tasks (R12). -/
def Datapath.push {α : Type} (c : Config) (t : Task) (d : Datapath α) : Res (Datapath α) :=
  if d.seq.length < c.stackDepth then .ok { d with seq := t :: d.seq } else .error (.fault .stackOverflow)

/-- The working registers are dead when a task ends (R36). -/
def Datapath.endTask {α : Type} (d : Datapath α) : Datapath α := { d with work := .dead }

/-- The engine is idle: SEQ empty and IT.phase = IDLE (R34). -/
def Datapath.isIdle {α : Type} (d : Datapath α) : Bool := d.seq.isEmpty && decide (d.it.phase = .idle)

/-! ### The host side of the bus -/

variable {α : Type} {w : Nat}

/-- Give the host the response of its transaction (R42). -/
def State.respond (r : ResponseOf w) (s : State α w) : State α w :=
  { s with bus := { s.bus with responses := r :: s.bus.responses } }

/-- The next transaction of the host, and the state without it (R53). -/
def State.nextRequest (s : State α w) : Option (RequestOf w × State α w) :=
  match s.bus.pending with
  | [] => none
  | r :: rest => some (r, { s with bus := { s.bus with pending := rest } })

/-! ### Fault entry and the issue of a command -/

/-- Fault entry (R160): ERR = 1, CAUSE = c, FCMD = the command word, DONE stays as issue left it (0), the CMD write is
answered OKAY, and nothing else changes. -/
def takeFault (c : Cause) (word : Word) (s : State α w) : State α w :=
  ({ s with status := s.status.recordFault c, fcmd := word }).respond .okay

/-- Completion of a command: DONE = 1 and the CMD write is answered OKAY (R153). -/
def complete (s : State α w) : State α w := ({ s with status := s.status.setDone }).respond .okay

/-- A result as the outcome of a step. -/
def Res.outcome {σ : Type} : Res σ → Host.Outcome σ Fault Refusal
  | .ok s => .next s
  | .error (.fault f) => .fault f
  | .error (.refuse r) => .refused r

/-- The issue procedure (R153) for a command word, with the checks and the execution of the command the word stands
for. While ERR = 1 the write is answered ERROR and changes nothing (R162). -/
def issue (word : Word) (check : State α w → Option Cause) (run : State α w → Res (State α w)) (s : State α w) :
    Host.Outcome (State α w) Fault Refusal :=
  if !s.dp.isIdle then .refused .engineBusy
  else if s.status.err then .next (s.respond .error)
  else
    let s0 := { s with status := s.status.clearDone }
    match check s0 with
    | some c => .next (takeFault c word s0)
    | none =>
      Res.outcome (do
        let t ← run s0
        .ok (complete t))

/-- Issue of a word that decodes to no command: ILLEGAL_CMD before any other check (R70, R155). -/
def issueIllegal (word : Word) (s : State α w) : Host.Outcome (State α w) Fault Refusal :=
  issue word (fun _ => some .illegalCmd) (fun t => .ok t) s

/-- Run a piece of execution on the datapath of a state. -/
def State.onDatapath (f : Datapath α → Res (Datapath α)) (s : State α w) : Res (State α w) := do
  let d ← f s.dp
  .ok { s with dp := d }

end Sys2Proof.Machine
end

