-- ==== Sys2Proof/Machine/BitReverse.lean ====
section
/-! DEFINITION. The bit-reversal network BREVNET (spec/44_bitreverse.md R132 to R136). -/

namespace Sys2Proof.Machine

/-- The sentinel loop of BREVNET (R133), at most `fuel` rounds: until only the sentinel is left, move the lowest bit of v
to the low end of r. -/
def brevLoop : Nat → BrevRegs → BrevRegs
  | 0, x => x
  | f + 1, x =>
    if x.v = 1 then x
    else brevLoop f ⟨x.v >>> 1, (x.r <<< 1) ||| (x.v &&& 1)⟩

/-- The working registers when the loop has ended; it runs log2(max) times (R133). Outside its domain BREVNET is refused
and the loop is not evaluated (R136, U4). -/
def brevnetRegs (i max : Nat) : Res BrevRegs :=
  if brevnetDomain i max then .ok (brevLoop max.log2 ⟨i ||| max, 0⟩)
  else .error (.refuse .brevnetDomain)

/-- BREVNET (R133). -/
def brevnet (i max : Nat) : Res Nat := do
  let x ← brevnetRegs i max
  .ok x.r

end Sys2Proof.Machine
end

