-- ==== Sys2Proof/Machine/Num.lean ====
section
/-! DEFINITION. The number system NUM (spec/00_scope.md R10, spec/40_twiddle.md R83), an argument of the model, and its
reference instance R64, IEEE 754 binary64 with roundTiesToEven (R84 to R88). Every finite binary64 datum is an integer
multiple of 2^-1074, so each operation computes its exact result as an integer over a power of two and rounds once (R84,
R89). -/

namespace Sys2Proof.Machine

/-- The arithmetic of NUM (R83): ZERO, ADD, SUB, MUL, DIVN and RND. `divn n` is DIVN for N = 2^n. RND takes a real number,
which no program computes with, so it is a field that proofs see and evaluation does not (`Erased`); `NumSys.RND` is the
function. INIT takes its 2N entries from the table image TW_IMAGE, which R92 and D11 allow as a field beside RND:
`cosEntry n k` and `sinEntry n k` for N = 2^n. That the image is RND of the exact values is `NumSys.ImageIsRnd`, the
property a claim assumes of it (R92). -/
structure NumSys (α : Type) where
  zero : α
  add : α → α → α
  sub : α → α → α
  mul : α → α → α
  divn : Nat → α → α
  rnd : Erased (ℝ → α)
  cosEntry : Nat → Nat → α
  sinEntry : Nat → Nat → α

/-- RND : ℝ → NUM (R83, R88). -/
noncomputable def NumSys.RND {α : Type} (ns : NumSys α) (x : ℝ) : α := ns.rnd.out x

/-- The table image for N = 2^n is RND of the exact cosines and sines (R90, R92). -/
def NumSys.ImageIsRnd {α : Type} (ns : NumSys α) (n : Nat) : Prop :=
  ∀ k, k < 2 ^ n →
    ns.cosEntry n k = ns.RND (Real.cos (2 * Real.pi * k / 2 ^ n)) ∧
      ns.sinEntry n k = ns.RND (Real.sin (2 * Real.pi * k / 2 ^ n))

/-- NUM whole, as an engine on a bus has it (R10, R83): the arithmetic, and the encoding ENC on NUM_W bits with its inverse
DEC. The data path is DATA_W = max(32, NUM_W) bits wide (R11). -/
structure Num (α : Type) (w : Nat) extends NumSys α where
  numW : Nat
  dataW : w = max 32 numW
  enc : α → BitVec numW
  dec : BitVec numW → α
  dec_enc : ∀ a, dec (enc a) = a

/-- What a host read of a bank word puts on the data path: zext_DATA_W(ENC(word)) (R46). -/
def Num.busOut {α : Type} {w : Nat} (num : Num α w) (a : α) : BitVec w := (num.enc a).setWidth w

/-- What a host write of a bank word stores: DEC(wdata[NUM_W−1:0]) (R46). -/
def Num.busIn {α : Type} {w : Nat} (num : Num α w) (d : BitVec w) : α := num.dec (d.setWidth num.numW)

namespace R64

/-! ### The fields and classes of a pattern (R87) -/

/-- Sign, bit 63. -/
def sign (a : Num64) : Bool := a.getLsbD 63

/-- Biased exponent, bits 62:52. -/
def expo (a : Num64) : Nat := (a.extractLsb' 52 11).toNat

/-- Trailing significand, bits 51:0. -/
def frac (a : Num64) : Nat := (a.extractLsb' 0 52).toNat

def isNaN (a : Num64) : Bool := expo a == 2047 && frac a != 0

def isInf (a : Num64) : Bool := expo a == 2047 && frac a == 0

def isFinite (a : Num64) : Bool := expo a != 2047

/-- The magnitude of a finite datum in units of 2^-1074. -/
def mag (a : Num64) : Nat :=
  if expo a = 0 then frac a else (frac a + 2 ^ 52) * 2 ^ (expo a - 1)

/-- A finite datum as an integer number of units of 2^-1074. -/
def units (a : Num64) : Int := if sign a then -(mag a : Int) else (mag a : Int)

/-- A datum from its sign and the 63 bits below it. -/
def mk (neg : Bool) (m : Nat) : Num64 := BitVec.ofBool neg ++ BitVec.ofNat 63 m

/-- Bits 62:0 of an infinity. -/
def infBits : Nat := 2047 * 2 ^ 52

def zero : Num64 := mk false 0

def inf (neg : Bool) : Num64 := mk neg infBits

/-- Flip the sign bit. -/
def neg (a : Num64) : Num64 := a ^^^ 0x8000000000000000#64

/-- The quiet NaN of a draw: sign = bit 51 of the draw, exponent all ones, quiet bit 1, payload = bits 50:0 (R86). -/
def quietNaN (draw : BitVec 52) : Num64 := draw.extractLsb' 51 1 ++ 0xFFF#12 ++ draw.extractLsb' 0 51

/-! ### Rounding (R84, R88) -/

/-- Number of bits of `m`. -/
def bitLen (m : Nat) : Nat := if m = 0 then 0 else m.log2 + 1

/-- `m / 2^d` rounded to an integer, ties to even. -/
def rne (m d : Nat) : Nat :=
  let q := m / 2 ^ d
  let r := m % 2 ^ d
  if 2 * r < 2 ^ d then q
  else if 2 ^ d < 2 * r then q + 1
  else q + q % 2

/-- Bits 62:0 of `m · 2^-u` units of 2^-1074, rounded once to binary64, ties to even; a result past the largest finite
number is +∞ (R84, R86). `x` is the biased exponent less one of the result; a carry of the rounding into bit 53 moves
it up by one through the sum. -/
def roundMag (m u : Nat) : Nat :=
  let x := bitLen m - (u + 53)
  let p := x * 2 ^ 52 + rne m (x + u)
  if p < infBits then p else infBits

/-! ### The operations (R84 to R86) -/

/-- ADD on two data neither of which is a NaN, and for which infinities do not cancel. -/
def addFinite (a b : Num64) : Num64 :=
  let s := units a + units b
  if s = 0 then mk (sign a && sign b) 0
  else mk (decide (s < 0)) (roundMag s.natAbs 0)

def addWith (op : NanOp) (a b b' : Num64) : Num64 :=
  if isNaN a || isNaN b' then quietNaN (Config.nanDraw op a b)
  else if isInf a then
    if isInf b' && (sign a != sign b') then quietNaN (Config.nanDraw op a b) else a
  else if isInf b' then b'
  else addFinite a b'

/-- ADD (R84, R86). -/
def add (a b : Num64) : Num64 := addWith .add a b b

/-- SUB (R84, R86): the sum with the second operand's sign flipped. -/
def sub (a b : Num64) : Num64 := addWith .sub a b (neg b)

/-- MUL (R84, R86). -/
def mul (a b : Num64) : Num64 :=
  let sgn := sign a != sign b
  if isNaN a || isNaN b then quietNaN (Config.nanDraw .mul a b)
  else if isInf a || isInf b then
    if (isFinite a && mag a == 0) || (isFinite b && mag b == 0) then quietNaN (Config.nanDraw .mul a b)
    else inf sgn
  else mk sgn (roundMag (mag a * mag b) 1074)

/-- The datum 2^n, 0 ≤ n ≤ 1023: the exact divisor of DIVN (R85). -/
def pow2 (n : Nat) : Num64 := mk false ((n + 1023) * 2 ^ 52)

/-- DIVN for N = 2^n (R85, R86). -/
def divn (n : Nat) (a : Num64) : Num64 :=
  if isNaN a then quietNaN (Config.nanDraw .divn a (pow2 n))
  else if isInf a then a
  else mk (sign a) (roundMag (mag a) n)

/-! ### The table values RND(cos(2πk/N)), RND(sin(2πk/N)) (R88, R90 to R92)

Computed by exact reduction to the first quadrant and 256-bit fixed-point arithmetic: half angles from a quarter turn
and products over the binary digits of the index. The rounding of a fixed-point value agrees with RND of the exact
value unless the exact value lies within the fixed-point error of a rounding boundary (log entry 5). -/

/-- Fractional bits of the fixed-point values. -/
def fixBits : Nat := 256

/-- ⌊√a⌋ by Newton's iteration from above, `f` iterations at most. -/
def isqrtFrom : Nat → Nat → Nat → Nat
  | 0, _, x => x
  | f + 1, a, x =>
    let y := (x + a / x) / 2
    if y < x then isqrtFrom f a y else x

/-- ⌊√a⌋ for a > 0: from a start at or above the root Newton's iteration falls until it stops there. -/
def isqrt (a : Nat) : Nat := isqrtFrom 600 a (2 ^ (a.log2 / 2 + 1))

/-- (cos, sin) of half the angle, in fixed point: cos(θ/2) = √((1 + cos θ)/2), sin(θ/2) = sin θ / (2 cos(θ/2)). -/
def halveAngle (cs : Nat × Nat) : Nat × Nat :=
  let c := isqrt ((2 ^ fixBits + cs.1) * 2 ^ (fixBits - 1))
  (c, cs.2 * 2 ^ (fixBits - 1) / c)

/-- Product of two fixed-point points of the first quadrant whose angles add up to less than a quarter turn. -/
def rotateFix (a b : Nat × Nat) : Nat × Nat :=
  ((a.1 * b.1 - a.2 * b.2) / 2 ^ fixBits, (a.1 * b.2 + a.2 * b.1) / 2 ^ fixBits)

/-- The point at angle 2πj/2^(l+2) times `acc`, for j < 2^l: bit l−1 of j stands for half of the angle of `cs`, and so
on down. -/
def turnFix : Nat → Nat → Nat × Nat → Nat × Nat → Nat × Nat
  | 0, _, _, acc => acc
  | l + 1, j, cs, acc =>
    let h := halveAngle cs
    turnFix l j h (if j.testBit l then rotateFix acc h else acc)

/-- cos(2πj/2^(l+2)) in fixed point, for j < 2^l (the first quadrant). -/
def cosFix (l j : Nat) : Nat := (turnFix l j (0, 2 ^ fixBits) (2 ^ fixBits, 0)).1

/-- Bits 62:0 of RND(cos(2πj/2^(l+2))) for 0 ≤ j ≤ 2^l: exact at both ends (R91). -/
def quadrantCos (l j : Nat) : Nat :=
  if j = 0 then 1023 * 2 ^ 52
  else if j = 2 ^ l then 0
  else roundMag (cosFix l j * 2 ^ (1074 - fixBits)) 0

/-- A datum with the given sign and magnitude bits, a zero always as +0 (R92). -/
def signedEntry (neg : Bool) (m : Nat) : Num64 := mk (neg && m != 0) m

/-- RND of the point at 2πk/2^(l+2): quadrant k div 2^l, then the first-quadrant values (R91). -/
def tableEntry (l k : Nat) : Num64 × Num64 :=
  let j := k % 2 ^ l
  let c := quadrantCos l j
  let s := quadrantCos l (2 ^ l - j)
  match k / 2 ^ l % 4 with
  | 0 => (signedEntry false c, signedEntry false s)
  | 1 => (signedEntry true s, signedEntry false c)
  | 2 => (signedEntry true c, signedEntry true s)
  | _ => (signedEntry false s, signedEntry true c)

/-- TW_COS[k] for N = 2^n, n ≥ 1 (R92). N = 2 is every second entry of N = 4. -/
def cosEntry (n k : Nat) : Num64 := if n = 1 then (tableEntry 0 (2 * k)).1 else (tableEntry (n - 2) k).1

/-- TW_SIN[k] for N = 2^n, n ≥ 1 (R92). -/
def sinEntry (n k : Nat) : Num64 := if n = 1 then (tableEntry 0 (2 * k)).2 else (tableEntry (n - 2) k).2

/-! ### Values, correct rounding and RND (R84, R87, R88) -/

/-- The value of a finite datum (R87). -/
def value (a : Num64) : ℚ := (units a : ℚ) / 2 ^ 1074

/-- The values from which on rounding to nearest gives an infinity: the midpoint above the largest finite number, which
ties away from it to an even significand (R84, R86). -/
def overflowLimit : ℚ := 2 ^ 1024 - 2 ^ 970

/-- `p` is the finite datum nearest to `x`, of two equally near ones the one with the even significand (R84, R88). -/
def IsNearestEven (x : ℝ) (p : Num64) : Prop :=
  isFinite p = true ∧
    (∀ q, isFinite q = true → |(value p : ℝ) - x| ≤ |(value q : ℝ) - x|) ∧
    (∀ q, isFinite q = true → |(value q : ℝ) - x| = |(value p : ℝ) - x| → value q ≠ value p → p.getLsbD 0 = false)

/-- `p` is `x` correctly rounded with roundTiesToEven, overflow giving the infinity of the sign of `x` (R84, R86). -/
def IsRounded (x : ℝ) (p : Num64) : Prop :=
  ((overflowLimit : ℝ) ≤ x ∧ p = inf false) ∨ (x ≤ -(overflowLimit : ℝ) ∧ p = inf true) ∨
    (|x| < (overflowLimit : ℝ) ∧ IsNearestEven x p)

open Classical in
/-- RND (R88): the binary64 datum nearest `x`, ties to even, a zero being +0 (RND(0) = +0; R92 stores zeros as +0). RND is
used only on table values, which lie in [−1, 1]; past the largest finite number it is the infinity that IEEE 754 gives
(log entry 10). -/
noncomputable def rnd (x : ℝ) : Num64 :=
  if h : ∃ p, IsRounded x p ∧ (isFinite p = true → value p = 0 → p = zero) then choose h else zero

end R64

/-- The arithmetic of the reference instance R64 (R84 to R88). -/
def r64 : NumSys Num64 where
  zero := R64.zero
  add := R64.add
  sub := R64.sub
  mul := R64.mul
  divn := R64.divn
  rnd := Erased.mk R64.rnd
  cosEntry := R64.cosEntry
  sinEntry := R64.sinEntry

/-- The reference instance R64 whole: a datum is held as its binary64 interchange pattern, so ENC and DEC are the identity on
64-bit patterns (R87), and NUM_W = DATA_W = 64 (R11). -/
def R64.num : Num Num64 64 where
  toNumSys := r64
  numW := 64
  dataW := rfl
  enc a := a
  dec d := d
  dec_enc _ := rfl

end Sys2Proof.Machine
end

