-- ==== Sys2Proof/Machine/Twiddle.lean ====
section
/-! DEFINITION. The twiddle table and the twiddle multiplier TWMUL (spec/40_twiddle.md R90 to R99). -/

namespace Sys2Proof.Machine

variable {α : Type}

/-- TWMUL: (xr, xi) times the twiddle factor W(p) (R96). The operation order is R89, R96. -/
def twmul (ns : NumSys α) (c : Config) (m : Memory α) (xr xi : α) (p : Nat) : Res (α × α) := do
  let co ← m.load c .twCos p
  let si ← m.load c .twSin p
  .ok (ns.add (ns.mul xr co) (ns.mul xi si), ns.sub (ns.mul xi co) (ns.mul xr si))

/-- One step of phase FILL (R35, R93): entry IT.j of both banks, then the next index; past the last entry the controller
is idle again. -/
def fillStep (ns : NumSys α) (c : Config) (d : Datapath α) : Res (Datapath α) :=
  let k := d.it.j
  if k < c.N then do
    let m ← d.mem.store c .twCos k (ns.cosEntry c.n k)
    let m ← m.store c .twSin k (ns.sinEntry c.n k)
    .ok { d with mem := m, it := { d.it with j := k + 1 } }
  else .ok { d with it := LoopRegs.idle }

end Sys2Proof.Machine
end

