-- ==== Sys2Proof/Machine/Butterfly.lean ====
section
/-! DEFINITION. The butterfly unit BFLY and the butterfly pass (spec/42_butterfly.md R110 to R115). -/

namespace Sys2Proof.Machine

variable {α : Type}

/-- The outputs of one butterfly (R111). -/
structure BflyOut (α : Type) where
  sr : α
  si : α
  dr : α
  di : α
deriving DecidableEq, Repr

/-- BFLY: sum and difference of the even value and the rotated odd value (R111). -/
def bfly (ns : NumSys α) (c : Config) (m : Memory α) (er ei odr odi : α) (p : Nat) : Res (BflyOut α) := do
  let t ← twmul ns c m odr odi p
  .ok ⟨ns.add er t.1, ns.add ei t.2, ns.sub er t.1, ns.sub ei t.2⟩

/-- Butterfly i of a pass (R115): all four inputs are read before any output is written (R112). -/
def bpassStep (ns : NumSys α) (c : Config) (ooff size i : Nat) (d : Datapath α) : Res (Datapath α) := do
  let half := size / 2
  let step := c.N / size
  let lo := runIndex ooff i
  let hi := runIndex ooff i + half
  let er ← d.mem.load c .outRe lo
  let ei ← d.mem.load c .outIm lo
  let odr ← d.mem.load c .outRe hi
  let odi ← d.mem.load c .outIm hi
  let x ← bfly ns c d.mem er ei odr odi (i * step)
  let m ← d.mem.store c .outRe lo x.sr
  let m ← m.store c .outIm lo x.si
  let m ← m.store c .outRe hi x.dr
  let m ← m.store c .outIm hi x.di
  .ok { d with mem := m, work := .bpass i }

/-- The BPASS task (R115): butterflies in ascending i. -/
def bpassTask (ns : NumSys α) (c : Config) (ooff size : Nat) (d : Datapath α) : Res (Datapath α) := do
  let e ← forN (size / 2) (bpassStep ns c ooff size) d
  .ok e.endTask

end Sys2Proof.Machine
end

