-- ==== Sys2Proof/Machine/Dft.lean ====
section
/-! DEFINITION. The direct transform: DFTBIN and the DFT task (spec/41_dft.md R101 to R104). -/

namespace Sys2Proof.Machine

variable {α : Type}

/-- The working registers at the start of bin k (R101): s = 0, ph = 0, both accumulators ZERO. -/
def dftStart (ns : NumSys α) (k : Nat) : DftRegs α := ⟨k, 0, 0, ns.zero, ns.zero⟩

/-- One inner step of DFTBIN (R101): add the rotated sample s, advance the phase accumulator by k·step and wrap it once
modulo N. -/
def dftSample (ns : NumSys α) (c : Config) (m : Memory α) (ioff size stride : Nat) (r : DftRegs α) : Res (DftRegs α) := do
  let inc := r.k * (c.N / size)
  let xr ← m.load c .inRe (viewIndex ioff stride r.s)
  let xi ← m.load c .inIm (viewIndex ioff stride r.s)
  let t ← twmul ns c m xr xi r.ph
  let ph := r.ph + inc
  .ok { r with s := r.s + 1, ph := if ph ≥ c.N then ph - c.N else ph,
               accRe := ns.add r.accRe t.1, accIm := ns.add r.accIm t.2 }

/-- The working registers after the last sample of bin k. Outside its domain DFTBIN is refused (R107, U2). -/
def dftbinRegs (ns : NumSys α) (c : Config) (m : Memory α) (ioff size stride k : Nat) : Res (DftRegs α) :=
  if dftbinDomain c ioff size stride k then
    forN size (fun _ r => dftSample ns c m ioff size stride r) (dftStart ns k)
  else .error (.refuse .dftbinDomain)

/-- The bin from the accumulators: both divided by N, once, last (R101, R103). -/
def dftOutput (ns : NumSys α) (c : Config) (r : DftRegs α) : α × α := (ns.divn c.n r.accRe, ns.divn c.n r.accIm)

/-- DFTBIN: one output bin (R101). -/
def dftbin (ns : NumSys α) (c : Config) (m : Memory α) (ioff size stride k : Nat) : Res (α × α) := do
  let r ← dftbinRegs ns c m ioff size stride k
  .ok (dftOutput ns c r)

/-- Bin k of the DFT task (R104): compute it and write its two output words. -/
def dftBinStep (ns : NumSys α) (c : Config) (ioff ooff size stride k : Nat) (d : Datapath α) : Res (Datapath α) := do
  let r ← dftbinRegs ns c d.mem ioff size stride k
  let y := dftOutput ns c r
  let m ← d.mem.store c .outRe (runIndex ooff k) y.1
  let m ← m.store c .outIm (runIndex ooff k) y.2
  .ok { d with mem := m, work := .dft r }

/-- The DFT task (R104): bins in ascending k. -/
def dftTask (ns : NumSys α) (c : Config) (ioff ooff size stride : Nat) (d : Datapath α) : Res (Datapath α) := do
  let e ← forN size (dftBinStep ns c ioff ooff size stride) d
  .ok e.endTask

end Sys2Proof.Machine
end

