-- ==== Sys2Proof/Machine/Sequencer.lean ====
section
/-! DEFINITION. The sequencer: the FFT task, the task stack (spec/43_fft_recursive.md R123, spec/10_state.md R33), and the
loop controller of INIT and FFT2 (spec/10_state.md R35, spec/45_fft_iterative.md R144). One step is one task or one
controller transition (D23). -/

namespace Sys2Proof.Machine

variable {α : Type}

/-- The FFT task (R123, R124): it touches no bank and replaces itself by the pass, the odd half and the even half, the
even half on top. -/
def fftTask (c : Config) (ioff ooff size stride : Nat) (d : Datapath α) : Res (Datapath α) := do
  let half := size / 2
  let d ← d.push c (.bpass ooff size)
  if half > c.T ∧ half % 2 = 0 then do
    let d ← d.push c (.fft (ioff + stride) (ooff + half) half (2 * stride))
    d.push c (.fft ioff ooff half (2 * stride))
  else do
    let d ← d.push c (.dft (ioff + stride) (ooff + half) half (2 * stride))
    d.push c (.dft ioff ooff half (2 * stride))

/-- Execute one task that has been popped (R33). -/
def execTask (ns : NumSys α) (c : Config) (t : Task) (d : Datapath α) : Res (Datapath α) :=
  match t with
  | .fft ioff ooff size stride => fftTask c ioff ooff size stride d
  | .dft ioff ooff size stride => dftTask ns c ioff ooff size stride d
  | .bpass ooff size => bpassTask ns c ooff size d

/-- Pop the top task and execute it (R33). -/
def seqStep (ns : NumSys α) (c : Config) (d : Datapath α) : Res (Datapath α) :=
  match d.seq with
  | [] => .ok d
  | t :: rest => execTask ns c t { d with seq := rest }

/-- Repeat until SEQ is empty, at most `fuel` tasks (R33, R122). -/
def runSeq (ns : NumSys α) (c : Config) : Nat → Datapath α → Res (Datapath α)
  | 0, d => if d.seq.isEmpty then .ok d else .error (.fault .sequencerHung)
  | f + 1, d =>
    if d.seq.isEmpty then .ok d
    else do
      let e ← seqStep ns c d
      runSeq ns c f e

/-- A step in phase SCATTER (R144): transform block IT.j into its bit-reversed place. -/
def scatterStep (ns : NumSys α) (c : Config) (d : Datapath α) : Res (Datapath α) := do
  let j := d.it.j
  let x ← brevnetRegs j c.blocks
  let d ← ({ d with work := .brev x }).push c (.dft j (c.B * x.r) c.B c.blocks)
  let d ← runSeq ns c 1 d
  if j + 1 < c.blocks then .ok { d with it := { d.it with j := j + 1 } }
  else .ok { d with it := ⟨.stages, 0, 2 * c.B, 0⟩ }

/-- A step in phase STAGES (R144): one pass, then the next window or the next width; past width N the controller is
idle. -/
def stagesStep (ns : NumSys α) (c : Config) (d : Datapath α) : Res (Datapath α) :=
  let w := d.it.w
  let base := d.it.base
  if w > c.N then .ok { d with it := LoopRegs.idle }
  else do
    let d ← d.push c (.bpass base w)
    let d ← runSeq ns c 1 d
    if base + w < c.N then .ok { d with it := { d.it with base := base + w } }
    else .ok { d with it := { d.it with w := 2 * w, base := 0 } }

/-- One transition of the loop controller (R35, R93, R144). -/
def controllerStep (ns : NumSys α) (c : Config) (d : Datapath α) : Res (Datapath α) :=
  match d.it.phase with
  | .idle => .ok d
  | .fill => fillStep ns c d
  | .scatter => scatterStep ns c d
  | .stages => stagesStep ns c d

/-- Repeat until the controller is idle, at most `fuel` transitions. -/
def runController (ns : NumSys α) (c : Config) : Nat → Datapath α → Res (Datapath α)
  | 0, d => if d.it.phase = .idle then .ok d else .error (.fault .sequencerHung)
  | f + 1, d =>
    if d.it.phase = .idle then .ok d
    else do
      let e ← controllerStep ns c d
      runController ns c f e

end Sys2Proof.Machine
end

