-- ==== Sys2Proof/Machine/Commands.lean ====
section
/-! DEFINITION. The meanings of the six commands in any NUM (spec/00_scope.md R10, spec/40_twiddle.md R83): for each its
checks at issue (spec/60_exceptions.md R153), its execution on the datapath, the command over the issue procedure with NUM
as an argument, and the meaning `exec…`, the command in the reference instance R64 (R84), which `exec` dispatches to. -/

namespace Sys2Proof.Machine

variable {α : Type} {w : Nat}

/-! ### INIT (spec/40_twiddle.md R93) -/

/-- The check of INIT (R93, R156). -/
def checkInit (s : State α w) : Option Cause := if s.status.tvalid then some .tableReinit else none

/-- The execution of INIT (R93): IT in phase FILL from index 0. Its N entries take N + 1 controller steps. -/
def runInit (ns : NumSys α) (c : Config) (d : Datapath α) : Res (Datapath α) :=
  runController ns c (c.N + 1) { d with it := ⟨.fill, 0, 0, 0⟩ }

/-- INIT in any NUM (R93): fill the table, then TVALID = 1. -/
def initIn (num : Num α w) (s : State α w) : Host.Outcome (State α w) Fault Refusal :=
  issue (encode .init) checkInit
    (fun t => do
      let u ← t.onDatapath (runInit num.toNumSys t.cfg)
      .ok { u with status := u.status.setTvalid })
    s

/-- INIT in R64. -/
def execInit (s : State) : Host.Outcome State Fault Refusal := initIn R64.num s

/-! ### DFT (spec/41_dft.md R105) -/

/-- The checks of DFT, in their order (R105, R153). -/
def checkDft (s : State α w) : Option Cause :=
  let o := s.operands
  if !s.status.tvalid then some .tableNotInit
  else if !(isPow2 o.size && decide (o.size ≤ s.cfg.N)) then some .badSize
  else if o.stride * o.size > s.cfg.N then some .badStride
  else if !(viewInRange s.cfg o.ioff o.size o.stride && runInRange s.cfg o.ooff o.size) then some .badRange
  else none

/-- The execution of DFT (R105): one DFT task. -/
def runDft (ns : NumSys α) (c : Config) (o : Operands) (d : Datapath α) : Res (Datapath α) := do
  let e ← d.push c (.dft o.ioff o.ooff o.size o.stride)
  runSeq ns c 1 e

/-- DFT in any NUM (R105). -/
def dftIn (num : Num α w) (s : State α w) : Host.Outcome (State α w) Fault Refusal :=
  issue (encode .dft) checkDft (fun t => t.onDatapath (runDft num.toNumSys t.cfg t.operands)) s

/-- DFT in R64. -/
def execDft (s : State) : Host.Outcome State Fault Refusal := dftIn R64.num s

/-! ### FFT1 (spec/43_fft_recursive.md R122) -/

/-- The checks of FFT1, in their order (R122, R153). -/
def checkFft1 (s : State α w) : Option Cause :=
  let o := s.operands
  if !s.status.tvalid then some .tableNotInit
  else if !(isPow2 o.size && decide (2 ≤ o.size) && decide (o.size ≤ s.cfg.N)) then some .badSize
  else if o.stride * o.size > s.cfg.N then some .badStride
  else if !(viewInRange s.cfg o.ioff o.size o.stride && runInRange s.cfg o.ooff o.size) then some .badRange
  else none

/-- The execution of FFT1 (R122): one FFT task and whatever it pushes, fewer than 3·size tasks in all (R126, R131). -/
def runFft1 (ns : NumSys α) (c : Config) (o : Operands) (d : Datapath α) : Res (Datapath α) := do
  let e ← d.push c (.fft o.ioff o.ooff o.size o.stride)
  runSeq ns c (3 * o.size) e

/-- FFT1 in any NUM (R122). -/
def fft1In (num : Num α w) (s : State α w) : Host.Outcome (State α w) Fault Refusal :=
  issue (encode .fft1) checkFft1 (fun t => t.onDatapath (runFft1 num.toNumSys t.cfg t.operands)) s

/-- FFT1 in R64. -/
def execFft1 (s : State) : Host.Outcome State Fault Refusal := fft1In R64.num s

/-! ### FFT2 (spec/45_fft_iterative.md R142, R144) -/

/-- The checks of FFT2, in their order (R142, R153). -/
def checkFft2 (s : State α w) : Option Cause :=
  if !s.status.tvalid then some .tableNotInit
  else if s.operands.size ≠ s.cfg.N then some .badSize
  else none

/-- The execution of FFT2 (R144): IT in phase SCATTER from block 0. It takes N/B scatter steps, N/w steps at each width w
and one last step, 2N at most (R148). -/
def runFft2 (ns : NumSys α) (c : Config) (d : Datapath α) : Res (Datapath α) :=
  runController ns c (2 * c.N) { d with it := ⟨.scatter, 0, 0, 0⟩ }

/-- FFT2 in any NUM (R142). -/
def fft2In (num : Num α w) (s : State α w) : Host.Outcome (State α w) Fault Refusal :=
  issue (encode .fft2) checkFft2 (fun t => t.onDatapath (runFft2 num.toNumSys t.cfg)) s

/-- FFT2 in R64. -/
def execFft2 (s : State) : Host.Outcome State Fault Refusal := fft2In R64.num s

/-! ### BPASS (spec/42_butterfly.md R116) -/

/-- The checks of BPASS, in their order (R116, R153). -/
def checkBpass (s : State α w) : Option Cause :=
  let o := s.operands
  if !s.status.tvalid then some .tableNotInit
  else if !(isPow2 o.size && decide (2 ≤ o.size) && decide (o.size ≤ s.cfg.N)) then some .badSize
  else if !(runInRange s.cfg o.ooff o.size) then some .badRange
  else none

/-- The execution of BPASS (R116): one BPASS task. -/
def runBpass (ns : NumSys α) (c : Config) (o : Operands) (d : Datapath α) : Res (Datapath α) := do
  let e ← d.push c (.bpass o.ooff o.size)
  runSeq ns c 1 e

/-- BPASS in any NUM (R116). -/
def bpassIn (num : Num α w) (s : State α w) : Host.Outcome (State α w) Fault Refusal :=
  issue (encode .bpass) checkBpass (fun t => t.onDatapath (runBpass num.toNumSys t.cfg t.operands)) s

/-- BPASS in R64. -/
def execBpass (s : State) : Host.Outcome State Fault Refusal := bpassIn R64.num s

/-! ### BREV (spec/44_bitreverse.md R137) -/

/-- The checks of BREV, in their order; TVALID is not among them (R137, R153). -/
def checkBrev (s : State α w) : Option Cause :=
  let o := s.operands
  if !(isPow2 o.size) then some .badSize
  else if o.ioff ≥ o.size then some .badIndex
  else none

/-- The execution of BREV (R137): RESULT <- BREVNET(IOFF, SIZE). No bank is touched and SEQ stays empty. -/
def runBrev (s : State α w) : Res (State α w) := do
  let x ← brevnetRegs s.operands.ioff s.operands.size
  let d := { s.dp with work := .brev x }
  .ok { s with result := BitVec.ofNat 32 x.r, dp := d.endTask }

/-- BREV in any NUM (R137). -/
def brevIn (s : State α w) : Host.Outcome (State α w) Fault Refusal :=
  issue (encode .brev) checkBrev runBrev s

/-- BREV. -/
def execBrev (s : State) : Host.Outcome State Fault Refusal := brevIn s

/-! ### All commands -/

/-- The six commands in any NUM. `exec` is the same in R64. -/
def execIn (num : Num α w) (i : Instr) (s : State α w) : Host.Outcome (State α w) Fault Refusal :=
  match i with
  | .init => initIn num s
  | .dft => dftIn num s
  | .fft1 => fft1In num s
  | .fft2 => fft2In num s
  | .bpass => bpassIn num s
  | .brev => brevIn s

end Sys2Proof.Machine
end

