-- ==== Sys2Proof/Machine/Bus.lean ====
section
/-! DEFINITION. The host bus (spec/20_memory.md R42 to R48, R54, R55): the address map, the host's rights, and one
transaction, for any NUM. A write to CMD issues a command (spec/10_state.md R22): `ex` gives the commands their meaning. -/

namespace Sys2Proof.Machine

variable {α : Type} {w : Nat}

/-- The control registers by name (R21). -/
inductive Reg where
  | cmd
  | status
  | size
  | stride
  | ioff
  | ooff
  | result
  | fcmd
  | paramN
  | paramT
  | paramB
deriving DecidableEq, Repr

/-- What an address names (R44): a register, a word of a bank, or nothing (region 7, a CTRL index of 11 or above). -/
inductive Target where
  | reg (r : Reg)
  | word (b : BankId) (i : Nat)
  | unmapped
deriving DecidableEq, Repr

/-- The region of an address, bits 34:32 (R43). -/
def regionOf (a : Addr) : Nat := (a.extractLsb' 32 3).toNat

/-- The index of an address inside its region, bits 31:0 (R43). -/
def indexOf (a : Addr) : Nat := (a.extractLsb' 0 32).toNat

/-- An address from region and index (R44). -/
def addrOf (region index : Nat) : Addr := BitVec.ofNat 3 region ++ BitVec.ofNat 32 index

/-- The register numbers (R21, R47). -/
def regOfIndex (i : Nat) : Option Reg :=
  match i with
  | 0 => some .cmd
  | 1 => some .status
  | 2 => some .size
  | 3 => some .stride
  | 4 => some .ioff
  | 5 => some .ooff
  | 6 => some .result
  | 7 => some .fcmd
  | 8 => some .paramN
  | 9 => some .paramT
  | 10 => some .paramB
  | _ => none

/-- The region numbers of the banks (R44). -/
def bankOfRegion (r : Nat) : Option BankId :=
  match r with
  | 1 => some .inRe
  | 2 => some .inIm
  | 3 => some .outRe
  | 4 => some .outIm
  | 5 => some .twCos
  | 6 => some .twSin
  | _ => none

/-- The address map (R44, R47). -/
def targetOf (a : Addr) : Target :=
  if regionOf a = 0 then
    match regOfIndex (indexOf a) with
    | some r => .reg r
    | none => .unmapped
  else
    match bankOfRegion (regionOf a) with
    | some b => .word b (indexOf a)
    | none => .unmapped

/-- The host may write the four sample banks and not the twiddle banks (R44, R48). -/
def BankId.hostMayWrite : BankId → Bool
  | .inRe => true
  | .inIm => true
  | .outRe => true
  | .outIm => true
  | .twCos => false
  | .twSin => false

/-- What a read of a register gives (R21 to R30): nothing for CMD; the PARAM registers are hard-wired. -/
def State.readReg (s : State α w) : Reg → Option Word
  | .cmd => none
  | .status => some s.status.toWord
  | .size => some s.size
  | .stride => some s.stride
  | .ioff => some s.ioff
  | .ooff => some s.ooff
  | .result => some s.result
  | .fcmd => some s.fcmd
  | .paramN => some (BitVec.ofNat 32 s.cfg.N)
  | .paramT => some (BitVec.ofNat 32 s.cfg.T)
  | .paramB => some (BitVec.ofNat 32 s.cfg.B)

/-- A write of an RW register; `none` for a register the host may not write or that has no storage (R21, R55). -/
def State.writeReg (s : State α w) (v : Word) : Reg → Option (State α w)
  | .size => some { s with size := v }
  | .stride => some { s with stride := v }
  | .ioff => some { s with ioff := v }
  | .ooff => some { s with ooff := v }
  | .cmd => none
  | .status => none
  | .result => none
  | .fcmd => none
  | .paramN => none
  | .paramT => none
  | .paramB => none

/-- A 32-bit register on the data path: zero-extended (R46). -/
def zextData (v : Word) : BitVec w := v.setWidth w

/-- The word a region-0 write carries: wdata[31:0] (R46, R66). -/
def lowWord (d : BitVec w) : Word := d.extractLsb' 0 32

/-- A write of a word to CMD issues the command it encodes (R22, R66, R153). -/
def issueWord (ex : Instr → State α w → Host.Outcome (State α w) Fault Refusal) (word : Word) (s : State α w) :
    Host.Outcome (State α w) Fault Refusal :=
  match decode word with
  | .ok i => ex i s
  | .error _ => issueIllegal word s

/-- The host's read of a target (R46, R55, R60). It changes nothing of the engine (R54). -/
def hostRead (num : Num α w) (t : Target) (s : State α w) : Host.Outcome (State α w) Fault Refusal :=
  match t with
  | .reg r =>
    match s.readReg r with
    | some v => .next (s.respond (.okayData (zextData v)))
    | none => .next (s.respond .error)
  | .word b i =>
    if i < s.cfg.N then
      match s.dp.mem.read b i with
      | some v => .next (s.respond (.okayData (num.busOut v)))
      | none => .refused (.noValue b i)
    else .next (s.respond .error)
  | .unmapped => .next (s.respond .error)

/-- The host's write of a target (R46, R55). A bus error changes nothing of the engine (R42, R166). -/
def hostWrite (num : Num α w) (ex : Instr → State α w → Host.Outcome (State α w) Fault Refusal) (t : Target)
    (d : BitVec w) (s : State α w) : Host.Outcome (State α w) Fault Refusal :=
  match t with
  | .reg .cmd => issueWord ex (lowWord d) s
  | .reg r =>
    match s.writeReg (lowWord d) r with
    | some u => .next (u.respond .okay)
    | none => .next (s.respond .error)
  | .word b i =>
    if b.hostMayWrite ∧ i < s.cfg.N then
      .next (({ s with dp := { s.dp with mem := s.dp.mem.write b i (num.busIn d) } }).respond .okay)
    else .next (s.respond .error)
  | .unmapped => .next (s.respond .error)

/-- One transaction (R42). The engine is idle when it begins (R52); a busy engine is refused. -/
def transact (num : Num α w) (ex : Instr → State α w → Host.Outcome (State α w) Fault Refusal) (r : RequestOf w)
    (s : State α w) : Host.Outcome (State α w) Fault Refusal :=
  if !s.dp.isIdle then .refused .engineBusy
  else
    match r.kind with
    | .rd => hostRead num (targetOf r.addr) s
    | .wr => hostWrite num ex (targetOf r.addr) r.wdata s

/-- The next transaction of the host (R53). With none pending the engine stays idle (R173). -/
def stepWith (num : Num α w) (ex : Instr → State α w → Host.Outcome (State α w) Fault Refusal) (s : State α w) :
    Host.Outcome (State α w) Fault Refusal :=
  match s.nextRequest with
  | none => .next s
  | some (r, t) => transact num ex r t

/-- The step of the engine of any NUM (R10, R83). -/
def stepIn (num : Num α w) (s : State α w) : Host.Outcome (State α w) Fault Refusal := stepWith num (execIn num) s

/-- The address of CMD (R47). -/
def cmdAddr : Addr := addrOf 0 0

/-- The transaction that writes a command word to CMD. -/
def commandRequest (word : Word) : RequestOf w := ⟨.wr, cmdAddr, zextData word⟩

end Sys2Proof.Machine
end

