-- ==== Sys2Proof/Machine/Dispatch.lean ====
section
/-! DEFINITION. `exec`: what the issue of each command does (spec/30_encoding.md R67, spec/60_exceptions.md R153). -/

namespace Sys2Proof.Machine

def exec (i : Instr) (s : State) : Host.Outcome State Fault Refusal :=
  match i with
  | .init => Sys2Proof.Machine.execInit s
  | .dft => Sys2Proof.Machine.execDft s
  | .fft1 => Sys2Proof.Machine.execFft1 s
  | .fft2 => Sys2Proof.Machine.execFft2 s
  | .bpass => Sys2Proof.Machine.execBpass s
  | .brev => Sys2Proof.Machine.execBrev s

end Sys2Proof.Machine
end

