-- ==== Sys2Proof/Machine/Step.lean ====
section
/-! DEFINITION. One step of the machine: the host's next transaction, complete before the next begins (spec/20_memory.md
R42, R53). The engine fetches nothing (R61): a command reaches it as the data of a write to CMD. -/

namespace Sys2Proof.Machine

/-- One step of the machine: the host's next transaction on the engine of the reference instance R64, with `exec` as the
meaning of the commands. With none pending the engine stays idle (spec/70_reset_and_hazards.md R173). -/
def step (s : State) : Host.Outcome State Fault Refusal := stepWith R64.num exec s

/-- `s` with the write of the command word `w` to CMD as the host's very next transaction (log entry 4). -/
def State.withFetchWord (s : State) (nbits w : Nat) : State :=
  { s with bus := { s.bus with pending := commandRequest (BitVec.ofNat 32 (w % 2 ^ nbits)) :: s.bus.pending } }

end Sys2Proof.Machine
end

