-- ==== Sys2Proof/Machine/BigStep.lean ====
section
/-! DEFINITION. The composite commands in the other form the spec gives them: FFT1 as a recursive function
(spec/43_fft_recursive.md R129), FFT2 and INIT as plain nested loops (spec/45_fft_iterative.md R142, spec/40_twiddle.md
R93). `exec` runs the sequencer and the loop controller; both forms must reach the same state (spec/00_scope.md R6). -/

namespace Sys2Proof.Machine

variable {α : Type}

/-- FFT1 as a recursive function (R129). `levels` bounds the depth; log2(size) levels are always enough (R126). -/
def fft1Rec (ns : NumSys α) (c : Config) : Nat → Nat → Nat → Nat → Nat → Datapath α → Res (Datapath α)
  | 0, _, _, _, _, _ => .error (.fault .sequencerHung)
  | levels + 1, ioff, ooff, size, stride, d => do
    let half := size / 2
    let d ←
      if half > c.T ∧ half % 2 = 0 then do
        let d ← fft1Rec ns c levels ioff ooff half (2 * stride) d
        fft1Rec ns c levels (ioff + stride) (ooff + half) half (2 * stride) d
      else do
        let d ← dftTask ns c ioff ooff half (2 * stride) d
        dftTask ns c (ioff + stride) (ooff + half) half (2 * stride) d
    bpassTask ns c ooff size d

/-- Step 2 of FFT2, block j: transform it into its bit-reversed place (R142, R145). -/
def fft2Block (ns : NumSys α) (c : Config) (j : Nat) (d : Datapath α) : Res (Datapath α) := do
  let r ← brevnet j c.blocks
  dftTask ns c j (c.B * r) c.B c.blocks d

/-- One stage of FFT2: the passes on the N div w windows of width w, in ascending base (R142, R143, R146). -/
def fft2Stage (ns : NumSys α) (c : Config) (w : Nat) (d : Datapath α) : Res (Datapath α) :=
  forN (c.N / w) (fun i => bpassTask ns c (i * w) w) d

/-- FFT2 as nested loops (R142): all blocks, then the n − b stages of widths 2B, 4B, …, N (R143). -/
def fft2Loops (ns : NumSys α) (c : Config) (d : Datapath α) : Res (Datapath α) := do
  let d ← forN c.blocks (fft2Block ns c) d
  forN (c.n - c.b) (fun q => fft2Stage ns c (2 ^ (q + 1) * c.B)) d

/-- INIT as a plain loop over the table index (R93). -/
def initLoop (ns : NumSys α) (c : Config) (d : Datapath α) : Res (Datapath α) :=
  forN c.N
    (fun k d => do
      let m ← d.mem.store c .twCos k (ns.cosEntry c.n k)
      let m ← m.store c .twSin k (ns.sinEntry c.n k)
      .ok { d with mem := m })
    d

end Sys2Proof.Machine
end

