-- ==== Sys2Proof/Machine/Exact.lean ====
section
/-! DEFINITION. What the results mean as numbers: quiet NaNs (spec/40_twiddle.md R86), and the exact instance REAL of the
number system with the transform it computes (R88, spec/41_dft.md R100). No step of the machine uses this file; statements
about the machine do. -/

namespace Sys2Proof.Machine

namespace R64

/-- A quiet NaN: exponent all ones and the first bit of the significand 1 (R86, R87). -/
def isQuietNaN (a : Num64) : Bool := expo a == 2047 && a.getLsbD 51

end R64

/-- The exact instance REAL (R88): RND(x) = x. It has no bus encoding and states the exact mathematics only. -/
noncomputable def realNum : NumSys ℝ where
  zero := 0
  add a b := a + b
  sub a b := a - b
  mul a b := a * b
  divn n a := a / 2 ^ n
  rnd := Erased.mk fun x => x
  cosEntry n k := Real.cos (2 * Real.pi * k / 2 ^ n)
  sinEntry n k := Real.sin (2 * Real.pi * k / 2 ^ n)

/-- The direct transform of `size` samples, normalised by the full table size N (R100, R103). -/
noncomputable def directTransform (N size : ℕ) (x : ℕ → ℂ) (k : ℕ) : ℂ :=
  (1 / (N : ℂ)) *
    ∑ s ∈ Finset.range size, x s * Complex.exp (-(2 * (Real.pi : ℂ) * Complex.I * (k : ℂ) * (s : ℂ) / (size : ℂ)))

/-- The twiddle banks hold the table of the instance (R92). -/
def TableIs {α : Type} (ns : NumSys α) (c : Config) (m : Memory α) : Prop :=
  ∀ k, k < c.N → m.read .twCos k = some (ns.cosEntry c.n k) ∧ m.read .twSin k = some (ns.sinEntry c.n k)

/-- The input banks hold the complex samples `x` of the view (ioff, stride, size) (R56, R100). -/
def ViewHolds (m : Memory ℝ) (ioff stride size : ℕ) (x : ℕ → ℂ) : Prop :=
  ∀ s, s < size →
    m.read .inRe (viewIndex ioff stride s) = some (x s).re ∧ m.read .inIm (viewIndex ioff stride s) = some (x s).im

/-- The output banks hold the complex values `y` in the run (ooff, size) (R56, R100). -/
def RunHolds (m : Memory ℝ) (ooff size : ℕ) (y : ℕ → ℂ) : Prop :=
  ∀ k, k < size →
    m.read .outRe (runIndex ooff k) = some (y k).re ∧ m.read .outIm (runIndex ooff k) = some (y k).im

end Sys2Proof.Machine
end

