-- ==== Sys2Proof/Machine/Script.lean ====
section
/-! DEFINITION. Host scripts (spec/30_encoding.md R73 to R77): the pseudo-instructions and the bus transactions each
expands to. -/

namespace Sys2Proof.Machine

/-- The lines of a host script (R74 to R76): the two primitive lines, the command pseudo-instructions and the data
pseudo-instructions. Indices and operands are 32-bit unsigned integers, samples are data of R64. -/
inductive Pseudo where
  | wr (addr : Addr) (value : Data)
  | rd (addr : Addr)
  | init
  | dft (size stride ioff ooff : Word)
  | fft1 (size stride ioff ooff : Word)
  | fft2 (size : Word)
  | bpass (size ooff : Word)
  | brev (i max : Word)
  | ldin (i : Word) (re im : Num64)
  | ldout (i : Word) (re im : Num64)
  | rdout (i : Word)
  | rdtw (k : Word)
  | stat
deriving DecidableEq, Repr

/-- `WR <register>, value` (R74). -/
def wrReg (number : Nat) (v : Word) : Request := ⟨.wr, addrOf 0 number, zextData v⟩

/-- `RD <register>` (R74). -/
def rdReg (number : Nat) : Request := ⟨.rd, addrOf 0 number, 0⟩

/-- `WR BANK[i], value` (R74, R78): the literal is the 64-bit pattern ENC(value) of R64, which is the value as held (R87). -/
def wrBank (region : Nat) (i : Word) (v : Num64) : Request := ⟨.wr, addrOf region i.toNat, v⟩

/-- `RD BANK[i]` (R74). -/
def rdBank (region : Nat) (i : Word) : Request := ⟨.rd, addrOf region i.toNat, 0⟩

/-- The expansion of a script line (R75, R76): operand registers in the order SIZE, STRIDE, IOFF, OOFF, exactly those
the command reads, then the write to CMD. -/
def Pseudo.expand : Pseudo → List Request
  | .wr a v => [⟨.wr, a, v⟩]
  | .rd a => [⟨.rd, a, 0⟩]
  | .init => [wrReg 0 1]
  | .dft size stride ioff ooff => [wrReg 2 size, wrReg 3 stride, wrReg 4 ioff, wrReg 5 ooff, wrReg 0 2]
  | .fft1 size stride ioff ooff => [wrReg 2 size, wrReg 3 stride, wrReg 4 ioff, wrReg 5 ooff, wrReg 0 3]
  | .fft2 size => [wrReg 2 size, wrReg 0 4]
  | .bpass size ooff => [wrReg 2 size, wrReg 5 ooff, wrReg 0 5]
  | .brev i max => [wrReg 2 max, wrReg 4 i, wrReg 0 6, rdReg 6]
  | .ldin i re im => [wrBank 1 i re, wrBank 2 i im]
  | .ldout i re im => [wrBank 3 i re, wrBank 4 i im]
  | .rdout i => [rdBank 3 i, rdBank 4 i]
  | .rdtw k => [rdBank 5 k, rdBank 6 k]
  | .stat => [rdReg 1]

end Sys2Proof.Machine
end

