-- ==== Sys2Proof/Safety.lean ====
section
/-! DEFINITION. What counts as a safe run: the invariant of the states between transactions, and when a host script has
gone wrong (spec/30_encoding.md R77). -/

namespace Sys2Proof.Machine

/-- What holds between any two transactions of a run from reset, on an engine of the number system `ns`. -/
structure InvIn {α : Type} {w : Nat} (ns : NumSys α) (s : State α w) : Prop where
  /-- The hard-wired parameters meet their constraints (R7 to R9, R12). -/
  cfgOk : s.cfg.wellFormed = true
  /-- The engine is idle whenever the host can observe it (R52), with IT at its idle value and the working registers
  dead (R35, R36). -/
  quiet : s.dp.seq = [] ∧ s.dp.it = LoopRegs.idle ∧ s.dp.work = Work.dead
  /-- Every bank is in canonical form and holds words below N only (R31, R32). -/
  memOk : s.dp.mem.wf s.cfg.N = true
  /-- CAUSE and FCMD are 0 while ERR = 0 (R23, R29). -/
  clean : s.status.err = false → s.status.cause = .noFault ∧ s.fcmd = 0
  /-- A recorded fault has a cause, and DONE is 0 (R160, R161). -/
  faulted : s.status.err = true → s.status.cause ≠ .noFault ∧ s.status.done = false
  /-- TVALID = 1: the twiddle banks hold the table of the number system (R92). -/
  table : s.status.tvalid = true → ∀ k, k < s.cfg.N →
    s.dp.mem.read .twCos k = some (ns.cosEntry s.cfg.n k) ∧ s.dp.mem.read .twSin k = some (ns.sinEntry s.cfg.n k)
  /-- TVALID = 0: no twiddle word holds a value (R32, R40). -/
  noTable : s.status.tvalid = false → s.dp.mem.twCos = [] ∧ s.dp.mem.twSin = []
  /-- After INIT and without a fault the last command completed (spec/95_test_vectors.md section 3). -/
  ready : s.status.tvalid = true → s.status.err = false → s.status.done = true
  /-- The causes that are only raised with the table filled, and the one that is only raised without it (R153). -/
  causeOk : (s.status.cause = .tableReinit ∨ s.status.cause = .badStride ∨ s.status.cause = .badRange →
      s.status.tvalid = true) ∧ (s.status.cause = .tableNotInit → s.status.tvalid = false)

/-- The invariant of the machine, the engine of R64. -/
abbrev Inv (s : State) : Prop := InvIn r64 s

/-- One line of a script as the harness checks it (R74, R77). -/
structure ScriptLine where
  req : Request
  errorExpected : Bool
deriving DecidableEq, Repr

/-- The end of a script (R77). -/
inductive ScriptEnd where
  /-- The last line has been answered; whether some line got an ERROR the script did not expect. -/
  | ended (s : State) (unexpectedError : Bool)
  /-- The model stopped. -/
  | stopped
deriving DecidableEq, Repr

/-- Whether the last transaction was answered ERROR. -/
def lastIsError (s : State) : Bool := decide (s.bus.responses.head? = some ResponseOf.error)

/-- Run a script, one line at a time (R74); `seen` says that an unexpected ERROR has been seen. -/
def runScript : List ScriptLine → Bool → State → ScriptEnd
  | [], seen, s => .ended s seen
  | l :: rest, seen, s =>
    match step { s with bus := { s.bus with pending := [l.req] } } with
    | .next t => runScript rest (seen || (lastIsError t && !l.errorExpected)) t
    | .fault _ => .stopped
    | .refused _ => .stopped

/-- A script has gone wrong if ERR = 1 at its end, a line got an ERROR it did not expect, or the model stopped (R77). -/
def goneWrong : ScriptEnd → Bool
  | .ended s unexpectedError => unexpectedError || s.status.err
  | .stopped => true

end Sys2Proof.Machine
end

