-- ==== Sys2Proof/Certificates/Slice0/Obligations.lean ====
section
/-! DEFINITION. The statements for the provers. Each quantifies over every configuration that meets its constraints
(`s.cfg.wellFormed`), not over the reference configuration. A statement "in any number system" quantifies over `NumSys`, or
over `Num` where the bus takes part; `exec` and `step` are the instance R64. -/

open Sys2Proof Sys2Proof.Machine

/-! ### Words the statements are written with -/

namespace Sys2Proof.Machine

/-- The engine accepts a command: its parameters meet their constraints, it is idle, and ERR = 0 (R7 to R12, R34, R162). -/
def Ready {α : Type} {w : Nat} (s : State α w) : Prop := s.cfg.wellFormed = true ∧ s.dp.isIdle = true ∧ s.status.err = false

/-- `x` is a power of two (R14). -/
def PowerOfTwo (x : Nat) : Prop := ∃ q, x = 2 ^ q

/-- The operands meet the conditions of R105 (2) to (4) for a view and an output run. -/
def OperandsFit (c : Config) (o : Operands) : Prop :=
  PowerOfTwo o.size ∧ o.size ≤ c.N ∧ o.stride * o.size ≤ c.N ∧ o.ioff + (o.size - 1) * o.stride ≤ c.N - 1 ∧
    o.ooff + o.size ≤ c.N

/-- Every word of both twiddle banks holds a value: `co k` and `si k`. -/
def TableValues {α : Type} (c : Config) (m : Memory α) (co si : Nat → α) : Prop :=
  ∀ k, k < c.N → m.read .twCos k = some (co k) ∧ m.read .twSin k = some (si k)

/-- Every word of the input view holds a value: `xr s` and `xi s`. -/
def ViewValues {α : Type} (m : Memory α) (ioff stride size : Nat) (xr xi : Nat → α) : Prop :=
  ∀ s, s < size → m.read .inRe (ioff + s * stride) = some (xr s) ∧ m.read .inIm (ioff + s * stride) = some (xi s)

/-- Every word of the output run holds a value: `yr k` and `yi k`. -/
def RunValues {α : Type} (m : Memory α) (ooff size : Nat) (yr yi : Nat → α) : Prop :=
  ∀ k, k < size → m.read .outRe (ooff + k) = some (yr k) ∧ m.read .outIm (ooff + k) = some (yi k)

/-- `m'` differs from `m` at most in the output words of the run (ooff, size). -/
def SameOutsideRun {α : Type} (ooff size : Nat) (m m' : Memory α) : Prop :=
  ∀ b i, ¬((b = .outRe ∨ b = .outIm) ∧ ooff ≤ i ∧ i < ooff + size) → m'.read b i = m.read b i

/-- The sum ZERO + term 0 + term 1 + … + term (size − 1), each addition rounded, in ascending order (R89, R101). -/
def binSum {α : Type} (ns : NumSys α) (size : Nat) (term : Nat → α) : α :=
  (List.range size).foldl (fun acc s => ns.add acc (term s)) ns.zero

/-- Real part of x·W(p) (R96). -/
def rotRe {α : Type} (ns : NumSys α) (co si : Nat → α) (xr xi : α) (p : Nat) : α :=
  ns.add (ns.mul xr (co p)) (ns.mul xi (si p))

/-- Imaginary part of x·W(p) (R96). -/
def rotIm {α : Type} (ns : NumSys α) (co si : Nat → α) (xr xi : α) (p : Nat) : α :=
  ns.sub (ns.mul xi (co p)) (ns.mul xr (si p))

/-- The state after a command whose word `w` faulted with cause `c` (R160). -/
def faultedState (c : Cause) (w : Word) (s : State) : State :=
  { s with
    status := { tvalid := s.status.tvalid, err := true, done := false, cause := c }
    fcmd := w
    bus := { s.bus with responses := .okay :: s.bus.responses } }

/-- The state after a command that completed and left the datapath `d` (R153): DONE = 1, the write answered OKAY, every
register as before. -/
def completedState {α : Type} {w : Nat} (s : State α w) (d : Datapath α) : State α w :=
  { s with
    status := { s.status with done := true }
    dp := d
    bus := { s.bus with responses := .okay :: s.bus.responses } }

/-- Everything but STATUS.DONE, the datapath and the responses is as before. -/
def OnlyDoneAndDatapath (s t : State) : Prop :=
  t.cfg = s.cfg ∧ t.status.tvalid = s.status.tvalid ∧ t.status.err = s.status.err ∧ t.status.cause = s.status.cause ∧
    t.size = s.size ∧ t.stride = s.stride ∧ t.ioff = s.ioff ∧ t.ooff = s.ooff ∧ t.result = s.result ∧
    t.fcmd = s.fcmd ∧ t.bus.pending = s.bus.pending

/-- The ERROR cases of the bus (R55), from the address written as a number: region = addr div 2^32, index = addr mod 2^32. -/
def IsBusError (s : State) (r : Request) : Prop :=
  let region := r.addr.toNat / 2 ^ 32
  let index := r.addr.toNat % 2 ^ 32
  region = 7 ∨ (region = 0 ∧ 11 ≤ index) ∨ (1 ≤ region ∧ region ≤ 6 ∧ s.cfg.N ≤ index) ∨
    (r.kind = .wr ∧ ((region = 0 ∧ (index = 1 ∨ (6 ≤ index ∧ index ≤ 10))) ∨ region = 5 ∨ region = 6)) ∨
    (r.kind = .rd ∧ region = 0 ∧ index = 0) ∨
    (r.kind = .wr ∧ region = 0 ∧ index = 0 ∧ s.status.err = true)

/-- `k` steps, stopping at the first step that answers no next state. -/
def steps : Nat → State → Host.Outcome State Fault Refusal
  | 0, s => .next s
  | k + 1, s =>
    match step s with
    | .next t => steps k t
    | .fault f => .fault f
    | .refused r => .refused r

/-- The state after the transaction at the head of the host's list has been answered `a` with no other effect. -/
def answered (s : State) (rest : List Request) (a : Response) : State :=
  { s with bus := ⟨rest, a :: s.bus.responses⟩ }

end Sys2Proof.Machine

/-! ### Command words (spec/30_encoding.md) -/

/-- R67: the words of the opcode map, written out, and some words outside it. -/
def Obligations.SampleWordsDecode : Prop :=
  decode 0x00000001#32 = .ok .init ∧ decode 0x00000002#32 = .ok .dft ∧ decode 0x00000003#32 = .ok .fft1 ∧
    decode 0x00000004#32 = .ok .fft2 ∧ decode 0x00000005#32 = .ok .bpass ∧ decode 0x00000006#32 = .ok .brev ∧
    decode 0x00000000#32 = .error (.illegalOpcode 0#4) ∧ decode 0x00000007#32 = .error (.illegalOpcode 7#4) ∧
    decode 0x0000000F#32 = .error (.illegalOpcode 15#4) ∧ decode 0x00000012#32 = .error .reservedBits ∧
    decode 0x80000001#32 = .error .reservedBits

/-- R67, R66: every word is one of the six commands, exactly its own word, or illegal; it is a command exactly if the bits
above bit 3 are zero and the low four bits are 1 to 6. -/
def Obligations.DecodeIsExactlyTheSixWords : Prop :=
  (∀ (w : Word) (i : Instr), decode w = .ok i ↔ w = encode i) ∧
    (∀ w : Word, (∃ i, decode w = .ok i) ↔ (w.toNat / 16 = 0 ∧ 1 ≤ w.toNat % 16 ∧ w.toNat % 16 ≤ 6)) ∧
    (encode .init).toNat = 1 ∧ (encode .dft).toNat = 2 ∧ (encode .fft1).toNat = 3 ∧ (encode .fft2).toNat = 4 ∧
    (encode .bpass).toNat = 5 ∧ (encode .brev).toNat = 6

/-! ### Transactions (spec/20_memory.md) -/

/-- R22, R46: when the host's next transaction writes to address 0 data whose low 32 bits decode to a command, the step is
that command's `exec` at the state without the transaction. -/
def Obligations.StepRunsTheDecodedCommand : Prop :=
  ∀ (s : State) (d : Data) (rest : List Request) (i : Instr),
    s.bus.pending = ⟨.wr, 0#35, d⟩ :: rest → s.dp.isIdle = true → decode (d.setWidth 32) = .ok i →
      step s = exec i { s with bus := { s.bus with pending := rest } }

/-- R70, R155, R160: a write of an illegal word to CMD faults ILLEGAL_CMD whatever TVALID and the operands hold. -/
def Obligations.IllegalWordFaults : Prop :=
  ∀ (s : State) (d : Data) (rest : List Request),
    s.bus.pending = ⟨.wr, 0#35, d⟩ :: rest → Ready s →
      (d.toNat % 2 ^ 32 / 16 ≠ 0 ∨ d.toNat % 16 = 0 ∨ 7 ≤ d.toNat % 16) →
        step s = .next (faultedState .illegalCmd (d.setWidth 32) { s with bus := { s.bus with pending := rest } })

/-- R55, R42, R166: a transaction is answered ERROR in exactly the listed cases, and then changes nothing. -/
def Obligations.BusErrorsAreExactlyTheListedCases : Prop :=
  ∀ (s : State) (r : Request) (rest : List Request), s.bus.pending = r :: rest → s.dp.isIdle = true →
    (IsBusError s r → step s = .next (answered s rest .error)) ∧
      (¬IsBusError s r → ∀ t, step s = .next t → t.bus.responses ≠ .error :: s.bus.responses)

/-- R54: a read has no side effect: it leaves everything but the host's own lists as it was. -/
def Obligations.ReadsHaveNoSideEffect : Prop :=
  ∀ (s t : State) (a : Addr) (d : Data) (rest : List Request),
    s.bus.pending = ⟨.rd, a, d⟩ :: rest → step s = .next t → ∃ resp, t = answered s rest resp

/-- R21, R46, R30: what the host reads from each readable register: its value, zero-extended; the PARAM registers read the
parameters. -/
def Obligations.RegisterReadsGiveTheRegister : Prop :=
  ∀ (s : State) (d : Data) (rest : List Request) (k : Nat) (v : Word), s.dp.isIdle = true →
    s.bus.pending = ⟨.rd, BitVec.ofNat 35 k, d⟩ :: rest →
    ((k = 1 ∧ v = s.status.toWord) ∨ (k = 2 ∧ v = s.size) ∨ (k = 3 ∧ v = s.stride) ∨ (k = 4 ∧ v = s.ioff) ∨
      (k = 5 ∧ v = s.ooff) ∨ (k = 6 ∧ v = s.result) ∨ (k = 7 ∧ v = s.fcmd) ∨ (k = 8 ∧ v = BitVec.ofNat 32 (2 ^ s.cfg.n)) ∨
      (k = 9 ∧ v = BitVec.ofNat 32 s.cfg.T) ∨ (k = 10 ∧ v = BitVec.ofNat 32 (2 ^ s.cfg.b))) →
    step s = .next (answered s rest (.okayData (v.setWidth 64)))

/-- R23, R154: the layout of STATUS: TVALID bit 0, ERR bit 1, DONE bit 2, CAUSE bits 7:4, every other bit 0; and the number
of each cause. -/
def Obligations.StatusLayout : Prop :=
  (∀ f : Status, f.toWord.getLsbD 0 = f.tvalid ∧ f.toWord.getLsbD 1 = f.err ∧ f.toWord.getLsbD 2 = f.done ∧
    f.toWord.toNat / 16 = f.cause.code.toNat ∧ f.toWord.getLsbD 3 = false) ∧
    Cause.noFault.code.toNat = 0 ∧ Cause.illegalCmd.code.toNat = 1 ∧ Cause.tableNotInit.code.toNat = 2 ∧
    Cause.tableReinit.code.toNat = 3 ∧ Cause.badSize.code.toNat = 4 ∧ Cause.badStride.code.toNat = 5 ∧
    Cause.badRange.code.toNat = 6 ∧ Cause.badIndex.code.toNat = 7

/-- R24 to R27, R46: a write of SIZE, STRIDE, IOFF or OOFF stores the low 32 bits unchanged and changes nothing else. -/
def Obligations.RegisterWritesStoreTheLowWord : Prop :=
  ∀ (s : State) (d : Data) (rest : List Request), s.dp.isIdle = true →
    (s.bus.pending = ⟨.wr, 2#35, d⟩ :: rest →
      step s = .next (answered { s with size := d.setWidth 32 } rest .okay)) ∧
    (s.bus.pending = ⟨.wr, 3#35, d⟩ :: rest →
      step s = .next (answered { s with stride := d.setWidth 32 } rest .okay)) ∧
    (s.bus.pending = ⟨.wr, 4#35, d⟩ :: rest →
      step s = .next (answered { s with ioff := d.setWidth 32 } rest .okay)) ∧
    (s.bus.pending = ⟨.wr, 5#35, d⟩ :: rest →
      step s = .next (answered { s with ooff := d.setWidth 32 } rest .okay))

/-- R46, R48, R87: a write of a sample word stores the 64-bit pattern; a read of any bank word then gives the pattern just
written at that word and what was there before everywhere else. Regions 1 to 4 are IN_RE, IN_IM, OUT_RE, OUT_IM. -/
def Obligations.SampleWordWriteThenRead : Prop :=
  ∀ (s : State) (region i : Nat) (d : Data) (rest : List Request), s.dp.isIdle = true → i < s.cfg.N →
    s.cfg.wellFormed = true → 1 ≤ region → region ≤ 4 →
    s.bus.pending = ⟨.wr, BitVec.ofNat 35 (region * 2 ^ 32 + i), d⟩ :: rest →
    ∃ t, step s = .next t ∧ t.bus = ⟨rest, .okay :: s.bus.responses⟩ ∧
      (∀ b j, t.dp.mem.read b j =
        if (region = 1 ∧ b = .inRe ∨ region = 2 ∧ b = .inIm ∨ region = 3 ∧ b = .outRe ∨ region = 4 ∧ b = .outIm) ∧ j = i
        then some d else s.dp.mem.read b j) ∧
      t = { s with dp := { s.dp with mem := t.dp.mem }, bus := t.bus }

/-- R60, R46: a host read of a bank word gives its pattern if it holds a value and is refused if it holds none. -/
def Obligations.WordReadsGiveTheValueOrRefuse : Prop :=
  ∀ (s : State) (region i : Nat) (b : BankId) (d : Data) (rest : List Request), s.dp.isIdle = true → i < s.cfg.N →
    s.cfg.wellFormed = true →
    (region = 1 ∧ b = .inRe ∨ region = 2 ∧ b = .inIm ∨ region = 3 ∧ b = .outRe ∨ region = 4 ∧ b = .outIm ∨
      region = 5 ∧ b = .twCos ∨ region = 6 ∧ b = .twSin) →
    s.bus.pending = ⟨.rd, BitVec.ofNat 35 (region * 2 ^ 32 + i), d⟩ :: rest →
      (∀ v, s.dp.mem.read b i = some v → step s = .next (answered s rest (.okayData v))) ∧
      (s.dp.mem.read b i = none → step s = .refused (.noValue b i))

/-- R162: while ERR = 1 a write to CMD is answered ERROR and changes nothing, whatever the word. -/
def Obligations.FaultStateTurnsCommandsAway : Prop :=
  ∀ (s : State) (d : Data) (rest : List Request), s.dp.isIdle = true → s.status.err = true →
    s.bus.pending = ⟨.wr, 0#35, d⟩ :: rest → step s = .next (answered s rest .error)

/-- R75: each command pseudo-instruction is the writes of the operand registers its command reads and then the command.
The last step of BREV reads RESULT. -/
def Obligations.PseudoInstructionsRunTheirCommand : Prop :=
  ∀ (s : State) (rest : List Request) (size stride ioff ooff : Word), s.dp.isIdle = true →
    steps 1 { s with bus := { s.bus with pending := Pseudo.expand .init ++ rest } } =
        exec .init { s with bus := ⟨rest, s.bus.responses⟩ } ∧
    steps 5 { s with bus := { s.bus with pending := Pseudo.expand (.dft size stride ioff ooff) ++ rest } } =
        exec .dft { s with size := size, stride := stride, ioff := ioff, ooff := ooff,
                           bus := ⟨rest, .okay :: .okay :: .okay :: .okay :: s.bus.responses⟩ } ∧
    steps 5 { s with bus := { s.bus with pending := Pseudo.expand (.fft1 size stride ioff ooff) ++ rest } } =
        exec .fft1 { s with size := size, stride := stride, ioff := ioff, ooff := ooff,
                            bus := ⟨rest, .okay :: .okay :: .okay :: .okay :: s.bus.responses⟩ } ∧
    steps 2 { s with bus := { s.bus with pending := Pseudo.expand (.fft2 size) ++ rest } } =
        exec .fft2 { s with size := size, bus := ⟨rest, .okay :: s.bus.responses⟩ } ∧
    steps 3 { s with bus := { s.bus with pending := Pseudo.expand (.bpass size ooff) ++ rest } } =
        exec .bpass { s with size := size, ooff := ooff, bus := ⟨rest, .okay :: .okay :: s.bus.responses⟩ } ∧
    steps 3 { s with bus := { s.bus with pending := Pseudo.expand (.brev ioff size) ++ rest } } =
        exec .brev { s with size := size, ioff := ioff,
                            bus := ⟨⟨.rd, 6#35, 0#64⟩ :: rest, .okay :: .okay :: s.bus.responses⟩ }

/-! ### Issue, faults, STATUS (spec/60_exceptions.md) -/

/-- R153, R154, R160, R164: for each command, the first violated precondition in the order of R153 is the fault taken, and
fault entry does what R160 says and nothing else. -/
def Obligations.ViolatedPreconditionsFaultInOrder : Prop :=
  ∀ s : State, Ready s →
    (s.status.tvalid = true → exec .init s = .next (faultedState .tableReinit 1#32 s)) ∧
    (s.status.tvalid = false →
      exec .dft s = .next (faultedState .tableNotInit 2#32 s) ∧ exec .fft1 s = .next (faultedState .tableNotInit 3#32 s) ∧
      exec .fft2 s = .next (faultedState .tableNotInit 4#32 s) ∧
      exec .bpass s = .next (faultedState .tableNotInit 5#32 s)) ∧
    (s.status.tvalid = true → (¬PowerOfTwo s.size.toNat ∨ s.cfg.N < s.size.toNat) →
      exec .dft s = .next (faultedState .badSize 2#32 s)) ∧
    (s.status.tvalid = true → (¬PowerOfTwo s.size.toNat ∨ s.size.toNat < 2 ∨ s.cfg.N < s.size.toNat) →
      exec .fft1 s = .next (faultedState .badSize 3#32 s) ∧ exec .bpass s = .next (faultedState .badSize 5#32 s)) ∧
    (s.status.tvalid = true → s.size.toNat ≠ s.cfg.N → exec .fft2 s = .next (faultedState .badSize 4#32 s)) ∧
    (¬PowerOfTwo s.size.toNat → exec .brev s = .next (faultedState .badSize 6#32 s)) ∧
    (s.status.tvalid = true → PowerOfTwo s.size.toNat → s.size.toNat ≤ s.cfg.N →
      s.cfg.N < s.stride.toNat * s.size.toNat →
        exec .dft s = .next (faultedState .badStride 2#32 s) ∧
        (2 ≤ s.size.toNat → exec .fft1 s = .next (faultedState .badStride 3#32 s))) ∧
    (s.status.tvalid = true → PowerOfTwo s.size.toNat → s.size.toNat ≤ s.cfg.N →
      s.stride.toNat * s.size.toNat ≤ s.cfg.N →
      (s.cfg.N - 1 < s.ioff.toNat + (s.size.toNat - 1) * s.stride.toNat ∨ s.cfg.N < s.ooff.toNat + s.size.toNat) →
        exec .dft s = .next (faultedState .badRange 2#32 s) ∧
        (2 ≤ s.size.toNat → exec .fft1 s = .next (faultedState .badRange 3#32 s))) ∧
    (s.status.tvalid = true → PowerOfTwo s.size.toNat → 2 ≤ s.size.toNat → s.size.toNat ≤ s.cfg.N →
      s.cfg.N < s.ooff.toNat + s.size.toNat → exec .bpass s = .next (faultedState .badRange 5#32 s)) ∧
    (PowerOfTwo s.size.toNat → s.size.toNat ≤ s.ioff.toNat → exec .brev s = .next (faultedState .badIndex 6#32 s))

/-- R161: after any CMD write that is answered OKAY exactly one of DONE = 1 and ERR = 1 holds. -/
def Obligations.ExactlyOneOfDoneAndErr : Prop :=
  ∀ (s t : State) (d : Data) (rest : List Request), s.bus.pending = ⟨.wr, 0#35, d⟩ :: rest → step s = .next t →
    t.bus.responses = .okay :: s.bus.responses → (t.status.done = !t.status.err)

/-- R23, R41, R162: no step clears TVALID or ERR, and once ERR = 1 no step changes ERR, CAUSE or FCMD. -/
def Obligations.StatusIsSticky : Prop :=
  ∀ s t : State, step s = .next t →
    (s.status.tvalid = true → t.status.tvalid = true) ∧
      (s.status.err = true → t.status.err = true ∧ t.status.cause = s.status.cause ∧ t.fcmd = s.fcmd)

/-- R173 (R39, R40): the state after reset, piece by piece, for every configuration. -/
def Obligations.ResetLeavesTheSpecifiedState : Prop :=
  ∀ c : Config,
    (State.resetWith c).status.toWord = 0 ∧ (State.resetWith c).size = 0 ∧ (State.resetWith c).stride = 0 ∧
      (State.resetWith c).ioff = 0 ∧ (State.resetWith c).ooff = 0 ∧ (State.resetWith c).result = 0 ∧
      (State.resetWith c).fcmd = 0 ∧ (State.resetWith c).readReg .paramN = some (BitVec.ofNat 32 (2 ^ c.n)) ∧
      (State.resetWith c).readReg .paramT = some (BitVec.ofNat 32 c.T) ∧
      (State.resetWith c).readReg .paramB = some (BitVec.ofNat 32 (2 ^ c.b)) ∧
      (State.resetWith c).readReg .cmd = none ∧ (∀ b i, (State.resetWith c).dp.mem.read b i = none) ∧
      (State.resetWith c).dp.seq = [] ∧ (State.resetWith c).dp.it = ⟨.idle, 0, 0, 0⟩ ∧
      (State.resetWith c).dp.work = .dead ∧ (State.resetWith c).dp.isIdle = true

/-! ### Numbers and the table (spec/40_twiddle.md) -/

/-- R84, R86: ADD and SUB of finite data are the exact sum and difference rounded once, ties to even; an exact zero is +0
but for the sum of two negative zeros. -/
def Obligations.AddAndSubAreCorrectlyRounded : Prop :=
  ∀ a b : Num64, R64.isFinite a = true → R64.isFinite b = true →
    R64.IsRounded (R64.value a + R64.value b) (R64.add a b) ∧
    R64.IsRounded (R64.value a - R64.value b) (R64.sub a b) ∧
    (R64.value a + R64.value b = 0 →
      R64.add a b = if R64.sign a && R64.sign b then 0x8000000000000000#64 else 0x0000000000000000#64) ∧
    (R64.value a - R64.value b = 0 →
      R64.sub a b = if R64.sign a && !R64.sign b then 0x8000000000000000#64 else 0x0000000000000000#64)

/-- R84, R86: MUL of finite data is the exact product rounded once, ties to even, with the product of the signs. -/
def Obligations.MulIsCorrectlyRounded : Prop :=
  ∀ a b : Num64, R64.isFinite a = true → R64.isFinite b = true →
    R64.IsRounded (R64.value a * R64.value b) (R64.mul a b) ∧ R64.sign (R64.mul a b) = (R64.sign a != R64.sign b)

/-- R85: DIVN of finite data is the exact quotient by N = 2^n rounded once, ties to even, with the sign of the operand. -/
def Obligations.DivnIsCorrectlyRounded : Prop :=
  ∀ (n : Nat) (a : Num64), R64.isFinite a = true →
    R64.IsRounded (R64.value a / 2 ^ n) (R64.divn n a) ∧ R64.sign (R64.divn n a) = R64.sign a

/-- R86: infinities and NaNs: invalid operations and operations on a NaN give a quiet NaN, whatever the free value of its
sign and payload; the other operations on infinities give an infinity. -/
def Obligations.InfinitiesAndNaNs : Prop :=
  (∀ a b : Num64, (R64.isNaN a = true ∨ R64.isNaN b = true) →
      R64.isQuietNaN (R64.add a b) = true ∧ R64.isQuietNaN (R64.sub a b) = true ∧ R64.isQuietNaN (R64.mul a b) = true) ∧
    (∀ (n : Nat) (a : Num64), R64.isNaN a = true → R64.isQuietNaN (R64.divn n a) = true) ∧
    (∀ (n : Nat) (x : Bool), R64.divn n (R64.inf x) = R64.inf x) ∧
    (∀ x : Bool, R64.add (R64.inf x) (R64.inf x) = R64.inf x ∧ R64.sub (R64.inf x) (R64.inf (!x)) = R64.inf x ∧
      R64.isQuietNaN (R64.add (R64.inf x) (R64.inf (!x))) = true ∧
      R64.isQuietNaN (R64.sub (R64.inf x) (R64.inf x)) = true) ∧
    (∀ (x : Bool) (a : Num64), R64.isFinite a = true →
      R64.add (R64.inf x) a = R64.inf x ∧ R64.add a (R64.inf x) = R64.inf x ∧ R64.sub (R64.inf x) a = R64.inf x ∧
      R64.sub a (R64.inf x) = R64.inf (!x) ∧
      (R64.value a = 0 → R64.isQuietNaN (R64.mul (R64.inf x) a) = true ∧ R64.isQuietNaN (R64.mul a (R64.inf x)) = true) ∧
      (R64.value a ≠ 0 → R64.mul (R64.inf x) a = R64.inf (x != R64.sign a) ∧
        R64.mul a (R64.inf x) = R64.inf (x != R64.sign a))) ∧
    (∀ x y : Bool, R64.mul (R64.inf x) (R64.inf y) = R64.inf (x != y))

/-- R92, R88, for N = 2, 4, 8, 16: every table entry is the binary64 datum nearest the exact cosine or sine. -/
def Obligations.TableEntriesAreNearest : Prop :=
  ∀ n k : Nat, 1 ≤ n → n ≤ 4 → k < 2 ^ n →
    R64.IsNearestEven (Real.cos (2 * Real.pi * k / 2 ^ n)) (R64.cosEntry n k) ∧
      R64.IsNearestEven (Real.sin (2 * Real.pi * k / 2 ^ n)) (R64.sinEntry n k)

/-- R91, R92, for every N: the exact entries, and the symmetries bit for bit (a zero is +0 on both sides). -/
def Obligations.TableSymmetries : Prop :=
  ∀ n k : Nat, 1 ≤ n → k < 2 ^ n →
    R64.cosEntry n 0 = 0x3FF0000000000000#64 ∧ R64.sinEntry n 0 = 0#64 ∧
    R64.cosEntry n (2 ^ n / 2) = 0xBFF0000000000000#64 ∧ R64.sinEntry n (2 ^ n / 2) = 0#64 ∧
    (2 ≤ n → R64.cosEntry n (2 ^ n / 4) = 0#64 ∧ R64.sinEntry n (2 ^ n / 4) = 0x3FF0000000000000#64 ∧
      R64.cosEntry n (3 * (2 ^ n / 4)) = 0#64 ∧ R64.sinEntry n (3 * (2 ^ n / 4)) = 0xBFF0000000000000#64) ∧
    (0 < k → R64.cosEntry n (2 ^ n - k) = R64.cosEntry n k ∧
      R64.sinEntry n (2 ^ n - k) = (if R64.sinEntry n k = 0#64 then 0#64 else R64.neg (R64.sinEntry n k))) ∧
    (k < 2 ^ n / 2 →
      R64.cosEntry n (k + 2 ^ n / 2) = (if R64.cosEntry n k = 0#64 then 0#64 else R64.neg (R64.cosEntry n k)) ∧
      R64.sinEntry n (k + 2 ^ n / 2) = (if R64.sinEntry n k = 0#64 then 0#64 else R64.neg (R64.sinEntry n k)))

/-- R88: RND gives, for every real number, the nearest datum, ties to even, and past the largest finite number the infinity
(the latter by log entry 10); a zero is +0, so RND(0) = +0. -/
def Obligations.RndRoundsToNearest : Prop :=
  ∀ x : ℝ, R64.IsRounded x (r64.RND x) ∧ r64.RND x ≠ 0x8000000000000000#64

/-- R92 for N = 2, 4, 8, 16: the table image of R64 is RND of the exact cosines and sines. -/
def Obligations.TableImageIsRnd : Prop := ∀ n : Nat, 1 ≤ n → n ≤ 4 → r64.ImageIsRnd n

/-- R95, R96 in REAL: TWMUL multiplies by the twiddle factor W(p) = e^(−2πi·p/N). -/
def Obligations.TwmulRotatesExactly : Prop :=
  ∀ (c : Config) (m : Memory ℝ) (x : ℂ) (p : Nat), TableIs realNum c m → p < c.N →
    ∃ tr ti : ℝ, twmul realNum c m x.re x.im p = .ok (tr, ti) ∧
      (tr : ℂ) + (ti : ℂ) * Complex.I =
        x * Complex.exp (-(2 * (Real.pi : ℂ) * Complex.I * (p : ℂ) / ((c.N : ℕ) : ℂ)))

/-- R93, R92: INIT fills both twiddle banks, sets TVALID and DONE, and changes nothing else. -/
def Obligations.InitFillsTheTable : Prop :=
  ∀ s : State, Ready s → s.status.tvalid = false →
    ∃ m : Memory Num64,
      exec .init s = .next
        { completedState s { s.dp with mem := m, it := LoopRegs.idle } with
          status := { s.status with tvalid := true, done := true } } ∧
      TableIs r64 s.cfg m ∧
      (∀ b i, ¬((b = .twCos ∨ b = .twSin) ∧ i < s.cfg.N) → m.read b i = s.dp.mem.read b i)

/-- R92, R93 in any NUM whose table image is RND of the exact values: INIT completes, and TW_COS[k] = RND(cos(2πk/N)),
TW_SIN[k] = RND(sin(2πk/N)). -/
def Obligations.InitStoresRndOfTheTable : Prop :=
  ∀ (α : Type) (w : Nat) (num : Num α w) (s : State α w), Ready s → s.status.tvalid = false →
    num.ImageIsRnd s.cfg.n →
    ∃ m : Memory α,
      execIn num .init s = .next
        { completedState s { s.dp with mem := m, it := LoopRegs.idle } with
          status := { s.status with tvalid := true, done := true } } ∧
      (∀ k, k < s.cfg.N →
        m.read .twCos k = some (num.RND (Real.cos (2 * Real.pi * k / s.cfg.N))) ∧
          m.read .twSin k = some (num.RND (Real.sin (2 * Real.pi * k / s.cfg.N)))) ∧
      (∀ b i, ¬((b = .twCos ∨ b = .twSin) ∧ i < s.cfg.N) → m.read b i = s.dp.mem.read b i)

/-! ### NUM as the argument of the machine (spec/00_scope.md R10, spec/40_twiddle.md R83) -/

/-- R84, R87, R11: the machine is the engine of any NUM at the reference instance R64, whose ENC and DEC are the identity on
64-bit patterns. -/
def Obligations.MachineIsTheInstanceR64 : Prop :=
  (∀ (i : Instr) (s : State), exec i s = execIn R64.num i s) ∧ (∀ s : State, step s = stepIn R64.num s) ∧
    R64.num.numW = 64 ∧ ∀ v : Num64, R64.num.busOut v = v ∧ R64.num.busIn v = v

/-- R46, R83 in any NUM: a bank word passes the bus encoded: a host write stores DEC(wdata[NUM_W−1:0]) at that word alone, a
host read gives zext(ENC(word)), and DEC takes back what ENC gave. Regions 1 to 4 are written, 1 to 6 read. -/
def Obligations.BankWordsPassTheBusEncoded : Prop :=
  ∀ (α : Type) (w : Nat) (num : Num α w) (s : State α w) (region i : Nat) (b : BankId) (d : BitVec w)
    (rest : List (RequestOf w)), s.dp.isIdle = true → i < s.cfg.N → s.cfg.wellFormed = true →
    (region = 1 ∧ b = .inRe ∨ region = 2 ∧ b = .inIm ∨ region = 3 ∧ b = .outRe ∨ region = 4 ∧ b = .outIm ∨
      region = 5 ∧ b = .twCos ∨ region = 6 ∧ b = .twSin) →
    (region ≤ 4 → s.bus.pending = ⟨.wr, BitVec.ofNat 35 (region * 2 ^ 32 + i), d⟩ :: rest →
      ∃ t, stepIn num s = .next t ∧
        (∀ b' j, t.dp.mem.read b' j =
          if b' = b ∧ j = i then some (num.dec (d.setWidth num.numW)) else s.dp.mem.read b' j) ∧
        t = { s with dp := { s.dp with mem := t.dp.mem }, bus := ⟨rest, .okay :: s.bus.responses⟩ }) ∧
      (s.bus.pending = ⟨.rd, BitVec.ofNat 35 (region * 2 ^ 32 + i), d⟩ :: rest →
        ∀ v, s.dp.mem.read b i = some v →
          stepIn num s = .next { s with bus := ⟨rest, .okayData ((num.enc v).setWidth w) :: s.bus.responses⟩ }) ∧
      ∀ a : α, num.dec (((num.enc a).setWidth w).setWidth num.numW) = a

/-! ### The direct transform (spec/41_dft.md) -/

/-- R102, R104, R105: an accepted DFT completes, and bin k is DIVN of the sum of the rotated samples in ascending order,
sample s rotated by phase index (s·k·(N div size)) mod N. -/
def Obligations.DftComputesEveryBin : Prop :=
  ∀ (s : State) (co si xr xi : Nat → Num64), Ready s → s.status.tvalid = true → OperandsFit s.cfg s.operands →
    TableValues s.cfg s.dp.mem co si →
    ViewValues s.dp.mem s.ioff.toNat s.stride.toNat s.size.toNat xr xi →
    ∃ m : Memory Num64, exec .dft s = .next (completedState s { s.dp with mem := m, work := .dead }) ∧
      RunValues m s.ooff.toNat s.size.toNat
        (fun k => R64.divn s.cfg.n (binSum r64 s.size.toNat fun i =>
          rotRe r64 co si (xr i) (xi i) (i * k * (s.cfg.N / s.size.toNat) % s.cfg.N)))
        (fun k => R64.divn s.cfg.n (binSum r64 s.size.toNat fun i =>
          rotIm r64 co si (xr i) (xi i) (i * k * (s.cfg.N / s.size.toNat) % s.cfg.N)))

/-- R100, R108 in REAL: after a DFT the output run holds exactly the direct transform of the view. -/
def Obligations.DftIsTheDirectTransform : Prop :=
  ∀ (c : Config) (o : Operands) (d : Datapath ℝ) (x : ℕ → ℂ), c.wellFormed = true → OperandsFit c o → d.seq = [] →
    TableIs realNum c d.mem → ViewHolds d.mem o.ioff o.stride o.size x →
    ∃ e, runDft realNum c o d = .ok e ∧ RunHolds e.mem o.ooff o.size (directTransform c.N o.size x)

/-! ### The butterfly pass (spec/42_butterfly.md) -/

/-- R111, R113, R115, R116: an accepted BPASS completes; pair (i, i + half) becomes sum and difference of the lower word and
the upper word rotated by phase index i·(N div size). -/
def Obligations.BpassCombinesEveryPair : Prop :=
  ∀ (s : State) (co si yr yi : Nat → Num64), Ready s → s.status.tvalid = true → PowerOfTwo s.size.toNat →
    2 ≤ s.size.toNat → s.size.toNat ≤ s.cfg.N → s.ooff.toNat + s.size.toNat ≤ s.cfg.N →
    TableValues s.cfg s.dp.mem co si → RunValues s.dp.mem s.ooff.toNat s.size.toNat yr yi →
    ∃ m : Memory Num64, exec .bpass s = .next (completedState s { s.dp with mem := m, work := .dead }) ∧
      (∀ i, i < s.size.toNat / 2 →
        let half := s.size.toNat / 2
        let rr := rotRe r64 co si (yr (i + half)) (yi (i + half)) (i * (s.cfg.N / s.size.toNat))
        let ri := rotIm r64 co si (yr (i + half)) (yi (i + half)) (i * (s.cfg.N / s.size.toNat))
        m.read .outRe (s.ooff.toNat + i) = some (R64.add (yr i) rr) ∧
        m.read .outIm (s.ooff.toNat + i) = some (R64.add (yi i) ri) ∧
        m.read .outRe (s.ooff.toNat + i + half) = some (R64.sub (yr i) rr) ∧
        m.read .outIm (s.ooff.toNat + i + half) = some (R64.sub (yi i) ri))

/-- R118, in any number system: the butterflies of a pass, done in any order, leave the same banks. -/
def Obligations.ButterflyOrderIsImmaterial : Prop :=
  ∀ (α : Type) (ns : NumSys α) (c : Config) (ooff size : Nat) (d e : Datapath α) (order : List Nat),
    d.mem.wf c.N = true → order.Perm (List.range (size / 2)) → bpassTask ns c ooff size d = .ok e →
    ∃ e', order.foldlM (fun x i => bpassStep ns c ooff size i x) d = .ok e' ∧ e'.mem = e.mem

/-! ### The recursive transform (spec/43_fft_recursive.md) -/

/-- R129, in any number system: the task stack and the recursive function give the same result (also where a read of a word
without a value stops them). -/
def Obligations.TaskStackEqualsRecursion : Prop :=
  ∀ (α : Type) (ns : NumSys α) (c : Config) (o : Operands) (d : Datapath α), c.wellFormed = true → OperandsFit c o →
    2 ≤ o.size → d.seq = [] →
    runFft1 ns c o d = fft1Rec ns c o.size.log2 o.ioff o.ooff o.size o.stride d

/-- R122, R126, R129: an accepted FFT1 completes with the result of the recursive function. -/
def Obligations.Fft1Completes : Prop :=
  ∀ (s : State) (co si xr xi : Nat → Num64), Ready s → s.status.tvalid = true → OperandsFit s.cfg s.operands →
    2 ≤ s.size.toNat → TableValues s.cfg s.dp.mem co si →
    ViewValues s.dp.mem s.ioff.toNat s.stride.toNat s.size.toNat xr xi →
    ∃ d, fft1Rec r64 s.cfg s.size.toNat.log2 s.ioff.toNat s.ooff.toNat s.size.toNat s.stride.toNat s.dp = .ok d ∧
      exec .fft1 s = .next (completedState s d)

/-- R130 in REAL: after an FFT1 the output run holds exactly the direct transform of the view, for every threshold T. -/
def Obligations.Fft1IsTheDirectTransform : Prop :=
  ∀ (c : Config) (o : Operands) (d : Datapath ℝ) (x : ℕ → ℂ), c.wellFormed = true → OperandsFit c o → 2 ≤ o.size →
    d.seq = [] → TableIs realNum c d.mem → ViewHolds d.mem o.ioff o.stride o.size x →
    ∃ e, runFft1 realNum c o d = .ok e ∧ RunHolds e.mem o.ooff o.size (directTransform c.N o.size x)

/-! ### Bit reversal (spec/44_bitreverse.md) -/

/-- R132, R133, R134: BREVNET reverses the m bits of the index, is its own inverse, and places even and odd indices in the
lower and upper half. -/
def Obligations.BrevnetReversesBits : Prop :=
  ∀ m i : Nat, i < 2 ^ m →
    ∃ r, brevnet i (2 ^ m) = .ok r ∧ r < 2 ^ m ∧ (∀ q, q < m → r.testBit q = i.testBit (m - 1 - q)) ∧
      brevnet r (2 ^ m) = .ok i ∧ brevnet (2 * i) (2 * 2 ^ m) = .ok r ∧ brevnet (2 * i + 1) (2 * 2 ^ m) = .ok (2 ^ m + r)

/-- R107, R136 (U2, U4): DFTBIN and BREVNET are refused outside their domains: DFTBIN where R105 (2) to (4) fails for its
view, or k is not below size (R101). -/
def Obligations.UnitsAreRefusedOutsideTheirDomain : Prop :=
  (∀ i max : Nat, (¬PowerOfTwo max ∨ max ≤ i) → brevnet i max = .error (.refuse .brevnetDomain)) ∧
    (∀ (α : Type) (ns : NumSys α) (c : Config) (m : Memory α) (ioff size stride k : Nat),
      (¬PowerOfTwo size ∨ c.N < size ∨ c.N < stride * size ∨ c.N - 1 < ioff + (size - 1) * stride ∨ size ≤ k) →
        dftbin ns c m ioff size stride k = .error (.refuse .dftbinDomain))

/-- R137, R132: an accepted BREV completes; bit q of RESULT is bit m − 1 − q of IOFF for SIZE = 2^m, the bits from m on are
0, and nothing else changes. -/
def Obligations.BrevWritesTheReversedIndex : Prop :=
  ∀ (s : State) (m : Nat), Ready s → s.size.toNat = 2 ^ m → s.ioff.toNat < 2 ^ m →
    ∃ r : Word, (∀ q, r.getLsbD q = (decide (q < m) && s.ioff.getLsbD (m - 1 - q))) ∧
      exec .brev s = .next { completedState s { s.dp with work := .dead } with result := r }

/-! ### The iterative transform (spec/45_fft_iterative.md) -/

/-- R144, in any number system: the loop controller and the nested loops of R142 give the same result. -/
def Obligations.LoopControllerEqualsLoops : Prop :=
  ∀ (α : Type) (ns : NumSys α) (c : Config) (d : Datapath α), c.wellFormed = true → d.seq = [] →
    runFft2 ns c d = (do
      let e ← fft2Loops ns c { d with it := ⟨.scatter, 0, 0, 0⟩ }
      .ok { e with it := LoopRegs.idle, work := .dead })

/-- R142, R148: an accepted FFT2 completes with the result of the nested loops. -/
def Obligations.Fft2Completes : Prop :=
  ∀ (s : State) (co si xr xi : Nat → Num64), Ready s → s.status.tvalid = true → s.size.toNat = s.cfg.N →
    TableValues s.cfg s.dp.mem co si → ViewValues s.dp.mem 0 1 s.cfg.N xr xi →
    ∃ d, fft2Loops r64 s.cfg s.dp = .ok d ∧ exec .fft2 s = .next (completedState s { d with it := LoopRegs.idle })

/-- R150(a) in REAL: after an FFT2 the output banks hold exactly the direct transform of the whole input. -/
def Obligations.Fft2IsTheDirectTransform : Prop :=
  ∀ (c : Config) (d : Datapath ℝ) (x : ℕ → ℂ), c.wellFormed = true → d.seq = [] → TableIs realNum c d.mem →
    ViewHolds d.mem 0 1 c.N x →
    ∃ e, runFft2 realNum c d = .ok e ∧ RunHolds e.mem 0 c.N (directTransform c.N c.N x)

/-- R150(b), in any number system: where the leaves of FFT1 have size B, FFT1 on the whole input and FFT2 leave the same
banks, bit for bit. -/
def Obligations.Fft1AndFft2AgreeBitForBit : Prop :=
  ∀ (α : Type) (ns : NumSys α) (c : Config) (d e : Datapath α), c.wellFormed = true → d.seq = [] →
    d.mem.wf c.N = true → c.B ≤ c.N / 2 →
    ((c.B ≤ max c.T 1 ∧ max c.T 1 < 2 * c.B) ∨ (c.B = c.N / 2 ∧ c.B ≤ c.T)) →
    runFft1 ns c ⟨c.N, 1, 0, 0⟩ d = .ok e → ∃ e', runFft2 ns c d = .ok e' ∧ e'.mem = e.mem

/-- R149(a), in any number system: with B = N, FFT2 leaves the banks as the full-size direct transform does. -/
def Obligations.Fft2WithOneBlockIsTheDft : Prop :=
  ∀ (α : Type) (ns : NumSys α) (c : Config) (d e : Datapath α), c.wellFormed = true → d.seq = [] → c.b = c.n →
    runDft ns c ⟨c.N, 1, 0, 0⟩ d = .ok e → ∃ e', runFft2 ns c d = .ok e' ∧ e'.mem = e.mem

/-! ### Frames -/

/-- R24 to R27, R20, R177: no command changes an operand register, the parameters, or the host's list. -/
def Obligations.CommandsKeepOperandsAndParameters : Prop :=
  ∀ (i : Instr) (s t : State), exec i s = .next t →
    t.size = s.size ∧ t.stride = s.stride ∧ t.ioff = s.ioff ∧ t.ooff = s.ooff ∧ t.cfg = s.cfg ∧
      t.bus.pending = s.bus.pending

/-- R28, R29, R31, R32, R45: RESULT is written only by BREV, FCMD only by fault entry, the input banks by no command, the
twiddle banks only by INIT, TVALID only by INIT. -/
def Obligations.OnlyTheNamedCommandsWriteEachState : Prop :=
  ∀ (i : Instr) (s t : State), exec i s = .next t →
    (i ≠ .brev → t.result = s.result) ∧
    (t.status.err = false → t.fcmd = s.fcmd ∧ t.status.cause = s.status.cause) ∧
    (∀ k, t.dp.mem.read .inRe k = s.dp.mem.read .inRe k ∧ t.dp.mem.read .inIm k = s.dp.mem.read .inIm k) ∧
    (i ≠ .init → t.status.tvalid = s.status.tvalid ∧
      ∀ k, t.dp.mem.read .twCos k = s.dp.mem.read .twCos k ∧ t.dp.mem.read .twSin k = s.dp.mem.read .twSin k)

/-- R56, R64, R69, R106(e): DFT, FFT1 and BPASS, when they complete, change no word outside the output run and no register
but STATUS.DONE. -/
def Obligations.TransformsWriteOnlyTheirRun : Prop :=
  ∀ (i : Instr) (s t : State), i = .dft ∨ i = .fft1 ∨ i = .bpass → exec i s = .next t → t.status.err = false →
    OnlyDoneAndDatapath s t ∧ t.status.done = true ∧
      t.dp.seq = [] ∧ t.dp.it = s.dp.it ∧ SameOutsideRun s.ooff.toNat s.size.toNat s.dp.mem t.dp.mem

/-- R69, R94, R137, R142: FFT2, INIT and BREV, when they complete: FFT2 changes no word but those of the output banks; INIT
no word but those of the twiddle banks; BREV no word at all; each no register but those named. SEQ is empty and IT idle. -/
def Obligations.FrameOfFft2InitAndBrev : Prop :=
  ∀ s t : State,
    (exec .fft2 s = .next t → t.status.err = false →
      OnlyDoneAndDatapath s t ∧ t.status.done = true ∧ t.dp.seq = [] ∧ t.dp.it = LoopRegs.idle ∧
        SameOutsideRun 0 s.cfg.N s.dp.mem t.dp.mem) ∧
    (exec .init s = .next t → t.status.err = false →
      t.cfg = s.cfg ∧ t.status = { s.status with tvalid := true, done := true } ∧ t.size = s.size ∧
        t.stride = s.stride ∧ t.ioff = s.ioff ∧ t.ooff = s.ooff ∧ t.result = s.result ∧ t.fcmd = s.fcmd ∧
        t.bus.pending = s.bus.pending ∧ t.dp.seq = [] ∧ t.dp.it = LoopRegs.idle ∧ ∀ b k, ¬((b = .twCos ∨ b = .twSin) ∧ k < s.cfg.N) → t.dp.mem.read b k = s.dp.mem.read b k) ∧
    (exec .brev s = .next t → t.status.err = false →
      t = { s with result := t.result, status := { s.status with done := true },
                   dp := { s.dp with work := .dead },
                   bus := { s.bus with responses := .okay :: s.bus.responses } })

/-- R160, R161: a command that ends with ERR newly set has changed STATUS and FCMD and nothing else. -/
def Obligations.FaultsHaveNoPartialEffect : Prop :=
  ∀ (i : Instr) (s t : State), s.status.err = false → exec i s = .next t → t.status.err = true →
    t = faultedState t.status.cause (encode i) s

/-- R69: operand registers a command does not read have no influence on it: INIT reads none, FFT2 only SIZE, BPASS SIZE and
OOFF, BREV SIZE and IOFF. That words which are NaN agree bit for bit between the two runs is the model's choice (log entry 3:
DEDUCED; R188 makes them equal only as a NaN). -/
def Obligations.IgnoredOperandsHaveNoInfluence : Prop :=
  ∀ (s t : State) (a b c d : Word),
    (exec .init s = .next t →
      exec .init { s with size := a, stride := b, ioff := c, ooff := d } =
        .next { t with size := a, stride := b, ioff := c, ooff := d }) ∧
    (exec .fft2 s = .next t →
      exec .fft2 { s with stride := b, ioff := c, ooff := d } = .next { t with stride := b, ioff := c, ooff := d }) ∧
    (exec .bpass s = .next t →
      exec .bpass { s with stride := b, ioff := c } = .next { t with stride := b, ioff := c }) ∧
    (exec .brev s = .next t →
      exec .brev { s with stride := b, ooff := d } = .next { t with stride := b, ooff := d })

/-- R180: DFT, FFT1 and FFT2 are idempotent: the same command issued again completes and leaves the same banks. That words
which are NaN agree bit for bit is the model's choice (log entry 3: DEDUCED; R188 makes them equal only as a NaN). -/
def Obligations.TransformsAreIdempotent : Prop :=
  ∀ (i : Instr) (s t : State), i = .dft ∨ i = .fft1 ∨ i = .fft2 → s.cfg.wellFormed = true →
    s.dp.mem.wf s.cfg.N = true → exec i s = .next t → t.status.err = false →
    ∃ u, exec i t = .next u ∧ u.status.err = false ∧ u.status.done = true ∧ u.dp.mem = t.dp.mem

/-! ### The whole machine -/

/-- The invariant holds after reset, for every configuration that meets its constraints. -/
def Obligations.ResetMeetsTheInvariant : Prop :=
  (∀ c : Config, c.wellFormed = true → Inv (State.resetWith c)) ∧ Inv State.reset

/-- Every step keeps the invariant: the engine is idle again after every transaction (R52), the banks stay canonical and
within N words, CAUSE and FCMD are 0 while ERR = 0 (R23, R29), and the twiddle banks hold the table exactly while TVALID = 1
(R92). -/
def Obligations.StepKeepsTheInvariant : Prop :=
  ∀ s t : State, Inv s → step s = .next t → Inv t

/-- The same in any NUM (R10, R83): every step of its engine keeps the invariant, with the table image of that NUM. -/
def Obligations.StepInKeepsTheInvariant : Prop :=
  ∀ (α : Type) (w : Nat) (num : Num α w) (s t : State α w),
    InvIn num.toNumSys s → stepIn num s = .next t → InvIn num.toNumSys t

/-- The thirteen values of STATUS the host can observe (spec/95_test_vectors.md section 3). -/
def Obligations.StatusTakesThirteenValues : Prop :=
  ∀ s : State, Inv s →
    s.status.toWord.toNat ∈
      [0x00, 0x04, 0x05, 0x12, 0x13, 0x22, 0x33, 0x42, 0x43, 0x53, 0x63, 0x72, 0x73]

/-- R52, R56, R126, R127, R152, R187: from every state that meets the invariant a step answers a next state, or is refused
because it reads a word that holds no value before the step; it never overflows the task stack, reads or writes past a bank, or fails to
end. -/
def Obligations.EveryTransactionEnds : Prop :=
  ∀ s : State, Inv s → (∃ t, step s = .next t) ∨
    (∃ b i, s.dp.mem.read b i = none ∧ step s = .refused (.noValue b i))
end

