-- ==== Sys2Proof/Laws/State.lean ====
section
/-! SUPPORT. One lemma per field per update of the state, so that no proof unfolds an update; the laws of results that
can stop. -/

namespace Sys2Proof.Machine

/-! ### Results -/

/-- What a sequence of two operations that ends well went through. -/
theorem Res.bind_ok_iff {β γ : Type} {x : Res β} {f : β → Res γ} {r : γ} :
    (x >>= f) = .ok r ↔ ∃ a, x = .ok a ∧ f a = .ok r := by
  cases x with
  | error e => constructor <;> simp [bind, Except.bind]
  | ok a => simp [bind, Except.bind]

/-- What a sequence of two operations that stops went through. -/
theorem Res.bind_error_iff {β γ : Type} {x : Res β} {f : β → Res γ} {e : Stop} :
    (x >>= f) = .error e ↔ x = .error e ∨ ∃ a, x = .ok a ∧ f a = .error e := by
  cases x with
  | error e' => simp [bind, Except.bind]
  | ok a => simp [bind, Except.bind]

@[simp] theorem Res.ok_bind {β γ : Type} (a : β) (f : β → Res γ) : ((Except.ok a : Res β) >>= f) = f a := rfl

@[simp] theorem Res.error_bind {β γ : Type} (e : Stop) (f : β → Res γ) :
    ((Except.error e : Res β) >>= f) = .error e := rfl

/-- A result is the outcome `next` exactly if it ended well. -/
theorem Res.outcome_next_iff {σ : Type} {r : Res σ} {t : σ} : Res.outcome r = .next t ↔ r = .ok t := by
  match r with
  | .ok s => simp [Res.outcome]
  | .error (.fault f) => simp [Res.outcome]
  | .error (.refuse f) => simp [Res.outcome]

theorem Res.outcome_fault_iff {σ : Type} {r : Res σ} {f : Fault} : Res.outcome r = .fault f ↔ r = .error (.fault f) := by
  match r with
  | .ok s => simp [Res.outcome]
  | .error (.fault g) => simp [Res.outcome]
  | .error (.refuse g) => simp [Res.outcome]

theorem Res.outcome_refused_iff {σ : Type} {r : Res σ} {f : Refusal} :
    Res.outcome r = .refused f ↔ r = .error (.refuse f) := by
  match r with
  | .ok s => simp [Res.outcome]
  | .error (.fault g) => simp [Res.outcome]
  | .error (.refuse g) => simp [Res.outcome]

/-! ### respond -/

variable {α : Type} {n : Nat}

@[simp] theorem respond_cfg (r : ResponseOf n) (s : State α n) : (s.respond r).cfg = s.cfg := rfl
@[simp] theorem respond_status (r : ResponseOf n) (s : State α n) : (s.respond r).status = s.status := rfl
@[simp] theorem respond_size (r : ResponseOf n) (s : State α n) : (s.respond r).size = s.size := rfl
@[simp] theorem respond_stride (r : ResponseOf n) (s : State α n) : (s.respond r).stride = s.stride := rfl
@[simp] theorem respond_ioff (r : ResponseOf n) (s : State α n) : (s.respond r).ioff = s.ioff := rfl
@[simp] theorem respond_ooff (r : ResponseOf n) (s : State α n) : (s.respond r).ooff = s.ooff := rfl
@[simp] theorem respond_result (r : ResponseOf n) (s : State α n) : (s.respond r).result = s.result := rfl
@[simp] theorem respond_fcmd (r : ResponseOf n) (s : State α n) : (s.respond r).fcmd = s.fcmd := rfl
@[simp] theorem respond_dp (r : ResponseOf n) (s : State α n) : (s.respond r).dp = s.dp := rfl
@[simp] theorem respond_pending (r : ResponseOf n) (s : State α n) : (s.respond r).bus.pending = s.bus.pending := rfl
@[simp] theorem respond_responses (r : ResponseOf n) (s : State α n) :
    (s.respond r).bus.responses = r :: s.bus.responses := rfl

/-! ### Fault entry -/

@[simp] theorem takeFault_cfg (c : Cause) (w : Word) (s : State α n) : (takeFault c w s).cfg = s.cfg := rfl
@[simp] theorem takeFault_status (c : Cause) (w : Word) (s : State α n) :
    (takeFault c w s).status = s.status.recordFault c := rfl
@[simp] theorem takeFault_size (c : Cause) (w : Word) (s : State α n) : (takeFault c w s).size = s.size := rfl
@[simp] theorem takeFault_stride (c : Cause) (w : Word) (s : State α n) : (takeFault c w s).stride = s.stride := rfl
@[simp] theorem takeFault_ioff (c : Cause) (w : Word) (s : State α n) : (takeFault c w s).ioff = s.ioff := rfl
@[simp] theorem takeFault_ooff (c : Cause) (w : Word) (s : State α n) : (takeFault c w s).ooff = s.ooff := rfl
@[simp] theorem takeFault_result (c : Cause) (w : Word) (s : State α n) : (takeFault c w s).result = s.result := rfl
@[simp] theorem takeFault_fcmd (c : Cause) (w : Word) (s : State α n) : (takeFault c w s).fcmd = w := rfl
@[simp] theorem takeFault_dp (c : Cause) (w : Word) (s : State α n) : (takeFault c w s).dp = s.dp := rfl
@[simp] theorem takeFault_pending (c : Cause) (w : Word) (s : State α n) :
    (takeFault c w s).bus.pending = s.bus.pending := rfl
@[simp] theorem takeFault_responses (c : Cause) (w : Word) (s : State α n) :
    (takeFault c w s).bus.responses = .okay :: s.bus.responses := rfl

/-! ### Completion -/

@[simp] theorem complete_cfg (s : State α n) : (complete s).cfg = s.cfg := rfl
@[simp] theorem complete_status (s : State α n) : (complete s).status = s.status.setDone := rfl
@[simp] theorem complete_size (s : State α n) : (complete s).size = s.size := rfl
@[simp] theorem complete_stride (s : State α n) : (complete s).stride = s.stride := rfl
@[simp] theorem complete_ioff (s : State α n) : (complete s).ioff = s.ioff := rfl
@[simp] theorem complete_ooff (s : State α n) : (complete s).ooff = s.ooff := rfl
@[simp] theorem complete_result (s : State α n) : (complete s).result = s.result := rfl
@[simp] theorem complete_fcmd (s : State α n) : (complete s).fcmd = s.fcmd := rfl
@[simp] theorem complete_dp (s : State α n) : (complete s).dp = s.dp := rfl
@[simp] theorem complete_pending (s : State α n) : (complete s).bus.pending = s.bus.pending := rfl
@[simp] theorem complete_responses (s : State α n) : (complete s).bus.responses = .okay :: s.bus.responses := rfl

/-! ### STATUS -/

@[simp] theorem clearDone_tvalid (f : Status) : f.clearDone.tvalid = f.tvalid := rfl
@[simp] theorem clearDone_err (f : Status) : f.clearDone.err = f.err := rfl
@[simp] theorem clearDone_done (f : Status) : f.clearDone.done = false := rfl
@[simp] theorem clearDone_cause (f : Status) : f.clearDone.cause = f.cause := rfl
@[simp] theorem setDone_tvalid (f : Status) : f.setDone.tvalid = f.tvalid := rfl
@[simp] theorem setDone_err (f : Status) : f.setDone.err = f.err := rfl
@[simp] theorem setDone_done (f : Status) : f.setDone.done = true := rfl
@[simp] theorem setDone_cause (f : Status) : f.setDone.cause = f.cause := rfl
@[simp] theorem setTvalid_tvalid (f : Status) : f.setTvalid.tvalid = true := rfl
@[simp] theorem setTvalid_err (f : Status) : f.setTvalid.err = f.err := rfl
@[simp] theorem setTvalid_done (f : Status) : f.setTvalid.done = f.done := rfl
@[simp] theorem setTvalid_cause (f : Status) : f.setTvalid.cause = f.cause := rfl
@[simp] theorem recordFault_tvalid (f : Status) (c : Cause) : (f.recordFault c).tvalid = f.tvalid := rfl
@[simp] theorem recordFault_err (f : Status) (c : Cause) : (f.recordFault c).err = true := rfl
@[simp] theorem recordFault_done (f : Status) (c : Cause) : (f.recordFault c).done = f.done := rfl
@[simp] theorem recordFault_cause (f : Status) (c : Cause) : (f.recordFault c).cause = c := rfl

/-! ### The datapath -/

@[simp] theorem endTask_mem {α : Type} (d : Datapath α) : d.endTask.mem = d.mem := rfl
@[simp] theorem endTask_seq {α : Type} (d : Datapath α) : d.endTask.seq = d.seq := rfl
@[simp] theorem endTask_it {α : Type} (d : Datapath α) : d.endTask.it = d.it := rfl
@[simp] theorem endTask_work {α : Type} (d : Datapath α) : d.endTask.work = .dead := rfl

/-- What a push that ends well did. -/
theorem push_ok_iff {α : Type} {c : Config} {t : Task} {d e : Datapath α} :
    d.push c t = .ok e ↔ d.seq.length < c.stackDepth ∧ e = { d with seq := t :: d.seq } := by
  unfold Datapath.push
  split <;> simp_all [eq_comm]

/-- The engine is idle exactly if SEQ is empty and IT.phase = IDLE (R34). -/
theorem isIdle_iff {α : Type} {d : Datapath α} : d.isIdle = true ↔ d.seq = [] ∧ d.it.phase = .idle := by
  simp [Datapath.isIdle]

/-- What running a piece of execution on the datapath of a state did. -/
theorem onDatapath_ok_iff {f : Datapath α → Res (Datapath α)} {s t : State α n} :
    s.onDatapath f = .ok t ↔ ∃ d, f s.dp = .ok d ∧ t = { s with dp := d } := by
  unfold State.onDatapath
  rw [Res.bind_ok_iff]
  simp [eq_comm]

end Sys2Proof.Machine
end

