-- ==== Sys2Proof/Laws/Memory.lean ====
section
/-! SUPPORT. The laws of the banks: read after write, the canonical form, and what a read or write of the engine does. -/

namespace Sys2Proof.Machine

variable {α : Type}

/-! ### One bank -/

/-- A read after a write: the value written at its index, and every other word as before. -/
theorem Bank.read_write (b : Bank α) (i j : Nat) (v : α) :
    Bank.read (Bank.write b i v) j = if j = i then some v else Bank.read b j := by
  induction b with
  | nil => simp [Bank.write, Bank.read]
  | cons x rest ih =>
    obtain ⟨k, w⟩ := x
    simp only [Bank.write]
    split
    · simp [Bank.read]
    · split
      · subst_vars
        simp only [Bank.read]
        split <;> simp_all
      · simp only [Bank.read, ih]
        split <;> split <;> simp_all

/-- A write keeps the canonical form (from `lo` on, below N). -/
theorem Bank.wfFrom_write {N lo i : Nat} {b : Bank α} (v : α) (hb : Bank.wfFrom N lo b = true) (hlo : lo ≤ i)
    (hi : i < N) : Bank.wfFrom N lo (Bank.write b i v) = true := by
  induction b generalizing lo with
  | nil => simp [Bank.write, Bank.wfFrom, hlo, hi]
  | cons x rest ih =>
    obtain ⟨k, w⟩ := x
    simp only [Bank.wfFrom, Bool.and_eq_true, decide_eq_true_eq] at hb
    simp only [Bank.write]
    split
    · simp [Bank.wfFrom, hlo, hi, hb]; omega
    · split
      · subst_vars; simp [Bank.wfFrom, hlo, hi, hb]
      · simp only [Bank.wfFrom, Bool.and_eq_true, decide_eq_true_eq]
        exact ⟨hb.1, ih hb.2 (by omega)⟩

/-- A word below the first index of a canonical bank holds no value. -/
theorem Bank.read_below {N lo i : Nat} {b : Bank α} (hb : Bank.wfFrom N lo b = true) (hi : i < lo) :
    Bank.read b i = none := by
  induction b generalizing lo with
  | nil => rfl
  | cons x rest ih =>
    obtain ⟨k, w⟩ := x
    simp only [Bank.wfFrom, Bool.and_eq_true, decide_eq_true_eq] at hb
    simp only [Bank.read]
    rw [if_neg (by omega)]
    exact ih hb.2 (by omega)

/-- No word at index N or above holds a value in a canonical bank. -/
theorem Bank.read_above {N lo i : Nat} {b : Bank α} (hb : Bank.wfFrom N lo b = true) (hi : N ≤ i) :
    Bank.read b i = none := by
  induction b generalizing lo with
  | nil => rfl
  | cons x rest ih =>
    obtain ⟨k, w⟩ := x
    simp only [Bank.wfFrom, Bool.and_eq_true, decide_eq_true_eq] at hb
    simp only [Bank.read]
    rw [if_neg (by omega)]
    exact ih hb.2

/-- Canonical banks with the same words are the same list. -/
theorem Bank.ext_of_wf {N lo : Nat} {b b' : Bank α} (hb : Bank.wfFrom N lo b = true)
    (hb' : Bank.wfFrom N lo b' = true) (h : ∀ i, Bank.read b i = Bank.read b' i) : b = b' := by
  induction b generalizing lo b' with
  | nil =>
    cases b' with
    | nil => rfl
    | cons y r => have := h y.1; simp [Bank.read] at this
  | cons x rest ih =>
    obtain ⟨k, w⟩ := x
    cases b' with
    | nil => have := h k; simp [Bank.read] at this
    | cons y rest' =>
      obtain ⟨k', w'⟩ := y
      simp only [Bank.wfFrom, Bool.and_eq_true, decide_eq_true_eq] at hb hb'
      have hkk : k = k' := by
        rcases Nat.lt_trichotomy k k' with hlt | heq | hgt
        · have := h k
          simp only [Bank.read, if_true, if_neg (show k ≠ k' by omega)] at this
          rw [Bank.read_below hb'.2 (by omega)] at this
          cases this
        · exact heq
        · have := h k'
          simp only [Bank.read, if_true, if_neg (show k' ≠ k by omega)] at this
          rw [Bank.read_below hb.2 (by omega)] at this
          cases this
      subst hkk
      have hw : w = w' := by have := h k; simpa [Bank.read] using this
      subst hw
      congr 1
      refine ih hb.2 hb'.2 fun i => ?_
      have := h i
      simp only [Bank.read] at this
      by_cases hi : i = k
      · subst hi
        rw [Bank.read_below hb.2 (by omega), Bank.read_below hb'.2 (by omega)]
      · simpa [hi] using this

/-! ### The six banks -/

@[simp] theorem bank_setBank_self (m : Memory α) (b : BankId) (x : Bank α) : (m.setBank b x).bank b = x := by
  cases b <;> rfl

theorem bank_setBank_of_ne (m : Memory α) {b b' : BankId} (x : Bank α) (h : b' ≠ b) :
    (m.setBank b x).bank b' = m.bank b' := by
  cases b <;> cases b' <;> first | rfl | exact absurd rfl h

/-- A read after a write of a memory. -/
theorem Memory.read_write (m : Memory α) (b b' : BankId) (i j : Nat) (v : α) :
    (m.write b i v).read b' j = if b' = b ∧ j = i then some v else m.read b' j := by
  unfold Memory.read Memory.write
  by_cases h : b' = b
  · subst h; simp [Bank.read_write]
  · simp [bank_setBank_of_ne m _ h, h]

@[simp] theorem Memory.read_write_self (m : Memory α) (b : BankId) (i : Nat) (v : α) :
    (m.write b i v).read b i = some v := by simp [Memory.read_write]

theorem Memory.read_write_of_bank_ne (m : Memory α) {b b' : BankId} (i j : Nat) (v : α) (h : b' ≠ b) :
    (m.write b i v).read b' j = m.read b' j := by simp [Memory.read_write, h]

theorem Memory.read_write_of_index_ne (m : Memory α) (b b' : BankId) {i j : Nat} (v : α) (h : j ≠ i) :
    (m.write b i v).read b' j = m.read b' j := by simp [Memory.read_write, h]

/-- The canonical form, bank by bank. -/
theorem Memory.wf_iff {N : Nat} {m : Memory α} : m.wf N = true ↔ ∀ b, Bank.wf N (m.bank b) = true := by
  constructor
  · intro h b
    simp only [Memory.wf, Bool.and_eq_true] at h
    cases b <;> simp_all [Memory.bank]
  · intro h
    have h1 := h .inRe; have h2 := h .inIm; have h3 := h .outRe
    have h4 := h .outIm; have h5 := h .twCos; have h6 := h .twSin
    simp_all [Memory.wf, Memory.bank]

/-- Banks in which no word holds a value are canonical. -/
theorem Memory.wf_empty (N : Nat) : (Memory.empty : Memory α).wf N = true := rfl

/-- A write below N keeps the canonical form. -/
theorem Memory.wf_write {N i : Nat} {m : Memory α} (b : BankId) (v : α) (hm : m.wf N = true) (hi : i < N) :
    (m.write b i v).wf N = true := by
  rw [Memory.wf_iff] at hm ⊢
  intro b'
  unfold Memory.write
  by_cases h : b' = b
  · subst h; simpa [Bank.wf] using Bank.wfFrom_write v (hm b') (Nat.zero_le i) hi
  · rw [bank_setBank_of_ne m _ h]; exact hm b'

/-- Canonical memories with the same words are the same data. -/
theorem Memory.ext_of_wf {N : Nat} {m m' : Memory α} (hm : m.wf N = true) (hm' : m'.wf N = true)
    (h : ∀ b i, m.read b i = m'.read b i) : m = m' := by
  rw [Memory.wf_iff] at hm hm'
  have hb : ∀ b, m.bank b = m'.bank b := fun b => Bank.ext_of_wf (hm b) (hm' b) (h b)
  have h1 := hb .inRe; have h2 := hb .inIm; have h3 := hb .outRe
  have h4 := hb .outIm; have h5 := hb .twCos; have h6 := hb .twSin
  cases m; cases m'; simp_all [Memory.bank]

/-! ### Accesses of the engine -/

/-- A read of the engine that ends well. -/
theorem load_ok_iff {c : Config} {m : Memory α} {b : BankId} {i : Nat} {v : α} :
    m.load c b i = .ok v ↔ i < c.N ∧ m.read b i = some v := by
  unfold Memory.load
  split
  · split <;> simp_all
  · simp_all

/-- A read of the engine that stops: outside the bank, or no value. -/
theorem load_error_iff {c : Config} {m : Memory α} {b : BankId} {i : Nat} {e : Stop} :
    m.load c b i = .error e ↔
      (c.N ≤ i ∧ e = .fault (.outOfBank b i)) ∨ (i < c.N ∧ m.read b i = none ∧ e = .refuse (.noValue b i)) := by
  unfold Memory.load
  by_cases hi : i < c.N
  · have hn : ¬ c.N ≤ i := by omega
    cases hr : m.read b i <;> simp [hi, hn, eq_comm]
  · have hn : c.N ≤ i := by omega
    simp [hi, hn, eq_comm]

/-- A write of the engine that ends well. -/
theorem store_ok_iff {c : Config} {m m' : Memory α} {b : BankId} {i : Nat} {v : α} :
    m.store c b i v = .ok m' ↔ i < c.N ∧ m' = m.write b i v := by
  unfold Memory.store
  split <;> simp_all [eq_comm]

/-- A write of the engine that stops: outside the bank. -/
theorem store_error_iff {c : Config} {m : Memory α} {b : BankId} {i : Nat} {v : α} {e : Stop} :
    m.store c b i v = .error e ↔ c.N ≤ i ∧ e = .fault (.outOfBank b i) := by
  unfold Memory.store
  by_cases hi : i < c.N
  · have hn : ¬ c.N ≤ i := by omega
    simp [hi, hn]
  · have hn : c.N ≤ i := by omega
    simp [hi, hn, eq_comm]

/-! ### Loops -/

/-- The rule of a loop that ends well: what holds before and is kept by each round holds after. -/
theorem forN_invariant {σ : Type} {f : Nat → σ → Res σ} (P : Nat → σ → Prop)
    (hstep : ∀ i x y, P i x → f i x = .ok y → P (i + 1) y) :
    ∀ {n : Nat} {x y : σ}, P 0 x → forN n f x = .ok y → P n y := by
  intro n
  induction n with
  | zero => intro x y h0 h; cases h; exact h0
  | succ n ih =>
    intro x y h0 h
    obtain ⟨z, hz, hy⟩ := Res.bind_ok_iff.mp h
    exact hstep n z y (ih h0 hz) hy

/-- The rule of a loop each of whose rounds ends well. -/
theorem forN_progress {σ : Type} {f : Nat → σ → Res σ} (P : Nat → σ → Prop) {n : Nat}
    (hstep : ∀ i x, i < n → P i x → ∃ y, f i x = .ok y ∧ P (i + 1) y) {x : σ} (h0 : P 0 x) :
    ∃ y, forN n f x = .ok y ∧ P n y := by
  induction n with
  | zero => exact ⟨x, rfl, h0⟩
  | succ n ih =>
    obtain ⟨z, hz, hP⟩ := ih (fun i x hi => hstep i x (Nat.lt_succ_of_lt hi))
    obtain ⟨y, hy, hQ⟩ := hstep n z (Nat.lt_succ_self n) hP
    exact ⟨y, by simp [forN, hz, hy], hQ⟩

/-- A loop that stops: some round, reached with what each round keeps, stops. -/
theorem forN_error {σ : Type} {f : Nat → σ → Res σ} (P : Nat → σ → Prop) {n : Nat}
    (hstep : ∀ i x y, i < n → P i x → f i x = .ok y → P (i + 1) y) {x : σ} (h0 : P 0 x) {e : Stop}
    (h : forN n f x = .error e) : ∃ i z, i < n ∧ P i z ∧ f i z = .error e := by
  induction n with
  | zero => cases h
  | succ n ih =>
    rcases Res.bind_error_iff.mp h with he | ⟨z, hz, hf⟩
    · obtain ⟨i, z, hi, hP, hf⟩ := ih (fun i x y hi => hstep i x y (Nat.lt_succ_of_lt hi)) he
      exact ⟨i, z, Nat.lt_succ_of_lt hi, hP, hf⟩
    · have hP : P n z := by
        have key : ∀ m, m ≤ n → ∀ y, forN m f x = .ok y → P m y := by
          intro m
          induction m with
          | zero => intro _ y hy; cases hy; exact h0
          | succ m ihm =>
            intro hm y hy
            obtain ⟨u, hu, hfu⟩ := Res.bind_ok_iff.mp hy
            exact hstep m u y (by omega) (ihm (by omega) u hu) hfu
        exact key n (Nat.le_refl n) z hz
      exact ⟨n, z, Nat.lt_succ_self n, hP, hf⟩

end Sys2Proof.Machine
end

