-- ==== Sys2Proof/Laws/Ops.lean ====
section
/-! SUPPORT. What the shared operations of the machine can do: one inversion lemma each for the issue procedure, a bus
transaction and a step, and the run rules of the sequencer and the loop controller. -/

namespace Sys2Proof.Machine

variable {α : Type} {n : Nat}

/-! ### The issue procedure -/

/-- Everything an issue that answers a next state can have done (R153): turned away in the fault state, faulted at its
checks, or run to completion. -/
theorem issue_next_iff {w : Word} {check : State α n → Option Cause} {run : State α n → Res (State α n)}
    {s t : State α n} :
    issue w check run s = .next t ↔
      s.dp.isIdle = true ∧
        ((s.status.err = true ∧ t = s.respond .error) ∨
          (s.status.err = false ∧ ∃ c, check { s with status := s.status.clearDone } = some c ∧
            t = takeFault c w { s with status := s.status.clearDone }) ∨
          (s.status.err = false ∧ check { s with status := s.status.clearDone } = none ∧
            ∃ u, run { s with status := s.status.clearDone } = .ok u ∧ t = complete u)) := by
  unfold issue
  cases hidle : s.dp.isIdle
  · simp
  · cases herr : s.status.err
    · cases hc : check { s with status := s.status.clearDone } with
      | some c => simp [hc, eq_comm]
      | none =>
        simp only [Bool.not_true, Bool.false_eq_true, if_false, hc, Res.outcome_next_iff, Res.bind_ok_iff]
        simp [eq_comm]
    · simp [eq_comm]

/-- An issue faults the model only where the execution of an accepted command does. -/
theorem issue_fault_iff {w : Word} {check : State α n → Option Cause} {run : State α n → Res (State α n)}
    {s : State α n} {f : Fault} :
    issue w check run s = .fault f ↔
      s.dp.isIdle = true ∧ s.status.err = false ∧ check { s with status := s.status.clearDone } = none ∧
        run { s with status := s.status.clearDone } = .error (.fault f) := by
  unfold issue
  cases hidle : s.dp.isIdle
  · simp
  · cases herr : s.status.err
    · cases hc : check { s with status := s.status.clearDone } with
      | some c => simp [hc]
      | none =>
        simp only [Bool.not_true, Bool.false_eq_true, if_false, hc, Res.outcome_fault_iff, Res.bind_error_iff]
        simp
    · simp

/-- An issue is refused only on a busy engine or where the execution of an accepted command is. -/
theorem issue_refused_iff {w : Word} {check : State α n → Option Cause} {run : State α n → Res (State α n)}
    {s : State α n} {r : Refusal} :
    issue w check run s = .refused r ↔
      (s.dp.isIdle = false ∧ r = .engineBusy) ∨
        (s.dp.isIdle = true ∧ s.status.err = false ∧ check { s with status := s.status.clearDone } = none ∧
          run { s with status := s.status.clearDone } = .error (.refuse r)) := by
  unfold issue
  cases hidle : s.dp.isIdle
  · simp [eq_comm (a := Refusal.engineBusy)]
  · cases herr : s.status.err
    · cases hc : check { s with status := s.status.clearDone } with
      | some c => simp [hc]
      | none =>
        simp only [Bool.not_true, Bool.false_eq_true, if_false, hc, Res.outcome_refused_iff, Res.bind_error_iff]
        simp
    · simp

/-- In any NUM every command is an issue of its own word (R153), with the checks and the execution its rule gives. -/
theorem execIn_init_eq (num : Num α n) (s : State α n) :
    execIn num .init s = issue 1#32 checkInit (fun t => do
      let u ← t.onDatapath (runInit num.toNumSys t.cfg)
      .ok { u with status := u.status.setTvalid }) s := rfl

theorem execIn_dft_eq (num : Num α n) (s : State α n) :
    execIn num .dft s = issue 2#32 checkDft (fun t => t.onDatapath (runDft num.toNumSys t.cfg t.operands)) s := rfl

theorem execIn_fft1_eq (num : Num α n) (s : State α n) :
    execIn num .fft1 s = issue 3#32 checkFft1 (fun t => t.onDatapath (runFft1 num.toNumSys t.cfg t.operands)) s := rfl

theorem execIn_fft2_eq (num : Num α n) (s : State α n) :
    execIn num .fft2 s = issue 4#32 checkFft2 (fun t => t.onDatapath (runFft2 num.toNumSys t.cfg)) s := rfl

theorem execIn_bpass_eq (num : Num α n) (s : State α n) :
    execIn num .bpass s = issue 5#32 checkBpass (fun t => t.onDatapath (runBpass num.toNumSys t.cfg t.operands)) s := rfl

theorem execIn_brev_eq (num : Num α n) (s : State α n) : execIn num .brev s = issue 6#32 checkBrev runBrev s := rfl

/-- The same in R64: every command is an issue of its own word (R153), with the checks and the execution its rule gives. -/
theorem exec_init_eq (s : State) :
    exec .init s = issue 1#32 checkInit (fun t => do
      let u ← t.onDatapath (runInit r64 t.cfg)
      .ok { u with status := u.status.setTvalid }) s := rfl

theorem exec_dft_eq (s : State) :
    exec .dft s = issue 2#32 checkDft (fun t => t.onDatapath (runDft r64 t.cfg t.operands)) s := rfl

theorem exec_fft1_eq (s : State) :
    exec .fft1 s = issue 3#32 checkFft1 (fun t => t.onDatapath (runFft1 r64 t.cfg t.operands)) s := rfl

theorem exec_fft2_eq (s : State) :
    exec .fft2 s = issue 4#32 checkFft2 (fun t => t.onDatapath (runFft2 r64 t.cfg)) s := rfl

theorem exec_bpass_eq (s : State) :
    exec .bpass s = issue 5#32 checkBpass (fun t => t.onDatapath (runBpass r64 t.cfg t.operands)) s := rfl

theorem exec_brev_eq (s : State) : exec .brev s = issue 6#32 checkBrev runBrev s := rfl

/-- `exec` is the commands of R64. -/
theorem exec_eq_execIn (i : Instr) (s : State) : exec i s = execIn R64.num i s := by cases i <;> rfl

/-- The step of the machine is the step of the engine of R64. -/
theorem step_eq_stepIn (s : State) : step s = stepIn R64.num s := by
  have h : exec = execIn R64.num := funext fun i => funext (exec_eq_execIn i)
  rw [step, stepIn, h]

/-- A command is an issue of its own word with some checks and some execution. -/
theorem exec_eq_issue (i : Instr) : ∃ check run, ∀ s, exec i s = issue (encode i) check run s := by
  cases i
  · exact ⟨_, _, exec_init_eq⟩
  · exact ⟨_, _, exec_dft_eq⟩
  · exact ⟨_, _, exec_fft1_eq⟩
  · exact ⟨_, _, exec_fft2_eq⟩
  · exact ⟨_, _, exec_bpass_eq⟩
  · exact ⟨_, _, exec_brev_eq⟩

/-! ### Transactions and steps -/

/-- What the host writes and reads back in a bank word, for any NUM (R46): DEC of the NUM_W bits of ENC. -/
theorem busIn_busOut (num : Num α n) (a : α) : num.busIn (num.busOut a) = a := by
  have h : num.numW ≤ n := by have := num.dataW; omega
  rw [Num.busIn, Num.busOut, BitVec.setWidth_setWidth_of_le _ h, BitVec.setWidth_eq, num.dec_enc]

/-- In R64 a bank word passes the bus as its own pattern (R87). -/
@[simp] theorem r64_busOut (v : Num64) : R64.num.busOut v = v := BitVec.setWidth_eq v

@[simp] theorem r64_busIn (d : Data) : R64.num.busIn d = d := BitVec.setWidth_eq d

/-- A step is the host's next transaction, or nothing. -/
theorem stepWith_eq (num : Num α n) (ex : Instr → State α n → Host.Outcome (State α n) Fault Refusal) (s : State α n) :
    stepWith num ex s = match s.bus.pending with
      | [] => .next s
      | r :: rest => transact num ex r { s with bus := { s.bus with pending := rest } } := by
  unfold stepWith State.nextRequest
  cases s.bus.pending <;> rfl

theorem step_eq (s : State) :
    step s = match s.bus.pending with
      | [] => .next s
      | r :: rest => transact R64.num exec r { s with bus := { s.bus with pending := rest } } := by
  unfold step stepWith State.nextRequest
  cases s.bus.pending <;> rfl

/-- The writes of a register that end well. -/
theorem writeReg_some_iff {s u : State α n} {v : Word} {r : Reg} :
    s.writeReg v r = some u ↔
      (r = .size ∧ u = { s with size := v }) ∨ (r = .stride ∧ u = { s with stride := v }) ∨
        (r = .ioff ∧ u = { s with ioff := v }) ∨ (r = .ooff ∧ u = { s with ooff := v }) := by
  cases r <;> simp [State.writeReg, eq_comm]

/-- Everything a transaction that answers a next state can have done (R42, R55): a response and nothing else, a word or
register written, or a command issued. -/
theorem transact_next {num : Num α n} {ex : Instr → State α n → Host.Outcome (State α n) Fault Refusal}
    {r : RequestOf n} {s t : State α n} (h : transact num ex r s = .next t) :
    s.dp.isIdle = true ∧
      ((∃ a, t = s.respond a) ∨
        (r.kind = .wr ∧ ∃ g, s.writeReg (lowWord r.wdata) g ≠ none ∧
          ∃ u, s.writeReg (lowWord r.wdata) g = some u ∧ t = u.respond .okay) ∨
        (r.kind = .wr ∧ ∃ b i, targetOf r.addr = .word b i ∧ b.hostMayWrite = true ∧ i < s.cfg.N ∧
          t = ({ s with dp := { s.dp with mem := s.dp.mem.write b i (num.busIn r.wdata) } }).respond .okay) ∨
        (r.kind = .wr ∧ targetOf r.addr = .reg .cmd ∧ issueWord ex (lowWord r.wdata) s = .next t)) := by
  unfold transact at h
  cases hidle : s.dp.isIdle
  · simp [hidle] at h
  · refine ⟨rfl, ?_⟩
    simp only [hidle, Bool.not_true, Bool.false_eq_true, if_false] at h
    cases hk : r.kind with
    | rd =>
      simp only [hk, hostRead] at h
      left
      split at h
      · split at h <;> (cases h; exact ⟨_, rfl⟩)
      · split at h
        · split at h
          · cases h; exact ⟨_, rfl⟩
          · cases h
        · cases h; exact ⟨_, rfl⟩
      · cases h; exact ⟨_, rfl⟩
    | wr =>
      simp only [hk, hostWrite] at h
      split at h
      · next heq => exact Or.inr (Or.inr (Or.inr ⟨rfl, heq, h⟩))
      · next g heq hne =>
        split at h
        · next u hu => cases h; exact Or.inr (Or.inl ⟨rfl, g, by simp [hu], u, hu, rfl⟩)
        · cases h; exact Or.inl ⟨_, rfl⟩
      · next b i heq =>
        split at h
        · next hb => cases h; exact Or.inr (Or.inr (Or.inl ⟨rfl, b, i, heq, hb.1, hb.2, rfl⟩))
        · cases h; exact Or.inl ⟨_, rfl⟩
      · cases h; exact Or.inl ⟨_, rfl⟩

/-! ### Runs of the sequencer and the controller -/

/-- A run of the sequencer that ends well ends with SEQ empty, and whatever each task keeps holds at its end. -/
theorem runSeq_invariant {ns : NumSys α} {c : Config} (P : Datapath α → Prop)
    (hstep : ∀ d e, P d → seqStep ns c d = .ok e → P e) :
    ∀ {f : Nat} {d e : Datapath α}, P d → runSeq ns c f d = .ok e → P e ∧ e.seq = [] := by
  intro f
  induction f with
  | zero =>
    intro d e hd h
    simp only [runSeq] at h
    split at h
    · next hs => cases h; exact ⟨hd, by simpa using hs⟩
    · cases h
  | succ f ih =>
    intro d e hd h
    simp only [runSeq] at h
    split at h
    · next hs => cases h; exact ⟨hd, by simpa using hs⟩
    · obtain ⟨x, hx, hr⟩ := Res.bind_ok_iff.mp h
      exact ih (hstep d x hd hx) hr

/-- A run of the controller that ends well ends in phase IDLE, and whatever each transition keeps holds at its end. -/
theorem runController_invariant {ns : NumSys α} {c : Config} (P : Datapath α → Prop)
    (hstep : ∀ d e, P d → controllerStep ns c d = .ok e → P e) :
    ∀ {f : Nat} {d e : Datapath α}, P d → runController ns c f d = .ok e → P e ∧ e.it.phase = .idle := by
  intro f
  induction f with
  | zero =>
    intro d e hd h
    simp only [runController] at h
    split at h
    · next hs => cases h; exact ⟨hd, hs⟩
    · cases h
  | succ f ih =>
    intro d e hd h
    simp only [runController] at h
    split at h
    · next hs => cases h; exact ⟨hd, hs⟩
    · obtain ⟨x, hx, hr⟩ := Res.bind_ok_iff.mp h
      exact ih (hstep d x hd hx) hr

end Sys2Proof.Machine
end

