-- ==== Sys2Proof/Laws/Checks.lean ====
section
/-! SUPPORT. The checks at issue (R153) as conditions on the operands: when each command is accepted, and the units' domains. -/

namespace Sys2Proof.Machine

/-- The hardware's test finds the powers of two (R14). -/
theorem isPow2_iff (x : Nat) : isPow2 x = true ↔ ∃ q, x = 2 ^ q := by
  unfold isPow2
  constructor
  · intro h
    simp only [Bool.and_eq_true, bne_iff_ne, ne_eq, beq_iff_eq] at h
    exact (Nat.and_sub_one_eq_zero_iff_isPowerOfTwo h.1).mp h.2
  · rintro ⟨q, rfl⟩
    simp only [Bool.and_eq_true, bne_iff_ne, ne_eq, beq_iff_eq]
    exact ⟨by positivity, (Nat.and_sub_one_eq_zero_iff_isPowerOfTwo (by positivity)).mpr ⟨q, rfl⟩⟩

@[simp] theorem isPow2_two_pow (q : Nat) : isPow2 (2 ^ q) = true := (isPow2_iff _).mpr ⟨q, rfl⟩

theorem isPow2_eq_false {x : Nat} (h : ¬∃ q, x = 2 ^ q) : isPow2 x = false := by
  rw [← Bool.not_eq_true, isPow2_iff]
  exact h

@[simp] theorem viewInRange_iff {c : Config} {ioff size stride : Nat} :
    viewInRange c ioff size stride = true ↔ ioff + (size - 1) * stride ≤ c.N - 1 := by simp [viewInRange]

@[simp] theorem runInRange_iff {c : Config} {ooff size : Nat} : runInRange c ooff size = true ↔ ooff + size ≤ c.N := by
  simp [runInRange]

@[simp] theorem viewInRange_eq_false_iff {c : Config} {ioff size stride : Nat} :
    viewInRange c ioff size stride = false ↔ c.N - 1 < ioff + (size - 1) * stride := by simp [viewInRange]

@[simp] theorem runInRange_eq_false_iff {c : Config} {ooff size : Nat} :
    runInRange c ooff size = false ↔ c.N < ooff + size := by simp [runInRange]

theorem dftbinDomain_iff {c : Config} {ioff size stride k : Nat} :
    dftbinDomain c ioff size stride k = true ↔
      (∃ q, size = 2 ^ q) ∧ size ≤ c.N ∧ stride * size ≤ c.N ∧ ioff + (size - 1) * stride ≤ c.N - 1 ∧ k < size := by
  simp only [dftbinDomain, Bool.and_eq_true, isPow2_iff, decide_eq_true_eq, viewInRange_iff]
  tauto

theorem brevnetDomain_iff {i max : Nat} : brevnetDomain i max = true ↔ (∃ q, max = 2 ^ q) ∧ i < max := by
  simp [brevnetDomain, isPow2_iff]

/-! ### Acceptance -/

theorem checkInit_none_iff {α : Type} {n : Nat} {s : State α n} : checkInit s = none ↔ s.status.tvalid = false := by
  unfold checkInit
  split <;> simp_all

theorem checkDft_none_iff {α : Type} {n : Nat} {s : State α n} :
    checkDft s = none ↔
      s.status.tvalid = true ∧ (∃ q, s.size.toNat = 2 ^ q) ∧ s.size.toNat ≤ s.cfg.N ∧
        s.stride.toNat * s.size.toNat ≤ s.cfg.N ∧
        s.ioff.toNat + (s.size.toNat - 1) * s.stride.toNat ≤ s.cfg.N - 1 ∧ s.ooff.toNat + s.size.toNat ≤ s.cfg.N := by
  rw [← isPow2_iff]
  simp only [checkDft]
  split
  · simp_all
  · split
    · simp_all
      intro hp
      simp only [hp, Bool.true_eq_false, false_or] at *
      omega
    · split
      · simp_all
      · split
        · simp_all
          omega
        · simp_all

theorem checkFft1_none_iff {α : Type} {n : Nat} {s : State α n} :
    checkFft1 s = none ↔
      s.status.tvalid = true ∧ (∃ q, s.size.toNat = 2 ^ q) ∧ 2 ≤ s.size.toNat ∧ s.size.toNat ≤ s.cfg.N ∧
        s.stride.toNat * s.size.toNat ≤ s.cfg.N ∧
        s.ioff.toNat + (s.size.toNat - 1) * s.stride.toNat ≤ s.cfg.N - 1 ∧ s.ooff.toNat + s.size.toNat ≤ s.cfg.N := by
  rw [← isPow2_iff]
  simp only [checkFft1]
  split
  · simp_all
  · split
    · simp_all
      intro hp
      simp only [hp, Bool.true_eq_false, false_or] at *
      omega
    · split
      · simp_all
      · split
        · simp_all
          omega
        · simp_all
          omega

theorem checkFft2_none_iff {α : Type} {n : Nat} {s : State α n} : checkFft2 s = none ↔ s.status.tvalid = true ∧ s.size.toNat = s.cfg.N := by
  unfold checkFft2
  split
  · simp_all
  · split <;> simp_all

theorem checkBpass_none_iff {α : Type} {n : Nat} {s : State α n} :
    checkBpass s = none ↔
      s.status.tvalid = true ∧ (∃ q, s.size.toNat = 2 ^ q) ∧ 2 ≤ s.size.toNat ∧ s.size.toNat ≤ s.cfg.N ∧
        s.ooff.toNat + s.size.toNat ≤ s.cfg.N := by
  rw [← isPow2_iff]
  simp only [checkBpass]
  split
  · simp_all
  · split
    · simp_all
      intro hp
      simp only [hp, Bool.true_eq_false, false_or] at *
      omega
    · split
      · simp_all
      · simp_all
        omega

theorem checkBrev_none_iff {α : Type} {n : Nat} {s : State α n} :
    checkBrev s = none ↔ (∃ q, s.size.toNat = 2 ^ q) ∧ s.ioff.toNat < s.size.toNat := by
  rw [← isPow2_iff]
  simp only [checkBrev]
  split
  · simp_all
  · split <;> simp_all

end Sys2Proof.Machine
end

