-- ==== Sys2Proof/Laws/BitReverse.lean ====
section
/-! SUPPORT. What BREVNET computes. -/

namespace Sys2Proof.Machine

/-- The sentinel loop on m bits above which the sentinel stands: the bits come out in reverse, above the bits of r. -/
theorem brevLoop_spec : ∀ m i r, i < 2 ^ m → ∃ r', brevLoop m ⟨i + 2 ^ m, r⟩ = ⟨1, r'⟩ ∧
    ∀ q, r'.testBit q = if q < m then i.testBit (m - 1 - q) else r.testBit (q - m) := by
  intro m
  induction m with
  | zero => intro i r hi; have : i = 0 := by omega
            subst this; exact ⟨r, rfl, by simp⟩
  | succ m ih =>
    intro i r hi
    have hne : i + 2 ^ (m + 1) ≠ 1 := by have := Nat.one_lt_two_pow (n := m + 1) (by omega); omega
    have hs : (i + 2 ^ (m + 1)) >>> 1 = i / 2 + 2 ^ m := by rw [Nat.shiftRight_eq_div_pow]; omega
    have ha : (i + 2 ^ (m + 1)) &&& 1 = i % 2 := by rw [Nat.and_one_is_mod]; omega
    have ho : (r <<< 1) ||| (i % 2) = 2 * r + i % 2 := by
      rw [← Nat.shiftLeft_add_eq_or_of_lt (by omega), Nat.shiftLeft_eq]; omega
    obtain ⟨r', h1, h2⟩ := ih (i / 2) (2 * r + i % 2) (by omega)
    refine ⟨r', ?_, ?_⟩
    · simp only [brevLoop, hne, if_false, hs, ha, ho]; exact h1
    · intro q
      rw [h2]
      by_cases hq : q < m
      · rw [if_pos hq, if_pos (by omega), Nat.testBit_div_two]
        congr 1; omega
      · rw [if_neg hq]
        by_cases hq' : q = m
        · subst hq'
          simp [Nat.testBit_zero]
        · rw [if_neg (by omega)]
          obtain ⟨k, rfl⟩ : ∃ k, q = m + 1 + k := ⟨q - (m + 1), by omega⟩
          rw [show m + 1 + k - m = k + 1 by omega, show m + 1 + k - (m + 1) = k by omega, Nat.testBit_succ]
          congr 1; omega

/-- Inside its domain BREVNET ends with only the sentinel left and the reversed bits in r (R132, R133). -/
theorem brevnetRegs_ok {m i : Nat} (hi : i < 2 ^ m) :
    ∃ r, brevnetRegs i (2 ^ m) = .ok ⟨1, r⟩ ∧ r < 2 ^ m ∧ ∀ q, q < m → r.testBit q = i.testBit (m - 1 - q) := by
  have hd : brevnetDomain i (2 ^ m) = true := by simp [brevnetDomain, (isPow2_iff _).mpr ⟨m, rfl⟩, hi]
  have hor : i ||| 2 ^ m = i + 2 ^ m := by
    rw [Nat.or_comm]; have := Nat.shiftLeft_add_eq_or_of_lt hi 1
    rw [Nat.shiftLeft_eq, one_mul] at this; omega
  obtain ⟨r, h1, h2⟩ := brevLoop_spec m i 0 hi
  refine ⟨r, ?_, ?_, ?_⟩
  · rw [brevnetRegs, if_pos hd, Nat.log2_two_pow, hor, h1]
  · apply Nat.lt_pow_two_of_testBit
    intro q hq
    rw [h2, if_neg (by omega)]; simp
  · intro q hq; rw [h2, if_pos hq]

end Sys2Proof.Machine
end

