-- ==== Sys2Proof/Laws/Bus.lean ====
section
/-! SUPPORT. The address map and the transactions by target: what an address names, and what a step does for each kind of
transaction. -/

namespace Sys2Proof.Machine

/-! ### The data path -/

theorem lowWord_eq {n : Nat} (d : BitVec n) : lowWord d = d.setWidth 32 := by
  unfold lowWord
  ext k hk
  simp

/-! ### The address map (R43, R44) -/

theorem regionOf_toNat (a : Addr) : regionOf a = a.toNat / 2 ^ 32 := by
  have h : a.toNat < 2 ^ 35 := a.isLt
  simp only [regionOf, BitVec.extractLsb'_toNat, Nat.shiftRight_eq_div_pow]
  omega

theorem indexOf_toNat (a : Addr) : indexOf a = a.toNat % 2 ^ 32 := by
  simp [indexOf, BitVec.extractLsb'_toNat]

theorem regOfIndex_isSome_iff (i : Nat) : (regOfIndex i).isSome = true ↔ i < 11 := by
  constructor
  · intro h
    by_contra hi
    unfold regOfIndex at h
    split at h <;> first | omega | simp at h
  · intro h
    interval_cases i <;> rfl

/-- The target of an address in terms of its number. -/
theorem targetOf_eq (a : Addr) :
    targetOf a =
      if a.toNat / 2 ^ 32 = 0 then
        match regOfIndex (a.toNat % 2 ^ 32) with
        | some r => .reg r
        | none => .unmapped
      else
        match bankOfRegion (a.toNat / 2 ^ 32) with
        | some b => .word b (a.toNat % 2 ^ 32)
        | none => .unmapped := by
  simp only [targetOf, regionOf_toNat, indexOf_toNat] <;> rfl

/-- Word i of the bank of a region, addressed as region · 2^32 + i. -/
theorem targetOf_word {region i : Nat} {b : BankId} (hb : bankOfRegion region = some b) (hi : i < 2 ^ 32) :
    targetOf (BitVec.ofNat 35 (region * 2 ^ 32 + i)) = .word b i := by
  have hr : 1 ≤ region ∧ region ≤ 6 := by
    unfold bankOfRegion at hb
    split at hb <;> first | omega | cases hb
  have hn : (BitVec.ofNat 35 (region * 2 ^ 32 + i)).toNat = region * 2 ^ 32 + i := by
    rw [BitVec.toNat_ofNat, Nat.mod_eq_of_lt]
    omega
  have hq : (region * 2 ^ 32 + i) / 2 ^ 32 = region := by omega
  have hm : (region * 2 ^ 32 + i) % 2 ^ 32 = i := by omega
  rw [targetOf_eq, hn, hq, hm, if_neg (by omega), hb]

/-! ### Steps by target -/

/-- A step with a transaction pending on an idle engine, by kind and target. -/
theorem step_pending {s : State} {r : Request} {rest : List Request} (hp : s.bus.pending = r :: rest)
    (hi : s.dp.isIdle = true) :
    step s = match r.kind with
      | .rd => hostRead R64.num (targetOf r.addr) { s with bus := ⟨rest, s.bus.responses⟩ }
      | .wr => hostWrite R64.num exec (targetOf r.addr) r.wdata { s with bus := ⟨rest, s.bus.responses⟩ } := by
  rw [step_eq, hp]
  simp only [transact, hi, Bool.not_true, Bool.false_eq_true, if_false] <;> rfl

/-- A step on a write to CMD issues the low word. -/
theorem step_cmd_write {s : State} {d : Data} {rest : List Request} (hp : s.bus.pending = ⟨.wr, 0#35, d⟩ :: rest)
    (hi : s.dp.isIdle = true) :
    step s = issueWord exec (d.setWidth 32) { s with bus := ⟨rest, s.bus.responses⟩ } := by
  rw [step_pending hp hi]
  have ht : targetOf 0#35 = .reg .cmd := by decide
  simp only [ht, hostWrite, lowWord_eq]

/-- A step on a read of a register. -/
theorem step_reg_read {s : State} {a : Addr} {d : Data} {rest : List Request} {g : Reg}
    (hp : s.bus.pending = ⟨.rd, a, d⟩ :: rest) (hi : s.dp.isIdle = true) (ht : targetOf a = .reg g) :
    step s = match s.readReg g with
      | some w => .next { s with bus := ⟨rest, .okayData (w.setWidth 64) :: s.bus.responses⟩ }
      | none => .next { s with bus := ⟨rest, .error :: s.bus.responses⟩ } := by
  rw [step_pending hp hi]
  simp only [ht, hostRead]
  cases g <;> rfl

/-- In any NUM, a step on a host write of a bank word. -/
theorem stepIn_word_write {α : Type} {w : Nat} {num : Num α w} {s : State α w} {a : Addr} {d : BitVec w}
    {rest : List (RequestOf w)} {b : BankId} {i : Nat} (hp : s.bus.pending = ⟨.wr, a, d⟩ :: rest)
    (hi : s.dp.isIdle = true) (ht : targetOf a = .word b i) (hb : b.hostMayWrite = true) (hN : i < s.cfg.N) :
    stepIn num s = .next { s with
      dp := { s.dp with mem := s.dp.mem.write b i (num.busIn d) }, bus := ⟨rest, .okay :: s.bus.responses⟩ } := by
  unfold stepIn
  rw [stepWith_eq, hp]
  simp [transact, hi, ht, hostWrite, hb, hN, State.respond]

/-- In any NUM, a step on a host read of a bank word that holds a value. -/
theorem stepIn_word_read {α : Type} {w : Nat} {num : Num α w} {s : State α w} {a : Addr} {d : BitVec w}
    {rest : List (RequestOf w)} {b : BankId} {i : Nat} {v : α} (hp : s.bus.pending = ⟨.rd, a, d⟩ :: rest)
    (hi : s.dp.isIdle = true) (ht : targetOf a = .word b i) (hN : i < s.cfg.N) (hv : s.dp.mem.read b i = some v) :
    stepIn num s = .next { s with bus := ⟨rest, .okayData (num.busOut v) :: s.bus.responses⟩ } := by
  unfold stepIn
  rw [stepWith_eq, hp]
  simp [transact, hi, ht, hostRead, hN, hv, State.respond]

/-- A step on a read of a bank word. -/
theorem step_word_read {s : State} {a : Addr} {d : Data} {rest : List Request} {b : BankId} {i : Nat}
    (hp : s.bus.pending = ⟨.rd, a, d⟩ :: rest) (hi : s.dp.isIdle = true) (ht : targetOf a = .word b i) :
    step s =
      if i < s.cfg.N then
        match s.dp.mem.read b i with
        | some v => .next { s with bus := ⟨rest, .okayData v :: s.bus.responses⟩ }
        | none => .refused (.noValue b i)
      else .next { s with bus := ⟨rest, .error :: s.bus.responses⟩ } := by
  rw [step_pending hp hi]
  simp only [ht, hostRead, r64_busOut]
  cases s.dp.mem.read b i <;> rfl

/-- A step on a write of a bank word. -/
theorem step_word_write {s : State} {a : Addr} {d : Data} {rest : List Request} {b : BankId} {i : Nat}
    (hp : s.bus.pending = ⟨.wr, a, d⟩ :: rest) (hi : s.dp.isIdle = true) (ht : targetOf a = .word b i) :
    step s =
      if b.hostMayWrite ∧ i < s.cfg.N then
        .next { s with dp := { s.dp with mem := s.dp.mem.write b i d }, bus := ⟨rest, .okay :: s.bus.responses⟩ }
      else .next { s with bus := ⟨rest, .error :: s.bus.responses⟩ } := by
  rw [step_pending hp hi]
  simp only [ht, hostWrite, r64_busIn]
  rfl

/-- N is at most 2^30 in a configuration that meets its constraints (R7), so an index below N fits in an address. -/
theorem N_le_of_wellFormed {c : Config} (hc : c.wellFormed = true) : c.N ≤ 2 ^ 30 := by
  simp only [Config.wellFormed, Bool.and_eq_true, decide_eq_true_eq] at hc
  exact Nat.pow_le_pow_right (by omega) hc.1.1.1.2

end Sys2Proof.Machine
end

