-- ==== Sys2Proof/Laws/Tasks.lean ====
section
/-! SUPPORT. What the units and the tasks can do: TWMUL, DFTBIN and the DFT task, BFLY and the BPASS task, the FFT task.
For each: what it changes and keeps when it ends well, and its result when every word it reads holds a value. -/

namespace Sys2Proof.Machine

variable {α : Type} {ns : NumSys α} {c : Config}

/-! ### Frames of memories -/

/-- `m'` differs from `m` at most in the output words `lo ≤ i < hi` below N, and is canonical if `m` is. -/
structure OutFrame (c : Config) (lo hi : Nat) (m m' : Memory α) : Prop where
  same : ∀ b i, ¬((b = .outRe ∨ b = .outIm) ∧ lo ≤ i ∧ i < hi ∧ i < c.N) → m'.read b i = m.read b i
  wf : m.wf c.N = true → m'.wf c.N = true

theorem OutFrame.refl (lo hi : Nat) (m : Memory α) : OutFrame c lo hi m m := ⟨fun _ _ _ => rfl, id⟩

theorem OutFrame.trans {lo hi : Nat} {m m' m'' : Memory α} (h : OutFrame c lo hi m m') (h' : OutFrame c lo hi m' m'') :
    OutFrame c lo hi m m'' :=
  ⟨fun b i hb => (h'.same b i hb).trans (h.same b i hb), fun hm => h'.wf (h.wf hm)⟩

theorem OutFrame.mono {lo hi lo' hi' : Nat} {m m' : Memory α} (h : OutFrame c lo hi m m') (h1 : lo' ≤ lo) (h2 : hi ≤ hi') :
    OutFrame c lo' hi' m m' :=
  ⟨fun b i hb => h.same b i fun hc => hb ⟨hc.1, by omega, by omega, hc.2.2.2⟩, h.wf⟩

/-- Every word written lies below N. -/
theorem OutFrame.clip {lo hi : Nat} {m m' : Memory α} (h : OutFrame c lo hi m m') : OutFrame c 0 c.N m m' :=
  ⟨fun b i hb => h.same b i fun hc => hb ⟨hc.1, by omega, hc.2.2.2, hc.2.2.2⟩, h.wf⟩

/-- An engine write to an output word frames the memory. -/
theorem OutFrame.of_store {lo hi i : Nat} {m m' : Memory α} {b : BankId} {v : α} (hb : b = .outRe ∨ b = .outIm)
    (hlo : lo ≤ i) (hhi : i < hi) (h : m.store c b i v = .ok m') : OutFrame c lo hi m m' := by
  obtain ⟨hi', rfl⟩ := store_ok_iff.mp h
  refine ⟨fun b' j hj => ?_, fun hm => Memory.wf_write b v hm hi'⟩
  rw [Memory.read_write, if_neg]
  rintro ⟨rfl, rfl⟩
  exact hj ⟨hb, hlo, hhi, hi'⟩

/-! ### TWMUL -/

/-- TWMUL reads one entry of each twiddle bank (R96). -/
theorem twmul_ok_iff {m : Memory α} {xr xi : α} {p : Nat} {t : α × α} :
    twmul ns c m xr xi p = .ok t ↔
      p < c.N ∧ ∃ co si, m.read .twCos p = some co ∧ m.read .twSin p = some si ∧
        t = (ns.add (ns.mul xr co) (ns.mul xi si), ns.sub (ns.mul xi co) (ns.mul xr si)) := by
  unfold twmul
  simp only [Res.bind_ok_iff, load_ok_iff, Except.ok.injEq]
  constructor
  · rintro ⟨co, ⟨hp, hco⟩, si, ⟨_, hsi⟩, rfl⟩
    exact ⟨hp, co, si, hco, hsi, rfl⟩
  · rintro ⟨hp, co, si, hco, hsi, rfl⟩
    exact ⟨co, ⟨hp, hco⟩, si, ⟨hp, hsi⟩, rfl⟩

/-! ### DFTBIN and the DFT task -/

/-- One inner step of DFTBIN that ends well (R101). -/
theorem dftSample_ok_iff {m : Memory α} {ioff size stride : Nat} {r r' : DftRegs α} :
    dftSample ns c m ioff size stride r = .ok r' ↔
      ∃ xr xi t, m.load c .inRe (viewIndex ioff stride r.s) = .ok xr ∧ m.load c .inIm (viewIndex ioff stride r.s) = .ok xi ∧
        twmul ns c m xr xi r.ph = .ok t ∧
        r' = { r with s := r.s + 1,
                      ph := if r.ph + r.k * (c.N / size) ≥ c.N then r.ph + r.k * (c.N / size) - c.N
                            else r.ph + r.k * (c.N / size),
                      accRe := ns.add r.accRe t.1, accIm := ns.add r.accIm t.2 } := by
  unfold dftSample
  simp only [Res.bind_ok_iff, Except.ok.injEq]
  constructor
  · rintro ⟨xr, hxr, xi, hxi, t, ht, rfl⟩; exact ⟨xr, xi, t, hxr, hxi, ht, rfl⟩
  · rintro ⟨xr, xi, t, hxr, hxi, ht, rfl⟩; exact ⟨xr, hxr, xi, hxi, t, ht, rfl⟩

/-- One bin of a DFT task writes its two output words and nothing else (R104). -/
theorem dftBinStep_frame {ioff ooff size stride k lo hi : Nat} {d e : Datapath α} (hlo : lo ≤ ooff + k)
    (hhi : ooff + k < hi) (h : dftBinStep ns c ioff ooff size stride k d = .ok e) :
    e.seq = d.seq ∧ e.it = d.it ∧ OutFrame c lo hi d.mem e.mem := by
  unfold dftBinStep at h
  simp only [Res.bind_ok_iff, Except.ok.injEq] at h
  obtain ⟨r, _, m1, h1, m2, h2, rfl⟩ := h
  exact ⟨rfl, rfl, (OutFrame.of_store (.inl rfl) hlo hhi h1).trans (OutFrame.of_store (.inr rfl) hlo hhi h2)⟩

/-- Everything a DFT task changes: output words of its run, and the working registers, dead at its end (R104, R36). -/
theorem dftTask_frame {ioff ooff size stride : Nat} {d e : Datapath α}
    (h : dftTask ns c ioff ooff size stride d = .ok e) :
    e.seq = d.seq ∧ e.it = d.it ∧ e.work = .dead ∧ OutFrame c ooff (ooff + size) d.mem e.mem := by
  unfold dftTask at h
  obtain ⟨x, hx, he⟩ := Res.bind_ok_iff.mp h
  cases he
  have key : ∀ n, n ≤ size → ∀ y, forN n (dftBinStep ns c ioff ooff size stride) d = .ok y →
      y.seq = d.seq ∧ y.it = d.it ∧ OutFrame c ooff (ooff + size) d.mem y.mem := by
    intro n
    induction n with
    | zero => intro _ y hy; cases hy; exact ⟨rfl, rfl, OutFrame.refl _ _ _⟩
    | succ n ih =>
      intro hn y hy
      obtain ⟨z, hz, hzy⟩ := Res.bind_ok_iff.mp hy
      obtain ⟨h1, h2, h3⟩ := ih (by omega) z hz
      obtain ⟨g1, g2, g3⟩ := dftBinStep_frame (lo := ooff) (hi := ooff + size) (by omega) (by omega) hzy
      exact ⟨g1.trans h1, g2.trans h2, h3.trans g3⟩
  obtain ⟨h1, h2, h3⟩ := key size (Nat.le_refl _) x hx
  exact ⟨h1, h2, rfl, h3⟩

/-! ### BFLY and the BPASS task -/

/-- One butterfly of a pass that ends well, spelled out (R111, R115). -/
theorem bpassStep_ok_iff {ooff size i : Nat} {d e : Datapath α} :
    bpassStep ns c ooff size i d = .ok e ↔
      ooff + i + size / 2 < c.N ∧ ∃ er ei odr odi t, d.mem.read .outRe (ooff + i) = some er ∧
        d.mem.read .outIm (ooff + i) = some ei ∧ d.mem.read .outRe (ooff + i + size / 2) = some odr ∧
        d.mem.read .outIm (ooff + i + size / 2) = some odi ∧ twmul ns c d.mem odr odi (i * (c.N / size)) = .ok t ∧
        e = { d with
              mem := (((d.mem.write .outRe (ooff + i) (ns.add er t.1)).write .outIm (ooff + i) (ns.add ei t.2)).write
                .outRe (ooff + i + size / 2) (ns.sub er t.1)).write .outIm (ooff + i + size / 2) (ns.sub ei t.2)
              work := .bpass i } := by
  unfold bpassStep bfly runIndex
  simp only [Res.bind_ok_iff, load_ok_iff, store_ok_iff, Except.ok.injEq]
  constructor
  · rintro ⟨er, ⟨_, h1⟩, ei, ⟨_, h2⟩, odr, ⟨h, h3⟩, odi, ⟨_, h4⟩, x, ⟨t, ht, rfl⟩, m1, ⟨_, rfl⟩, m2, ⟨_, rfl⟩, m3, ⟨_, rfl⟩,
      m4, ⟨_, rfl⟩, rfl⟩
    exact ⟨h, er, ei, odr, odi, t, h1, h2, h3, h4, ht, rfl⟩
  · rintro ⟨h, er, ei, odr, odi, t, h1, h2, h3, h4, ht, rfl⟩
    have hl : ooff + i < c.N := by omega
    exact ⟨er, ⟨hl, h1⟩, ei, ⟨hl, h2⟩, odr, ⟨h, h3⟩, odi, ⟨h, h4⟩, _, ⟨t, ht, rfl⟩, _, ⟨hl, rfl⟩, _, ⟨hl, rfl⟩, _, ⟨h, rfl⟩, _,
      ⟨h, rfl⟩, rfl⟩

/-- One butterfly writes its four output words and nothing else. -/
theorem bpassStep_frame {ooff size i lo hi : Nat} {d e : Datapath α} (hlo : lo ≤ ooff + i)
    (hhi : ooff + i + size / 2 < hi) (h : bpassStep ns c ooff size i d = .ok e) :
    e.seq = d.seq ∧ e.it = d.it ∧ OutFrame c lo hi d.mem e.mem := by
  obtain ⟨hN, er, ei, odr, odi, t, -, -, -, -, -, rfl⟩ := bpassStep_ok_iff.mp h
  refine ⟨rfl, rfl, fun b j hj => ?_, fun hm => ?_⟩
  · simp only [Memory.read_write]
    rw [if_neg, if_neg, if_neg, if_neg] <;>
      (rintro ⟨rfl, rfl⟩; exact hj ⟨by simp, by omega, by omega, by omega⟩)
  · exact Memory.wf_write _ _ (Memory.wf_write _ _ (Memory.wf_write _ _ (Memory.wf_write _ _ hm (by omega)) (by omega))
      hN) hN

/-- Everything a BPASS task changes: output words of its window, and the working registers, dead at its end (R115). -/
theorem bpassTask_frame {ooff size : Nat} {d e : Datapath α} (h : bpassTask ns c ooff size d = .ok e) :
    e.seq = d.seq ∧ e.it = d.it ∧ e.work = .dead ∧ OutFrame c ooff (ooff + size) d.mem e.mem := by
  unfold bpassTask at h
  obtain ⟨x, hx, he⟩ := Res.bind_ok_iff.mp h
  cases he
  have key : ∀ n, n ≤ size / 2 → ∀ y, forN n (bpassStep ns c ooff size) d = .ok y →
      y.seq = d.seq ∧ y.it = d.it ∧ OutFrame c ooff (ooff + size) d.mem y.mem := by
    intro n
    induction n with
    | zero => intro _ y hy; cases hy; exact ⟨rfl, rfl, OutFrame.refl _ _ _⟩
    | succ n ih =>
      intro hn y hy
      obtain ⟨z, hz, hzy⟩ := Res.bind_ok_iff.mp hy
      obtain ⟨h1, h2, h3⟩ := ih (by omega) z hz
      obtain ⟨g1, g2, g3⟩ := bpassStep_frame (lo := ooff) (hi := ooff + size) (by omega) (by omega) hzy
      exact ⟨g1.trans h1, g2.trans h2, h3.trans g3⟩
  obtain ⟨h1, h2, h3⟩ := key (size / 2) (Nat.le_refl _) x hx
  exact ⟨h1, h2, rfl, h3⟩

/-! ### The FFT task -/

/-- The FFT task replaces itself by three tasks and touches nothing else (R123). -/
theorem fftTask_ok_iff {ioff ooff size stride : Nat} {d e : Datapath α} :
    fftTask c ioff ooff size stride d = .ok e ↔
      d.seq.length + 2 < c.stackDepth ∧
        e = { d with
              seq := if size / 2 > c.T ∧ size / 2 % 2 = 0 then
                  .fft ioff ooff (size / 2) (2 * stride) ::
                    .fft (ioff + stride) (ooff + size / 2) (size / 2) (2 * stride) :: .bpass ooff size :: d.seq
                else
                  .dft ioff ooff (size / 2) (2 * stride) ::
                    .dft (ioff + stride) (ooff + size / 2) (size / 2) (2 * stride) :: .bpass ooff size :: d.seq } := by
  unfold fftTask
  simp only [Res.bind_ok_iff, push_ok_iff]
  split
  · simp only [Res.bind_ok_iff, push_ok_iff]
    constructor
    · rintro ⟨x, ⟨h1, rfl⟩, y, ⟨h2, rfl⟩, h3, rfl⟩
      exact ⟨by simpa using h3, rfl⟩
    · rintro ⟨h, rfl⟩
      exact ⟨_, ⟨by omega, rfl⟩, _, ⟨by simp; omega, rfl⟩, by simpa using h, rfl⟩
  · simp only [Res.bind_ok_iff, push_ok_iff]
    constructor
    · rintro ⟨x, ⟨h1, rfl⟩, y, ⟨h2, rfl⟩, h3, rfl⟩
      exact ⟨by simpa using h3, rfl⟩
    · rintro ⟨h, rfl⟩
      exact ⟨_, ⟨by omega, rfl⟩, _, ⟨by simp; omega, rfl⟩, by simpa using h, rfl⟩

/-! ### One task on an empty stack -/

/-- A DFT task pushed on an empty stack and run: the DFT command, and a scatter step of FFT2 (R105, R144). -/
theorem runSeq_dft {ioff ooff size stride : Nat} {d : Datapath α} (hs : d.seq = []) (hc : 0 < c.stackDepth) :
    (do let e ← d.push c (.dft ioff ooff size stride)
        runSeq ns c 1 e) = dftTask ns c ioff ooff size stride d := by
  have hpush : d.push c (.dft ioff ooff size stride) = .ok { d with seq := [.dft ioff ooff size stride] } := by
    simp [Datapath.push, hs, hc]
  rw [hpush, Res.ok_bind]
  have hd : { d with seq := [] } = d := by cases d; simp_all
  simp only [runSeq, List.isEmpty_cons, Bool.false_eq_true, if_false, seqStep, execTask, hd]
  cases h : dftTask ns c ioff ooff size stride d with
  | error e => rfl
  | ok e => simp [(dftTask_frame h).1, hs]

/-- A BPASS task pushed on an empty stack and run: the BPASS command, and a stages step of FFT2 (R116, R144). -/
theorem runSeq_bpass {ooff size : Nat} {d : Datapath α} (hs : d.seq = []) (hc : 0 < c.stackDepth) :
    (do let e ← d.push c (.bpass ooff size)
        runSeq ns c 1 e) = bpassTask ns c ooff size d := by
  have hpush : d.push c (.bpass ooff size) = .ok { d with seq := [.bpass ooff size] } := by
    simp [Datapath.push, hs, hc]
  rw [hpush, Res.ok_bind]
  have hd : { d with seq := [] } = d := by cases d; simp_all
  simp only [runSeq, List.isEmpty_cons, Bool.false_eq_true, if_false, seqStep, execTask, hd]
  cases h : bpassTask ns c ooff size d with
  | error e => rfl
  | ok e => simp [(bpassTask_frame h).1, hs]

end Sys2Proof.Machine
end

