-- ==== Sys2Proof/Laws/Commands.lean ====
section
/-! SUPPORT. What the execution of each command changes when it ends well. -/

namespace Sys2Proof.Machine

variable {α : Type} {ns : NumSys α} {c : Config}

/-- The output words of a task lie in [lo, hi). -/
def Task.Within (lo hi : Nat) : Task → Prop
  | .fft _ ooff size _ => lo ≤ ooff ∧ ooff + size ≤ hi
  | .dft _ ooff size _ => lo ≤ ooff ∧ ooff + size ≤ hi
  | .bpass ooff size => lo ≤ ooff ∧ ooff + size ≤ hi

/-- One task whose output words lie in [lo, hi) changes output words there and nothing else, and the tasks it pushes lie
there too. -/
theorem seqStep_frame {lo hi : Nat} {d e : Datapath α} (hw : ∀ t ∈ d.seq, t.Within lo hi)
    (h : seqStep ns c d = .ok e) :
    (∀ t ∈ e.seq, t.Within lo hi) ∧ e.it = d.it ∧ OutFrame c lo hi d.mem e.mem := by
  unfold seqStep at h
  split at h
  · cases h; exact ⟨hw, rfl, OutFrame.refl _ _ _⟩
  · next t rest hs =>
    have hwt : t.Within lo hi := hw t (by simp [hs])
    have hwr : ∀ u ∈ rest, u.Within lo hi := fun u hu => hw u (by simp [hs, hu])
    unfold execTask at h
    cases t with
    | fft ioff ooff size stride =>
      obtain ⟨_, rfl⟩ := fftTask_ok_iff.mp h
      refine ⟨?_, rfl, OutFrame.refl _ _ _⟩
      simp only [Task.Within] at hwt
      intro u hu
      dsimp only at hu
      split at hu <;> simp only [List.mem_cons] at hu <;> rcases hu with rfl | rfl | rfl | hu <;>
        first | exact hwr _ hu | (simp only [Task.Within]; omega)
    | dft ioff ooff size stride =>
      obtain ⟨h1, h2, h3, h4⟩ := dftTask_frame h
      exact ⟨by rw [h1]; exact hwr, h2, h4.mono hwt.1 hwt.2⟩
    | bpass ooff size =>
      obtain ⟨h1, h2, h3, h4⟩ := bpassTask_frame h
      exact ⟨by rw [h1]; exact hwr, h2, h4.mono hwt.1 hwt.2⟩

/-- A run of tasks whose output words lie in [lo, hi) ends with SEQ empty and changes output words there only. -/
theorem runSeq_frame {lo hi f : Nat} {d e : Datapath α} (hw : ∀ t ∈ d.seq, t.Within lo hi)
    (h : runSeq ns c f d = .ok e) : e.seq = [] ∧ e.it = d.it ∧ OutFrame c lo hi d.mem e.mem := by
  have key := runSeq_invariant (ns := ns) (c := c)
    (fun x => (∀ t ∈ x.seq, t.Within lo hi) ∧ x.it = d.it ∧ OutFrame c lo hi d.mem x.mem)
    (fun x y ⟨h1, h2, h3⟩ hxy => by
      obtain ⟨g1, g2, g3⟩ := seqStep_frame h1 hxy
      exact ⟨g1, g2.trans h2, h3.trans g3⟩)
    (d := d) (e := e) (f := f) ⟨hw, rfl, OutFrame.refl _ _ _⟩ h
  exact ⟨key.2, key.1.2⟩

/-- The last task of FFT1 is a pass, so the working registers are dead at the end of every run that ran a task. -/
theorem runSeq_work {f : Nat} {d e : Datapath α} (hd : d.work = .dead) (h : runSeq ns c f d = .ok e) :
    e.work = .dead := by
  refine (runSeq_invariant (ns := ns) (c := c) (fun x => x.work = .dead) ?_ hd h).1
  intro x y hx hxy
  unfold seqStep at hxy
  split at hxy
  · cases hxy; exact hx
  · next t rest hs =>
    unfold execTask at hxy
    cases t with
    | fft ioff ooff size stride => obtain ⟨_, rfl⟩ := fftTask_ok_iff.mp hxy; exact hx
    | dft ioff ooff size stride => exact (dftTask_frame hxy).2.2.1
    | bpass ooff size => exact (bpassTask_frame hxy).2.2.1

/-! ### DFT, BPASS, FFT1 -/

theorem runDft_eq {o : Operands} {d : Datapath α} (hs : d.seq = []) (hc : 0 < c.stackDepth) :
    runDft ns c o d = dftTask ns c o.ioff o.ooff o.size o.stride d := runSeq_dft hs hc

theorem runBpass_eq {o : Operands} {d : Datapath α} (hs : d.seq = []) (hc : 0 < c.stackDepth) :
    runBpass ns c o d = bpassTask ns c o.ooff o.size d := runSeq_bpass hs hc

/-- Everything the execution of DFT, FFT1 or BPASS changes from an empty stack. -/
theorem runDft_frame {o : Operands} {d e : Datapath α} (hs : d.seq = []) (h : runDft ns c o d = .ok e) :
    e.seq = [] ∧ e.it = d.it ∧ OutFrame c o.ooff (o.ooff + o.size) d.mem e.mem := by
  obtain ⟨x, hx, hr⟩ := Res.bind_ok_iff.mp h
  obtain ⟨_, rfl⟩ := push_ok_iff.mp hx
  have hw : ∀ t ∈ Task.dft o.ioff o.ooff o.size o.stride :: d.seq, t.Within o.ooff (o.ooff + o.size) := by
    intro t ht
    rw [hs, List.mem_singleton] at ht
    subst ht
    exact ⟨Nat.le_refl _, Nat.le_refl _⟩
  have key := runSeq_frame (h := hr) (hw := hw)
  exact key

theorem runFft1_frame {o : Operands} {d e : Datapath α} (hs : d.seq = []) (h : runFft1 ns c o d = .ok e) :
    e.seq = [] ∧ e.it = d.it ∧ OutFrame c o.ooff (o.ooff + o.size) d.mem e.mem := by
  obtain ⟨x, hx, hr⟩ := Res.bind_ok_iff.mp h
  obtain ⟨_, rfl⟩ := push_ok_iff.mp hx
  have hw : ∀ t ∈ Task.fft o.ioff o.ooff o.size o.stride :: d.seq, t.Within o.ooff (o.ooff + o.size) := by
    intro t ht
    rw [hs, List.mem_singleton] at ht
    subst ht
    exact ⟨Nat.le_refl _, Nat.le_refl _⟩
  have key := runSeq_frame (h := hr) (hw := hw)
  exact key

theorem runBpass_frame {o : Operands} {d e : Datapath α} (hs : d.seq = []) (h : runBpass ns c o d = .ok e) :
    e.seq = [] ∧ e.it = d.it ∧ OutFrame c o.ooff (o.ooff + o.size) d.mem e.mem := by
  obtain ⟨x, hx, hr⟩ := Res.bind_ok_iff.mp h
  obtain ⟨_, rfl⟩ := push_ok_iff.mp hx
  have hw : ∀ t ∈ Task.bpass o.ooff o.size :: d.seq, t.Within o.ooff (o.ooff + o.size) := by
    intro t ht
    rw [hs, List.mem_singleton] at ht
    subst ht
    exact ⟨Nat.le_refl _, Nat.le_refl _⟩
  have key := runSeq_frame (h := hr) (hw := hw)
  exact key

/-! ### FFT2 and INIT -/

/-- One transition of the controller of FFT2 leaves SEQ empty and changes output words only. -/
theorem controllerStep_frame {d e : Datapath α} (hs : d.seq = []) (hf : d.it.phase ≠ .fill)
    (h : controllerStep ns c d = .ok e) :
    e.seq = [] ∧ e.it.phase ≠ .fill ∧ OutFrame c 0 c.N d.mem e.mem := by
  unfold controllerStep at h
  split at h
  · cases h; exact ⟨hs, hf, OutFrame.refl _ _ _⟩
  · next hp => exact absurd hp hf
  · unfold scatterStep at h
    obtain ⟨x, _, hx⟩ := Res.bind_ok_iff.mp h
    obtain ⟨y, hy, hr⟩ := Res.bind_ok_iff.mp hx
    obtain ⟨z, hz, he⟩ := Res.bind_ok_iff.mp hr
    obtain ⟨_, rfl⟩ := push_ok_iff.mp hy
    obtain ⟨h1, h2, h3⟩ := runSeq_frame (lo := c.B * x.r) (hi := c.B * x.r + c.B)
      (fun t ht => by simp [hs] at ht; subst ht; simp [Task.Within]) hz
    have hz : z.it.phase ≠ .fill := by rw [h2]; exact hf
    split at he <;> cases he
    · exact ⟨h1, hz, h3.clip⟩
    · exact ⟨h1, by simp, h3.clip⟩
  · next hp =>
    unfold stagesStep at h
    dsimp only at h
    split at h
    · cases h; exact ⟨hs, by simp [LoopRegs.idle], OutFrame.refl _ _ _⟩
    · obtain ⟨y, hy, hr⟩ := Res.bind_ok_iff.mp h
      obtain ⟨z, hz, he⟩ := Res.bind_ok_iff.mp hr
      obtain ⟨_, rfl⟩ := push_ok_iff.mp hy
      obtain ⟨h1, h2, h3⟩ := runSeq_frame (lo := d.it.base) (hi := d.it.base + d.it.w)
        (fun t ht => by simp [hs] at ht; subst ht; simp [Task.Within]) hz
      have hz : z.it.phase ≠ .fill := by rw [h2]; exact hf
      split at he <;> cases he <;> exact ⟨h1, hz, h3.clip⟩

/-- Everything the execution of FFT2 changes from an empty stack: output words, and IT, idle at its end (R144). -/
theorem runFft2_frame {d e : Datapath α} (hs : d.seq = []) (h : runFft2 ns c d = .ok e) :
    e.seq = [] ∧ e.it.phase = .idle ∧ OutFrame c 0 c.N d.mem e.mem := by
  have key := runController_invariant (ns := ns) (c := c)
    (fun x => x.seq = [] ∧ x.it.phase ≠ .fill ∧ OutFrame c 0 c.N d.mem x.mem)
    (fun x y ⟨h1, h2, h3⟩ hxy => by
      obtain ⟨g1, g2, g3⟩ := controllerStep_frame h1 h2 hxy
      exact ⟨g1, g2, h3.trans g3⟩)
    (d := { d with it := ⟨.scatter, 0, 0, 0⟩ }) (e := e) ⟨hs, by simp, OutFrame.refl _ _ _⟩ h
  exact ⟨key.1.1, key.2, key.1.2.2⟩

/-- The controller steps of INIT: entries IT.j to N − 1 of both twiddle banks are written in turn (R93). -/
theorem runController_fill {k : Nat} :
    ∀ {j : Nat} {d : Datapath α}, j + k = c.N → d.it = ⟨.fill, j, 0, 0⟩ → ∃ m,
      runController ns c (k + 1) d = .ok { d with mem := m, it := LoopRegs.idle } ∧
      (∀ i, j ≤ i → i < c.N → m.read .twCos i = some (ns.cosEntry c.n i) ∧ m.read .twSin i = some (ns.sinEntry c.n i)) ∧
      (∀ b i, ¬((b = .twCos ∨ b = .twSin) ∧ j ≤ i ∧ i < c.N) → m.read b i = d.mem.read b i) ∧
      (d.mem.wf c.N = true → m.wf c.N = true) := by
  induction k with
  | zero =>
    intro j d hj hd
    refine ⟨d.mem, ?_, fun i h1 h2 => by omega, fun _ _ _ => rfl, id⟩
    simp [runController, hd, controllerStep, fillStep, show ¬ j < c.N by omega, LoopRegs.idle]
  | succ k ih =>
    intro j d hj hd
    have hlt : j < c.N := by omega
    let m1 := (d.mem.write .twCos j (ns.cosEntry c.n j)).write .twSin j (ns.sinEntry c.n j)
    obtain ⟨m, h1, h2, h3, h4⟩ := ih (j := j + 1) (d := { d with mem := m1, it := ⟨.fill, j + 1, 0, 0⟩ }) (by omega) rfl
    refine ⟨m, ?_, fun i hi hi' => ?_, fun b i hb => ?_, fun hm => ?_⟩
    · rw [runController]
      simp only [hd, controllerStep, fillStep, hlt, if_true, Memory.store, Res.ok_bind]
      exact h1
    · by_cases hij : i = j
      · subst hij
        rw [h3 .twCos i (by simp), h3 .twSin i (by simp)]
        simp [m1, Memory.read_write]
      · exact h2 i (by omega) hi'
    · rw [h3 b i (fun hc => hb ⟨hc.1, by omega, hc.2.2⟩)]
      simp only [m1, Memory.read_write]
      rw [if_neg, if_neg] <;> (rintro ⟨rfl, rfl⟩; exact hb ⟨by simp, by omega, hlt⟩)
    · exact h4 (Memory.wf_write _ _ (Memory.wf_write _ _ hm hlt) hlt)

/-- The execution of INIT (R93): it always ends, with the table in both twiddle banks and nothing else changed. -/
theorem runInit_ok (d : Datapath α) : ∃ m,
    runInit ns c d = .ok { d with mem := m, it := LoopRegs.idle } ∧
    (∀ i, i < c.N → m.read .twCos i = some (ns.cosEntry c.n i) ∧ m.read .twSin i = some (ns.sinEntry c.n i)) ∧
    (∀ b i, ¬((b = .twCos ∨ b = .twSin) ∧ i < c.N) → m.read b i = d.mem.read b i) ∧
    (d.mem.wf c.N = true → m.wf c.N = true) := by
  obtain ⟨m, h1, h2, h3, h4⟩ := runController_fill (ns := ns) (c := c) (k := c.N) (j := 0)
    (d := { d with it := ⟨.fill, 0, 0, 0⟩ }) (by omega) rfl
  exact ⟨m, h1, fun i hi => h2 i (Nat.zero_le _) hi, fun b i hb => h3 b i fun hc => hb ⟨hc.1, hc.2.2⟩, h4⟩

/-! ### The commands -/

/-- What a command that ends with ERR = 0 went through: its checks passed and its execution ended well (R153). -/
theorem execIn_completed {n : Nat} {num : Num α n} {i : Instr} {s t : State α n} (h : execIn num i s = .next t) (he : t.status.err = false) :
    s.dp.isIdle = true ∧ s.status.err = false ∧
      match i with
      | .init => s.status.tvalid = false ∧ ∃ m, runInit num.toNumSys s.cfg s.dp = .ok { s.dp with mem := m, it := LoopRegs.idle } ∧
          t = complete { s with
                status := s.status.clearDone.setTvalid, dp := { s.dp with mem := m, it := LoopRegs.idle } }
      | .dft => checkDft s = none ∧ ∃ d, runDft num.toNumSys s.cfg s.operands s.dp = .ok d ∧
          t = complete { s with status := s.status.clearDone, dp := d }
      | .fft1 => checkFft1 s = none ∧ ∃ d, runFft1 num.toNumSys s.cfg s.operands s.dp = .ok d ∧
          t = complete { s with status := s.status.clearDone, dp := d }
      | .fft2 => checkFft2 s = none ∧ ∃ d, runFft2 num.toNumSys s.cfg s.dp = .ok d ∧
          t = complete { s with status := s.status.clearDone, dp := d }
      | .bpass => checkBpass s = none ∧ ∃ d, runBpass num.toNumSys s.cfg s.operands s.dp = .ok d ∧
          t = complete { s with status := s.status.clearDone, dp := d }
      | .brev => checkBrev s = none ∧ ∃ x, brevnetRegs s.ioff.toNat s.size.toNat = .ok x ∧
          t = complete { s with
                status := s.status.clearDone, result := BitVec.ofNat 32 x.r, dp := { s.dp with work := .dead } } := by
  cases i
  case init =>
    rw [execIn_init_eq, issue_next_iff] at h
    obtain ⟨hi, ⟨he', rfl⟩ | ⟨he', c, hc, rfl⟩ | ⟨he', hc, u, hu, rfl⟩⟩ := h
    · simp [he'] at he
    · simp at he
    · obtain ⟨v, hv, hu⟩ := Res.bind_ok_iff.mp hu
      cases hu
      obtain ⟨d, hd, rfl⟩ := onDatapath_ok_iff.mp hv
      obtain ⟨m, h1, -⟩ := runInit_ok (ns := num.toNumSys) (c := s.cfg) s.dp
      dsimp only at hd
      rw [h1] at hd
      cases hd
      refine ⟨hi, he', ?_, m, h1, rfl⟩
      cases ht : s.status.tvalid with
      | false => rfl
      | true => simp [checkInit, ht] at hc
  case brev =>
    rw [execIn_brev_eq, issue_next_iff] at h
    obtain ⟨hi, ⟨he', rfl⟩ | ⟨he', c, hc, rfl⟩ | ⟨he', hc, u, hu, rfl⟩⟩ := h
    · simp [he'] at he
    · simp at he
    · obtain ⟨x, hx, hu⟩ := Res.bind_ok_iff.mp hu
      cases hu
      exact ⟨hi, he', hc, x, hx, rfl⟩
  all_goals
    first
      | rw [execIn_dft_eq, issue_next_iff] at h
      | rw [execIn_fft1_eq, issue_next_iff] at h
      | rw [execIn_fft2_eq, issue_next_iff] at h
      | rw [execIn_bpass_eq, issue_next_iff] at h
    obtain ⟨hi, ⟨he', rfl⟩ | ⟨he', c, hc, rfl⟩ | ⟨he', hc, u, hu, rfl⟩⟩ := h
    · simp [he'] at he
    · simp at he
    · obtain ⟨d, hd, rfl⟩ := onDatapath_ok_iff.mp hu
      exact ⟨hi, he', hc, d, hd, rfl⟩

/-- What a command that answers a next state did: turned away, faulted, or ended with ERR = 0. -/
theorem execIn_next {n : Nat} {num : Num α n} {i : Instr} {s t : State α n} (h : execIn num i s = .next t) :
    s.dp.isIdle = true ∧
      ((s.status.err = true ∧ t = s.respond .error) ∨
        (s.status.err = false ∧ ∃ c, t = takeFault c (encode i) { s with status := s.status.clearDone }) ∨
        (s.status.err = false ∧ t.status.err = false)) := by
  have key : ∀ {w check run}, issue w check run s = .next t →
      (∀ u, run { s with status := s.status.clearDone } = .ok u → u.status.err = s.status.err) →
      s.dp.isIdle = true ∧
        ((s.status.err = true ∧ t = s.respond .error) ∨
          (s.status.err = false ∧ ∃ c, t = takeFault c w { s with status := s.status.clearDone }) ∨
          (s.status.err = false ∧ t.status.err = false)) := by
    intro w check run h hrun
    rw [issue_next_iff] at h
    obtain ⟨hi, ⟨he', rfl⟩ | ⟨he', c, hc, rfl⟩ | ⟨he', hc, u, hu, rfl⟩⟩ := h
    · exact ⟨hi, .inl ⟨he', rfl⟩⟩
    · exact ⟨hi, .inr (.inl ⟨he', c, rfl⟩)⟩
    · exact ⟨hi, .inr (.inr ⟨he', by simpa [he'] using hrun u hu⟩)⟩
  have keyDp : ∀ {f : Datapath α → Res (Datapath α)} {u : State α n},
      State.onDatapath f { s with status := s.status.clearDone } = .ok u → u.status.err = s.status.err := by
    intro f u hu
    obtain ⟨d, _, rfl⟩ := onDatapath_ok_iff.mp hu
    rfl
  cases i
  · rw [execIn_init_eq] at h
    refine key h fun u hu => ?_
    obtain ⟨v, hv, hu⟩ := Res.bind_ok_iff.mp hu
    cases hu
    exact (keyDp hv : v.status.err = _)
  · rw [execIn_dft_eq] at h
    exact key h fun u hu => keyDp hu
  · rw [execIn_fft1_eq] at h
    exact key h fun u hu => keyDp hu
  · rw [execIn_fft2_eq] at h
    exact key h fun u hu => keyDp hu
  · rw [execIn_bpass_eq] at h
    exact key h fun u hu => keyDp hu
  · rw [execIn_brev_eq] at h
    refine key h fun u hu => ?_
    obtain ⟨x, hx, hu⟩ := Res.bind_ok_iff.mp hu
    cases hu
    rfl

/-- The same of `exec`. What a command that ends with ERR = 0 went through: its checks passed and its execution ended well (R153). -/
theorem exec_completed {i : Instr} {s t : State} (h : exec i s = .next t) (he : t.status.err = false) :
    s.dp.isIdle = true ∧ s.status.err = false ∧
      match i with
      | .init => s.status.tvalid = false ∧ ∃ m, runInit r64 s.cfg s.dp = .ok { s.dp with mem := m, it := LoopRegs.idle } ∧
          t = complete { s with
                status := s.status.clearDone.setTvalid, dp := { s.dp with mem := m, it := LoopRegs.idle } }
      | .dft => checkDft s = none ∧ ∃ d, runDft r64 s.cfg s.operands s.dp = .ok d ∧
          t = complete { s with status := s.status.clearDone, dp := d }
      | .fft1 => checkFft1 s = none ∧ ∃ d, runFft1 r64 s.cfg s.operands s.dp = .ok d ∧
          t = complete { s with status := s.status.clearDone, dp := d }
      | .fft2 => checkFft2 s = none ∧ ∃ d, runFft2 r64 s.cfg s.dp = .ok d ∧
          t = complete { s with status := s.status.clearDone, dp := d }
      | .bpass => checkBpass s = none ∧ ∃ d, runBpass r64 s.cfg s.operands s.dp = .ok d ∧
          t = complete { s with status := s.status.clearDone, dp := d }
      | .brev => checkBrev s = none ∧ ∃ x, brevnetRegs s.ioff.toNat s.size.toNat = .ok x ∧
          t = complete { s with
                status := s.status.clearDone, result := BitVec.ofNat 32 x.r, dp := { s.dp with work := .dead } } := by
  rw [exec_eq_execIn] at h
  have key := execIn_completed h he
  cases i <;> exact key

/-- The same of `exec`. What a command that answers a next state did: turned away, faulted, or ended with ERR = 0. -/
theorem exec_next {i : Instr} {s t : State} (h : exec i s = .next t) :
    s.dp.isIdle = true ∧
      ((s.status.err = true ∧ t = s.respond .error) ∨
        (s.status.err = false ∧ ∃ c, t = takeFault c (encode i) { s with status := s.status.clearDone }) ∨
        (s.status.err = false ∧ t.status.err = false)) := by
  rw [exec_eq_execIn] at h
  exact execIn_next h

end Sys2Proof.Machine
end

