-- ==== Sys2Proof/Laws/PerInstr.lean ====
section
/-! SUPPORT. One statement about every command as syntax, proved per constructor: its word is well formed, and decoding it
gives the command back (spec/30_encoding.md R65 to R67). -/

namespace Sys2Proof.Laws.RoundTrip

/-- The command is well formed, so is its word, and the decoder reads the command from its word. -/
def Statement (i : Instr) : Prop :=
  i.wellFormed = true ∧ wordWellFormed (encode i) = true ∧ decode (encode i) = .ok i ∧
    decodeTableWord 32 (encode i).toNat = some i

theorem init : Statement .init := ⟨rfl, by decide, by decide, by decide⟩

theorem dft : Statement .dft := ⟨rfl, by decide, by decide, by decide⟩

theorem fft1 : Statement .fft1 := ⟨rfl, by decide, by decide, by decide⟩

theorem fft2 : Statement .fft2 := ⟨rfl, by decide, by decide, by decide⟩

theorem bpass : Statement .bpass := ⟨rfl, by decide, by decide, by decide⟩

theorem brev : Statement .brev := ⟨rfl, by decide, by decide, by decide⟩

end Sys2Proof.Laws.RoundTrip
end

