-- ==== Sys2Proof/Laws/Transforms.lean ====
section
/-! SUPPORT. What a DFT task and a pass leave when every word they read holds a value, in any number system. -/

namespace Sys2Proof.Machine

variable {α : Type} {ns : NumSys α} {c : Config}

/-- The sum from ZERO of the terms of bin sums, in ascending order (R101). -/
theorem foldl_range_succ {β : Type} (f : β → Nat → β) (z : β) (n : Nat) :
    (List.range (n + 1)).foldl f z = f ((List.range n).foldl f z) n := by
  rw [List.range_succ, List.foldl_append]
  rfl

/-- One wrap keeps the phase accumulator below N (R102). -/
theorem phase_wrap {N s inc : Nat} (hinc : inc < N) :
    (if s * inc % N + inc ≥ N then s * inc % N + inc - N else s * inc % N + inc) = (s + 1) * inc % N := by
  have hlt : s * inc % N < N := Nat.mod_lt _ (by omega)
  have h : (s + 1) * inc % N = (s * inc % N + inc) % N := by
    rw [Nat.add_mul, one_mul, Nat.mod_add_mod]
  rw [h]
  generalize s * inc % N = p at hlt
  split
  · rw [Nat.mod_eq_sub_mod (by omega), Nat.mod_eq_of_lt (by omega)]
  · rw [Nat.mod_eq_of_lt (by omega)]

/-- k steps of the phase stay below N for a bin k of a transform (R101). -/
theorem phase_inc_lt {N size k : Nat} (h0 : 0 < size) (hs : size ≤ N) (hk : k < size) : k * (N / size) < N := by
  have h1 : 0 < N / size := Nat.div_pos hs h0
  have h2 : size * (N / size) ≤ N := Nat.mul_div_le N size
  have h3 : k * (N / size) < size * (N / size) := Nat.mul_lt_mul_of_pos_right hk h1
  omega

/-- DFTBIN in its domain, every word it reads holding a value (R101, R102). -/
theorem dftbinRegs_ok {m : Memory α} {co si xr xi : Nat → α} {ioff size stride k : Nat}
    (hd : dftbinDomain c ioff size stride k = true)
    (ht : ∀ p, p < c.N → m.read .twCos p = some (co p) ∧ m.read .twSin p = some (si p))
    (hx : ∀ s, s < size → m.read .inRe (ioff + s * stride) = some (xr s) ∧ m.read .inIm (ioff + s * stride) = some (xi s)) :
    ∃ r, dftbinRegs ns c m ioff size stride k = .ok r ∧
      r.accRe = (List.range size).foldl (fun a s => ns.add a
        (ns.add (ns.mul (xr s) (co (s * (k * (c.N / size)) % c.N))) (ns.mul (xi s) (si (s * (k * (c.N / size)) % c.N))))) ns.zero ∧
      r.accIm = (List.range size).foldl (fun a s => ns.add a
        (ns.sub (ns.mul (xi s) (co (s * (k * (c.N / size)) % c.N))) (ns.mul (xr s) (si (s * (k * (c.N / size)) % c.N))))) ns.zero := by
  obtain ⟨⟨q, hq⟩, hsN, hstr, hview, hk⟩ := dftbinDomain_iff.mp hd
  have h0 : 0 < size := by omega
  have hinc := phase_inc_lt h0 hsN hk
  rw [dftbinRegs, if_pos hd]
  obtain ⟨r, hr, h1, h2, h3, h4, h5⟩ := forN_progress (n := size)
    (f := fun _ r => dftSample ns c m ioff size stride r) (x := dftStart ns k)
    (fun s (r : DftRegs α) => r.k = k ∧ r.s = s ∧ r.ph = s * (k * (c.N / size)) % c.N ∧
      r.accRe = (List.range s).foldl (fun a s => ns.add a
        (ns.add (ns.mul (xr s) (co (s * (k * (c.N / size)) % c.N))) (ns.mul (xi s) (si (s * (k * (c.N / size)) % c.N))))) ns.zero ∧
      r.accIm = (List.range s).foldl (fun a s => ns.add a
        (ns.sub (ns.mul (xi s) (co (s * (k * (c.N / size)) % c.N))) (ns.mul (xr s) (si (s * (k * (c.N / size)) % c.N))))) ns.zero)
    (by
      rintro s ⟨rk, rs, ph, ar, ai⟩ hs ⟨hrk, hrs, hph, har, hai⟩
      dsimp only at hrk hrs hph har hai
      subst hrk hrs hph har hai
      have hidx : ioff + rs * stride < c.N := by
        have : rs * stride ≤ (size - 1) * stride := Nat.mul_le_mul_right _ (by omega)
        omega
      have hp : rs * (rk * (c.N / size)) % c.N < c.N := Nat.mod_lt _ (by omega)
      refine ⟨_, dftSample_ok_iff.mpr ⟨xr rs, xi rs, _, load_ok_iff.mpr ⟨hidx, (hx rs hs).1⟩,
        load_ok_iff.mpr ⟨hidx, (hx rs hs).2⟩, twmul_ok_iff.mpr ⟨hp, co _, si _, (ht _ hp).1, (ht _ hp).2, rfl⟩, rfl⟩,
        rfl, rfl, phase_wrap hinc, ?_, ?_⟩
      · rw [foldl_range_succ]
      · rw [foldl_range_succ])
    ⟨rfl, rfl, by simp [dftStart], rfl, rfl⟩
  exact ⟨r, hr, h4, h5⟩

/-- One bin of a DFT task whose words all hold values (R104). -/
theorem dftBinStep_ok {d : Datapath α} {co si xr xi : Nat → α} {ioff ooff size stride k : Nat}
    (hd : dftbinDomain c ioff size stride k = true) (ho : ooff + k < c.N)
    (ht : ∀ p, p < c.N → d.mem.read .twCos p = some (co p) ∧ d.mem.read .twSin p = some (si p))
    (hx : ∀ s, s < size → d.mem.read .inRe (ioff + s * stride) = some (xr s) ∧
      d.mem.read .inIm (ioff + s * stride) = some (xi s)) :
    ∃ e, dftBinStep ns c ioff ooff size stride k d = .ok e ∧
      e.mem.read .outRe (ooff + k) = some (ns.divn c.n ((List.range size).foldl (fun a s => ns.add a
        (ns.add (ns.mul (xr s) (co (s * (k * (c.N / size)) % c.N))) (ns.mul (xi s) (si (s * (k * (c.N / size)) % c.N))))) ns.zero)) ∧
      e.mem.read .outIm (ooff + k) = some (ns.divn c.n ((List.range size).foldl (fun a s => ns.add a
        (ns.sub (ns.mul (xi s) (co (s * (k * (c.N / size)) % c.N))) (ns.mul (xr s) (si (s * (k * (c.N / size)) % c.N))))) ns.zero)) ∧
      ∀ b i, ¬((b = .outRe ∨ b = .outIm) ∧ i = ooff + k) → e.mem.read b i = d.mem.read b i := by
  obtain ⟨r, hr, h1, h2⟩ := dftbinRegs_ok (ns := ns) hd ht hx
  refine ⟨{ d with mem := (d.mem.write .outRe (ooff + k) (dftOutput ns c r).1).write .outIm (ooff + k) (dftOutput ns c r).2,
                   work := .dft r }, ?_, ?_, ?_, ?_⟩
  · simp [dftBinStep, hr, Memory.store, runIndex, ho]
  · simp [Memory.read_write, dftOutput, h1]
  · simp [dftOutput, h2]
  · intro b i hb
    simp only [Memory.read_write]
    rw [if_neg, if_neg] <;> (rintro ⟨rfl, rfl⟩; exact hb ⟨by simp, rfl⟩)

/-- A DFT task whose words all hold values ends, with every bin in place (R101 to R104). -/
theorem dftTask_ok {d : Datapath α} {co si xr xi : Nat → α} {ioff ooff size stride : Nat}
    (hsz : ∃ q, size = 2 ^ q) (hsN : size ≤ c.N) (hstr : stride * size ≤ c.N)
    (hv : ioff + (size - 1) * stride ≤ c.N - 1) (ho : ooff + size ≤ c.N)
    (ht : ∀ p, p < c.N → d.mem.read .twCos p = some (co p) ∧ d.mem.read .twSin p = some (si p))
    (hx : ∀ s, s < size → d.mem.read .inRe (ioff + s * stride) = some (xr s) ∧
      d.mem.read .inIm (ioff + s * stride) = some (xi s)) :
    ∃ e, dftTask ns c ioff ooff size stride d = .ok e ∧
      ∀ k, k < size →
        e.mem.read .outRe (ooff + k) = some (ns.divn c.n ((List.range size).foldl (fun a s => ns.add a
          (ns.add (ns.mul (xr s) (co (s * (k * (c.N / size)) % c.N))) (ns.mul (xi s) (si (s * (k * (c.N / size)) % c.N))))) ns.zero)) ∧
        e.mem.read .outIm (ooff + k) = some (ns.divn c.n ((List.range size).foldl (fun a s => ns.add a
          (ns.sub (ns.mul (xi s) (co (s * (k * (c.N / size)) % c.N))) (ns.mul (xr s) (si (s * (k * (c.N / size)) % c.N))))) ns.zero)) := by
  obtain ⟨x, hx', hP⟩ := forN_progress (n := size) (f := dftBinStep ns c ioff ooff size stride) (x := d)
    (fun n (e : Datapath α) =>
      (∀ b i, b ≠ .outRe → b ≠ .outIm → e.mem.read b i = d.mem.read b i) ∧
      ∀ k, k < n →
        e.mem.read .outRe (ooff + k) = some (ns.divn c.n ((List.range size).foldl (fun a s => ns.add a
          (ns.add (ns.mul (xr s) (co (s * (k * (c.N / size)) % c.N))) (ns.mul (xi s) (si (s * (k * (c.N / size)) % c.N))))) ns.zero)) ∧
        e.mem.read .outIm (ooff + k) = some (ns.divn c.n ((List.range size).foldl (fun a s => ns.add a
          (ns.sub (ns.mul (xi s) (co (s * (k * (c.N / size)) % c.N))) (ns.mul (xr s) (si (s * (k * (c.N / size)) % c.N))))) ns.zero)))
    (by
      rintro n e hn ⟨h1, h2⟩
      obtain ⟨y, hy, g1, g2, g3⟩ := dftBinStep_ok (ns := ns) (c := c) (d := e) (co := co) (si := si) (xr := xr) (xi := xi)
        (ioff := ioff) (ooff := ooff) (size := size) (stride := stride) (k := n)
        (dftbinDomain_iff.mpr ⟨hsz, hsN, hstr, hv, hn⟩) (by omega)
        (fun p hp => by rw [h1 .twCos p (by simp) (by simp), h1 .twSin p (by simp) (by simp)]; exact ht p hp)
        (fun s hs => by rw [h1 .inRe _ (by simp) (by simp), h1 .inIm _ (by simp) (by simp)]; exact hx s hs)
      refine ⟨y, hy, fun b i hb hb' => ?_, fun k hk => ?_⟩
      · rw [g3 b i (by simp [hb, hb']), h1 b i hb hb']
      · by_cases hkn : k = n
        · subst hkn; exact ⟨g1, g2⟩
        · rw [g3 .outRe _ (by simp [hkn]), g3 .outIm _ (by simp [hkn])]
          exact h2 k (by omega))
    ⟨fun _ _ _ _ => rfl, fun k hk => absurd hk (Nat.not_lt_zero _)⟩
  exact ⟨x.endTask, by simp [dftTask, hx'], hP.2⟩

/-- A pass whose words all hold values ends, with every pair combined (R111, R115). -/
theorem bpassTask_ok {d : Datapath α} {co si yr yi : Nat → α} {ooff size : Nat} (h2 : size / 2 + size / 2 = size)
    (h0 : 0 < size) (hsN : size ≤ c.N) (ho : ooff + size ≤ c.N)
    (ht : ∀ p, p < c.N → d.mem.read .twCos p = some (co p) ∧ d.mem.read .twSin p = some (si p))
    (hy : ∀ k, k < size → d.mem.read .outRe (ooff + k) = some (yr k) ∧ d.mem.read .outIm (ooff + k) = some (yi k)) :
    ∃ e, bpassTask ns c ooff size d = .ok e ∧
      ∀ i, i < size / 2 →
        let rr := ns.add (ns.mul (yr (i + size / 2)) (co (i * (c.N / size)))) (ns.mul (yi (i + size / 2)) (si (i * (c.N / size))))
        let ri := ns.sub (ns.mul (yi (i + size / 2)) (co (i * (c.N / size)))) (ns.mul (yr (i + size / 2)) (si (i * (c.N / size))))
        e.mem.read .outRe (ooff + i) = some (ns.add (yr i) rr) ∧ e.mem.read .outIm (ooff + i) = some (ns.add (yi i) ri) ∧
        e.mem.read .outRe (ooff + i + size / 2) = some (ns.sub (yr i) rr) ∧
        e.mem.read .outIm (ooff + i + size / 2) = some (ns.sub (yi i) ri) := by
  obtain ⟨x, hx', hP⟩ := forN_progress (n := size / 2) (f := bpassStep ns c ooff size) (x := d)
    (fun n (e : Datapath α) =>
      (∀ b i, ¬((b = .outRe ∨ b = .outIm) ∧ ((ooff ≤ i ∧ i < ooff + n) ∨ (ooff + size / 2 ≤ i ∧ i < ooff + size / 2 + n))) →
        e.mem.read b i = d.mem.read b i) ∧
      ∀ i, i < n →
        let rr := ns.add (ns.mul (yr (i + size / 2)) (co (i * (c.N / size)))) (ns.mul (yi (i + size / 2)) (si (i * (c.N / size))))
        let ri := ns.sub (ns.mul (yi (i + size / 2)) (co (i * (c.N / size)))) (ns.mul (yr (i + size / 2)) (si (i * (c.N / size))))
        e.mem.read .outRe (ooff + i) = some (ns.add (yr i) rr) ∧ e.mem.read .outIm (ooff + i) = some (ns.add (yi i) ri) ∧
        e.mem.read .outRe (ooff + i + size / 2) = some (ns.sub (yr i) rr) ∧
        e.mem.read .outIm (ooff + i + size / 2) = some (ns.sub (yi i) ri))
    (by
      rintro n e hn ⟨h1, h3⟩
      have hp : n * (c.N / size) < c.N := phase_inc_lt h0 hsN (by omega)
      have hlo := hy n (by omega)
      have hhi := hy (n + size / 2) (by omega)
      rw [← Nat.add_assoc] at hhi
      obtain ⟨hlo1, hlo2⟩ := hlo
      obtain ⟨hhi1, hhi2⟩ := hhi
      rw [← h1 _ _ (by omega)] at hlo1 hlo2 hhi1 hhi2
      have htp := ht _ hp
      rw [← h1 .twCos _ (by simp), ← h1 .twSin _ (by simp)] at htp
      refine ⟨_, bpassStep_ok_iff.mpr ⟨by omega, _, _, _, _, _, hlo1, hlo2, hhi1, hhi2,
        twmul_ok_iff.mpr ⟨hp, _, _, htp.1, htp.2, rfl⟩, rfl⟩, fun b i hb => ?_, fun i hi => ?_⟩
      · simp only [Memory.read_write]
        rw [if_neg, if_neg, if_neg, if_neg]
        · exact h1 b i (fun hc => hb ⟨hc.1, by omega⟩)
        all_goals (rintro ⟨rfl, rfl⟩; exact hb ⟨by simp, by omega⟩)
      · by_cases hin : i = n
        · subst hin
          have hne : ¬ ooff + i = ooff + i + size / 2 := by omega
          have hne' : ¬ ooff + i + size / 2 = ooff + i := by omega
          simp only [Memory.read_write, hne, hne']
          simp
        · have hold := h3 i (by omega)
          simp only [Memory.read_write]
          simp only [show ¬ ooff + i = ooff + n by omega, show ¬ ooff + i = ooff + n + size / 2 by omega,
            show ¬ ooff + i + size / 2 = ooff + n by omega, show ¬ ooff + i + size / 2 = ooff + n + size / 2 by omega,
            and_false, if_false]
          exact hold)
    ⟨fun _ _ _ => rfl, fun k hk => absurd hk (Nat.not_lt_zero _)⟩
  exact ⟨x.endTask, by simp [bpassTask, hx'], hP.2⟩

end Sys2Proof.Machine
end

