-- ==== Sys2Proof/Laws/Progress.lean ====
section
/-! SUPPORT. What a task does not depend on (the rest of the stack, IT, the working registers before it), the steps of the
loop controller of FFT2 as one task and a new IT, and progress: every unit, task and transform on operands that fit ends
well or stops at a word that holds no value. -/

namespace Sys2Proof.Machine

/-! ### Configurations -/

/-- The task stack of a configuration that meets its constraints (R12). -/
theorem cfg_stack_le {c : Config} (h : c.wellFormed = true) : 2 * c.n + 1 ≤ c.stackDepth := by
  simp [Config.wellFormed] at h; omega

/-- The number of blocks of a configuration that meets its constraints (R141). -/
theorem cfg_blocks_spec {c : Config} (hc : c.wellFormed = true) : 0 < c.stackDepth ∧ c.blocks = 2^(c.n - c.b) ∧ c.N = c.B * c.blocks ∧ c.b ≤ c.n := by
  have h : c.b ≤ c.n ∧ 1 ≤ c.stackDepth := by simp [Config.wellFormed] at hc; omega
  have h2 : c.blocks = 2^(c.n - c.b) := by
    unfold Config.blocks Config.N Config.B
    rw [Nat.pow_div h.1 (by omega)]
  refine ⟨h.2, h2, ?_, h.1⟩
  rw [h2]; unfold Config.N Config.B
  rw [← Nat.pow_add]; congr 1; omega

variable {α : Type} {ns : NumSys α} {c : Config}

/-! ### What a task does not depend on -/

def Datapath.withSeq (r : List Task) (d : Datapath α) : Datapath α := { d with seq := r }

def Datapath.withIt (it : LoopRegs) (d : Datapath α) : Datapath α := { d with it := it }

def Datapath.withWork (w : Work α) (d : Datapath α) : Datapath α := { d with work := w }

/-- A loop whose rounds commute with a map of the state commutes with it. -/
theorem forN_map {σ τ} (g : σ → τ) (f : Nat → σ → Res σ) (f' : Nat → τ → Res τ)
   (h : ∀ i x, f' i (g x) = (f i x).map g) : ∀ n x, forN n f' (g x) = (forN n f x).map g := by
  intro n
  induction n with
  | zero => intro x; rfl
  | succ n ih =>
    intro x
    simp only [forN, ih]
    cases forN n f x with
    | error e => rfl
    | ok y => exact h n y

/-- A map after a sequence is a map after its second operation. -/
theorem Res.map_bind {β γ δ} (x : Res β) (f : β → Res γ) (g : γ → δ) : (x >>= f).map g = x >>= fun a => (f a).map g := by
  cases x <;> rfl

/-- A DFT task does not depend on the rest of the stack. -/
theorem dftTask_withItthSeq {ioff ooff size stride r} (d : Datapath α) :
    dftTask ns c ioff ooff size stride (Datapath.withSeq r d) = (dftTask ns c ioff ooff size stride d).map (Datapath.withSeq r) := by
  unfold dftTask
  rw [forN_map (Datapath.withSeq r) (dftBinStep ns c ioff ooff size stride) (dftBinStep ns c ioff ooff size stride)]
  · cases forN size (dftBinStep ns c ioff ooff size stride) d <;> rfl
  · intro i x
    unfold dftBinStep
    simp only [Res.map_bind]
    rfl

/-- A pass does not depend on the rest of the stack. -/
theorem bpassTask_withItthSeq {ooff size r} (d : Datapath α) :
    bpassTask ns c ooff size (Datapath.withSeq r d) = (bpassTask ns c ooff size d).map (Datapath.withSeq r) := by
  unfold bpassTask
  rw [forN_map (Datapath.withSeq r) (bpassStep ns c ooff size) (bpassStep ns c ooff size)]
  · cases forN (size/2) (bpassStep ns c ooff size) d <;> rfl
  · intro i x
    unfold bpassStep
    simp only [Res.map_bind]
    rfl

/-- A DFT task does not depend on IT. -/
theorem dftTask_withIt {ioff ooff size stride r} (d : Datapath α) :
    dftTask ns c ioff ooff size stride (Datapath.withIt r d) = (dftTask ns c ioff ooff size stride d).map (Datapath.withIt r) := by
  unfold dftTask
  rw [forN_map (Datapath.withIt r) (dftBinStep ns c ioff ooff size stride) (dftBinStep ns c ioff ooff size stride)]
  · cases forN size (dftBinStep ns c ioff ooff size stride) d <;> rfl
  · intro i x
    unfold dftBinStep
    simp only [Res.map_bind]
    rfl

/-- A pass does not depend on IT. -/
theorem bpassTask_withIt {ooff size r} (d : Datapath α) :
    bpassTask ns c ooff size (Datapath.withIt r d) = (bpassTask ns c ooff size d).map (Datapath.withIt r) := by
  unfold bpassTask
  rw [forN_map (Datapath.withIt r) (bpassStep ns c ooff size) (bpassStep ns c ooff size)]
  · cases forN (size/2) (bpassStep ns c ooff size) d <;> rfl
  · intro i x
    unfold bpassStep
    simp only [Res.map_bind]
    rfl

/-- A DFT task is its loop over the bins and then the end of the task. -/
theorem dftTask_map {ioff ooff size stride} (d : Datapath α) : dftTask ns c ioff ooff size stride d = (forN size (dftBinStep ns c ioff ooff size stride) d).map (Datapath.withWork .dead) := by
  unfold dftTask
  cases forN size (dftBinStep ns c ioff ooff size stride) d <;> rfl

/-- A DFT task does not depend on the working registers before it. -/
theorem dftTask_withWork {ioff ooff size stride r} (d : Datapath α) :
    dftTask ns c ioff ooff size stride (Datapath.withWork r d) = dftTask ns c ioff ooff size stride d := by
  have key : ∀ x : Datapath α, forN size (fun i x => (dftBinStep ns c ioff ooff size stride i x).map (Datapath.withWork .dead)) (Datapath.withWork Work.dead x)
     = (forN size (dftBinStep ns c ioff ooff size stride) x).map (Datapath.withWork .dead) :=
    fun x => forN_map (Datapath.withWork .dead) (dftBinStep ns c ioff ooff size stride) _ (fun i x => rfl) size x
  rw [dftTask_map, dftTask_map, ← key, ← key]
  rfl

/-! ### The loop controller of FFT2 -/

/-- A step in phase SCATTER: one block, then the next block or the first stage (R144). -/
theorem scatterStep_eq {j : Nat} {d : Datapath α} (hs : d.seq = []) (hc : 0 < c.stackDepth) :
    scatterStep ns c (Datapath.withIt ⟨.scatter, j, 0, 0⟩ d) = (fft2Block ns c j d).map
      (Datapath.withIt (if j + 1 < c.blocks then ⟨.scatter, j+1, 0, 0⟩ else ⟨.stages, 0, 2 * c.B, 0⟩)) := by
  unfold scatterStep fft2Block brevnet
  simp only [Datapath.withIt]
  cases hb : brevnetRegs j c.blocks with
  | error e => rfl
  | ok x =>
    simp only [Res.ok_bind]
    rw [← bind_assoc, runSeq_dft (by exact hs) hc]
    have : ({ mem := d.mem, seq := d.seq, it := ⟨.scatter, j, 0, 0⟩, work := Work.brev x } : Datapath α) = Datapath.withWork (.brev x) (Datapath.withIt ⟨.scatter, j, 0, 0⟩ d) := rfl
    rw [this, dftTask_withWork, dftTask_withIt]
    cases dftTask ns c j (c.B * x.r) c.B c.blocks d with
    | error e => rfl
    | ok e =>
      simp only [Except.map, Res.ok_bind]
      by_cases h : j + 1 < c.blocks <;> simp [h, Datapath.withIt]

/-- A step in phase STAGES: one pass, then the next window or the next width (R144). -/
theorem stagesStep_eq {w base : Nat} {d : Datapath α} (hs : d.seq = []) (hc : 0 < c.stackDepth) (hw : w ≤ c.N) :
    stagesStep ns c (Datapath.withIt ⟨.stages, 0, w, base⟩ d) = (bpassTask ns c base w d).map
      (Datapath.withIt (if base + w < c.N then ⟨.stages, 0, w, base + w⟩ else ⟨.stages, 0, 2 * w, 0⟩)) := by
  unfold stagesStep
  simp only [Datapath.withIt, show ¬ w > c.N by omega, if_false]
  rw [← bind_assoc, runSeq_bpass (by exact hs) hc]
  have : ({ mem := d.mem, seq := d.seq, it := ⟨.stages, 0, w, base⟩, work := d.work } : Datapath α) = (Datapath.withIt ⟨.stages, 0, w, base⟩ d) := rfl
  rw [this, bpassTask_withIt]
  cases bpassTask ns c base w d with
  | error e => rfl
  | ok e =>
    simp only [Except.map, Res.ok_bind]
    by_cases h : base + w < c.N <;> simp [h, Datapath.withIt]

/-- A block leaves SEQ as it was. -/
theorem fft2Block_seq {j} {d e : Datapath α} (h : fft2Block ns c j d = .ok e) : e.seq = d.seq := by
  obtain ⟨r, hr, h⟩ := Res.bind_ok_iff.mp h
  exact (dftTask_frame h).1

/-! ### Progress -/

/-- `m'` holds a value wherever `m` does: the engine never takes a value away (R40). -/
def Memory.Fills (m m' : Memory α) : Prop := ∀ b i, m'.read b i = none → m.read b i = none

theorem Memory.Fills.refl (m : Memory α) : m.Fills m := fun _ _ h => h

theorem Memory.Fills.trans {m m' m'' : Memory α} (h : m.Fills m') (h' : m'.Fills m'') : m.Fills m'' :=
  fun b i hn => h b i (h' b i hn)

theorem Memory.Fills.write (m : Memory α) (b : BankId) (i : Nat) (v : α) : m.Fills (m.write b i v) := by
  intro b' j h
  rw [Memory.read_write] at h
  split at h
  · cases h
  · exact h

/-- One bin of a DFT task takes no value away. -/
theorem dftBinStep_fills {ioff ooff size stride k : Nat} {d e : Datapath α}
    (h : dftBinStep ns c ioff ooff size stride k d = .ok e) : d.mem.Fills e.mem := by
  unfold dftBinStep at h
  simp only [Res.bind_ok_iff, store_ok_iff, Except.ok.injEq] at h
  obtain ⟨r, _, m1, ⟨_, rfl⟩, m2, ⟨_, rfl⟩, rfl⟩ := h
  exact (Memory.Fills.write _ _ _ _).trans (Memory.Fills.write _ _ _ _)

/-- A DFT task takes no value away. -/
theorem dftTask_fills {ioff ooff size stride : Nat} {d e : Datapath α}
    (h : dftTask ns c ioff ooff size stride d = .ok e) : d.mem.Fills e.mem := by
  obtain ⟨x, hx, he⟩ := Res.bind_ok_iff.mp h
  cases he
  exact forN_invariant (f := dftBinStep ns c ioff ooff size stride) (y := x)
    (fun _ (y : Datapath α) => d.mem.Fills y.mem) (fun _ _ _ hP hs => hP.trans (dftBinStep_fills hs)) (Memory.Fills.refl _) hx

/-- A pass takes no value away. -/
theorem bpassTask_fills {ooff size : Nat} {d e : Datapath α} (h : bpassTask ns c ooff size d = .ok e) :
    d.mem.Fills e.mem := by
  obtain ⟨x, hx, he⟩ := Res.bind_ok_iff.mp h
  cases he
  refine forN_invariant (f := bpassStep ns c ooff size) (y := x) (fun _ (y : Datapath α) => d.mem.Fills y.mem)
    (fun i y z hP hs => hP.trans ?_)
    (Memory.Fills.refl _) hx
  obtain ⟨_, _, _, _, _, _, _, _, _, _, _, rfl⟩ := bpassStep_ok_iff.mp hs
  exact (((Memory.Fills.write _ _ _ _).trans (Memory.Fills.write _ _ _ _)).trans (Memory.Fills.write _ _ _ _)).trans
    (Memory.Fills.write _ _ _ _)

/-- The operation ended well or stopped at a word that holds no value in `m`. -/
def OkOrNoValue {β} (m : Memory α) (r : Res β) : Prop :=
  (∃ a, r = .ok a) ∨ ∃ b i, m.read b i = none ∧ r = .error (.refuse (.noValue b i))

variable {m₀ : Memory α}

/-- Progress of a sequence. -/
theorem OkOrNoValue.bind {β γ} {x : Res β} {f : β → Res γ} (hx : OkOrNoValue m₀ x)
    (hf : ∀ a, x = .ok a → OkOrNoValue m₀ (f a)) : OkOrNoValue m₀ (x >>= f) := by
  rcases hx with ⟨a, rfl⟩ | ⟨b, i, hb, rfl⟩
  · exact hf a rfl
  · exact .inr ⟨b, i, hb, rfl⟩

/-- An operation that ended well. -/
theorem OkOrNoValue.ok {β} (a : β) : OkOrNoValue m₀ (.ok a : Res β) := .inl ⟨a, rfl⟩

/-- Progress of a loop, with what its rounds keep. -/
theorem OkOrNoValue.forN {σ} {f : Nat → σ → Res σ} (P : Nat → σ → Prop) {n}
    (h : ∀ i x, i < n → P i x → OkOrNoValue m₀ (f i x) ∧ ∀ y, f i x = .ok y → P (i + 1) y) {x} (h0 : P 0 x) :
    OkOrNoValue m₀ (forN n f x) := by
  have : ∀ k, k ≤ n → OkOrNoValue m₀ (Sys2Proof.Machine.forN k f x) ∧
      ∀ y, Sys2Proof.Machine.forN k f x = .ok y → P k y := by
    intro k
    induction k with
    | zero => intro _; exact ⟨OkOrNoValue.ok _, fun y hy => by cases hy; exact h0⟩
    | succ k ih =>
      intro hk
      obtain ⟨h1, h2⟩ := ih (by omega)
      refine ⟨h1.bind fun a ha => (h k a (by omega) (h2 a ha)).1, fun y hy => ?_⟩
      obtain ⟨z, hz, hy⟩ := Res.bind_ok_iff.mp hy
      exact (h k z (by omega) (h2 z hz)).2 y hy
  exact (this n (Nat.le_refl _)).1

/-- Progress of an engine read below N. -/
theorem OkOrNoValue.load {m : Memory α} {b i} (hm : m₀.Fills m) (h : i < c.N) : OkOrNoValue m₀ (m.load c b i) := by
  cases hr : m.load c b i with
  | ok v => exact OkOrNoValue.ok _
  | error e =>
    rcases load_error_iff.mp hr with ⟨hn, _⟩ | ⟨_, hn, rfl⟩
    · omega
    · exact .inr ⟨_, _, hm _ _ hn, rfl⟩

/-- Progress of an engine write below N. -/
theorem OkOrNoValue.store {m : Memory α} {b i v} (h : i < c.N) : OkOrNoValue m₀ (m.store c b i v) := by
  unfold Memory.store; rw [if_pos h]; exact OkOrNoValue.ok _

/-- Progress of TWMUL below N. -/
theorem OkOrNoValue.twmul {m : Memory α} {xr xi p} (hm : m₀.Fills m) (h : p < c.N) :
    OkOrNoValue m₀ (twmul ns c m xr xi p) := by
  unfold Sys2Proof.Machine.twmul
  exact (OkOrNoValue.load hm h).bind fun _ _ => (OkOrNoValue.load hm h).bind fun _ _ => OkOrNoValue.ok _

/-- Progress of DFTBIN in its domain. -/
theorem OkOrNoValue.dftbinRegs {m : Memory α} {ioff size stride k} (hm : m₀.Fills m)
    (hd : dftbinDomain c ioff size stride k = true) : OkOrNoValue m₀ (dftbinRegs ns c m ioff size stride k) := by
  obtain ⟨_, hsN, hstr, hview, hk⟩ := dftbinDomain_iff.mp hd
  have h0 : 0 < size := by omega
  have hinc := phase_inc_lt h0 hsN hk
  unfold Sys2Proof.Machine.dftbinRegs
  rw [if_pos hd]
  refine OkOrNoValue.forN (fun i (r : DftRegs α) => r.s = i ∧ r.k = k ∧ r.ph < c.N) (fun i r hi hP => ?_)
    ⟨rfl, rfl, by simp [dftStart]; omega⟩
  obtain ⟨h1, h2, h3⟩ := hP
  have hidx : viewIndex ioff stride r.s < c.N := by
    have : r.s * stride ≤ (size - 1) * stride := Nat.mul_le_mul_right _ (by omega)
    unfold viewIndex; omega
  constructor
  · unfold dftSample
    exact (OkOrNoValue.load hm hidx).bind fun _ _ => (OkOrNoValue.load hm hidx).bind fun _ _ =>
      (OkOrNoValue.twmul hm h3).bind fun _ _ => OkOrNoValue.ok _
  · intro y hy
    obtain ⟨_, _, _, _, _, _, rfl⟩ := dftSample_ok_iff.mp hy
    refine ⟨by simp [h1], h2, ?_⟩
    dsimp only
    rw [h2]
    split <;> omega

/-- Progress of a DFT task on operands that fit (R105). -/
theorem OkOrNoValue.dftTask {d : Datapath α} {ioff ooff size stride} (hm : m₀.Fills d.mem) (hsz : ∃ q, size = 2 ^ q)
    (hsN : size ≤ c.N) (hstr : stride * size ≤ c.N) (hv : ioff + (size - 1) * stride ≤ c.N - 1) (ho : ooff + size ≤ c.N) :
    OkOrNoValue m₀ (dftTask ns c ioff ooff size stride d) := by
  unfold Sys2Proof.Machine.dftTask
  refine (OkOrNoValue.forN (fun _ (x : Datapath α) => m₀.Fills x.mem)
    (fun i x hi hx => ⟨?_, fun y hy => hx.trans (dftBinStep_fills hy)⟩) hm).bind fun _ _ => OkOrNoValue.ok _
  unfold dftBinStep
  exact (OkOrNoValue.dftbinRegs hx (dftbinDomain_iff.mpr ⟨hsz, hsN, hstr, hv, hi⟩)).bind fun _ _ =>
    (OkOrNoValue.store (by unfold runIndex; omega)).bind fun _ _ =>
    (OkOrNoValue.store (by unfold runIndex; omega)).bind fun _ _ => OkOrNoValue.ok _

/-- Progress of a pass on a window in the bank (R116). -/
theorem OkOrNoValue.bpassTask {d : Datapath α} {ooff size} (hm : m₀.Fills d.mem) (h0 : 0 < size) (hsN : size ≤ c.N)
    (ho : ooff + size ≤ c.N) : OkOrNoValue m₀ (bpassTask ns c ooff size d) := by
  unfold Sys2Proof.Machine.bpassTask
  refine (OkOrNoValue.forN (fun _ (x : Datapath α) => m₀.Fills x.mem) (fun i x hi hx => ⟨?_, fun y hy => ?_⟩) hm).bind
    fun _ _ => OkOrNoValue.ok _
  · have hp : i * (c.N / size) < c.N := phase_inc_lt h0 hsN (by omega)
    have h1 : runIndex ooff i < c.N := by unfold runIndex; omega
    have h2 : runIndex ooff i + size / 2 < c.N := by unfold runIndex; omega
    unfold bpassStep bfly
    exact (OkOrNoValue.load hx h1).bind fun _ _ => (OkOrNoValue.load hx h1).bind fun _ _ =>
      (OkOrNoValue.load hx h2).bind fun _ _ => (OkOrNoValue.load hx h2).bind fun _ _ =>
      ((OkOrNoValue.twmul hx hp).bind fun _ _ => OkOrNoValue.ok _).bind fun _ _ =>
      (OkOrNoValue.store h1).bind fun _ _ => (OkOrNoValue.store h1).bind fun _ _ =>
      (OkOrNoValue.store h2).bind fun _ _ => (OkOrNoValue.store h2).bind fun _ _ => OkOrNoValue.ok _
  · obtain ⟨_, _, _, _, _, _, _, _, _, _, _, rfl⟩ := bpassStep_ok_iff.mp hy
    exact hx.trans ((((Memory.Fills.write _ _ _ _).trans (Memory.Fills.write _ _ _ _)).trans
      (Memory.Fills.write _ _ _ _)).trans (Memory.Fills.write _ _ _ _))

/-- The recursive transform takes no value away. -/
theorem fft1Rec_fills : ∀ {l ioff ooff size stride : Nat} {d e : Datapath α},
    fft1Rec ns c l ioff ooff size stride d = .ok e → d.mem.Fills e.mem := by
  intro l
  induction l with
  | zero => intro _ _ _ _ d e h; cases h
  | succ l ih =>
    intro ioff ooff size stride d e h
    simp only [Sys2Proof.Machine.fft1Rec] at h
    split at h
    · obtain ⟨y, hy, hz⟩ := Res.bind_ok_iff.mp h
      obtain ⟨z, hz1, hz2⟩ := Res.bind_ok_iff.mp hz
      exact ((ih hy).trans (ih hz1)).trans (bpassTask_fills hz2)
    · obtain ⟨y, hy, hz⟩ := Res.bind_ok_iff.mp h
      obtain ⟨z, hz1, hz2⟩ := Res.bind_ok_iff.mp hz
      exact ((dftTask_fills hy).trans (dftTask_fills hz1)).trans (bpassTask_fills hz2)

/-- Progress of the recursive transform on operands that fit (R122, R126). -/
theorem OkOrNoValue.fft1Rec : ∀ l size, size = 2^l → 1 ≤ l → ∀ (ioff ooff stride : Nat) (d : Datapath α), m₀.Fills d.mem → size ≤ c.N → stride * size ≤ c.N →
    ioff + (size - 1) * stride ≤ c.N - 1 → ooff + size ≤ c.N → OkOrNoValue m₀ (fft1Rec ns c l ioff ooff size stride d) := by
  intro l
  induction l with
  | zero => intro _ _ h; omega
  | succ l ih =>
    intro size hs _ ioff ooff stride d hm h1 h2 h3 h4
    have hhalf : size / 2 = 2 ^ l := by rw [hs, Nat.pow_succ]; omega
    have hsz : size = size/2 + size/2 := by rw [hhalf, hs, Nat.pow_succ]; omega
    have hpos : 0 < size / 2 := by rw [hhalf]; positivity
    have hb : ∀ d' : Datapath α, m₀.Fills d'.mem → OkOrNoValue m₀ (Sys2Proof.Machine.bpassTask ns c ooff size d') :=
      fun d' hd => OkOrNoValue.bpassTask hd (by omega) h1 h4
    have g2 : 2 * stride * (size / 2) ≤ c.N := by
      have : 2 * stride * (size / 2) = stride * size := by conv => rhs; rw [hsz]
                                                           ring
      omega
    generalize hh : size / 2 = half at *
    have gv : ioff + (half - 1) * (2 * stride) ≤ ioff + (size - 1) * stride ∧ ioff + stride + (half - 1) * (2 * stride) = ioff + (size - 1) * stride := by
      obtain ⟨u, rfl⟩ : ∃ u, half = u + 1 := ⟨half - 1, by omega⟩
      have : size - 1 = 2 * u + 1 := by omega
      rw [this, Nat.add_sub_cancel]
      constructor <;> nlinarith
    simp only [Sys2Proof.Machine.fft1Rec, hh]
    split
    · next hcnd =>
      have hl1 : 1 ≤ l := by
        cases l with
        | zero => simp [hhalf] at hcnd
        | succ l => omega
      refine (ih half hhalf hl1 _ _ _ _ hm (by omega) g2 (by omega) (by omega)).bind fun _ hx => ?_
      have hm' := hm.trans (fft1Rec_fills hx)
      exact (ih half hhalf hl1 _ _ _ _ hm' (by omega) g2 (by omega) (by omega)).bind fun _ hy =>
        hb _ (hm'.trans (fft1Rec_fills hy))
    · refine (OkOrNoValue.dftTask hm ⟨l, hhalf⟩ (by omega) g2 (by omega) (by omega)).bind fun _ hx => ?_
      have hm' := hm.trans (dftTask_fills hx)
      exact (OkOrNoValue.dftTask hm' ⟨l, hhalf⟩ (by omega) g2 (by omega) (by omega)).bind fun _ hy =>
        hb _ (hm'.trans (dftTask_fills hy))

/-- Progress of the nested loops of FFT2 (R142, R148). -/
theorem OkOrNoValue.fft2Loops (hc : c.wellFormed = true) {d : Datapath α} (hm : m₀.Fills d.mem) : OkOrNoValue m₀ (fft2Loops ns c d) := by
  obtain ⟨h0, hb, hN, hbn⟩ := cfg_blocks_spec hc
  have hBpos : 0 < c.B := by unfold Config.B; positivity
  have hbpos : 0 < c.blocks := by rw [hb]; positivity
  unfold Sys2Proof.Machine.fft2Loops
  have block : ∀ {j : Nat} {x y : Datapath α}, fft2Block ns c j x = .ok y → x.mem.Fills y.mem := by
    intro j x y hy
    obtain ⟨_, _, hy⟩ := Res.bind_ok_iff.mp hy
    exact dftTask_fills hy
  have stage : ∀ {w : Nat} {x y : Datapath α}, fft2Stage ns c w x = .ok y → x.mem.Fills y.mem := fun hy =>
    forN_invariant (fun _ (z : Datapath α) => Memory.Fills _ z.mem) (fun _ _ _ hP hs => hP.trans (bpassTask_fills hs))
      (Memory.Fills.refl _) hy
  refine (OkOrNoValue.forN (fun _ (x : Datapath α) => m₀.Fills x.mem)
    (fun j x hj hx => ⟨?_, fun y hy => hx.trans (block hy)⟩) hm).bind fun e he =>
    OkOrNoValue.forN (fun _ (x : Datapath α) => m₀.Fills x.mem) (fun q x hq hx => ⟨?_, fun y hy => hx.trans (stage hy)⟩)
      (hm.trans (forN_invariant (fun _ (z : Datapath α) => d.mem.Fills z.mem) (fun _ _ _ hP hs => hP.trans (block hs))
        (Memory.Fills.refl _) he))
  · unfold fft2Block brevnet
    rw [hb] at hj
    obtain ⟨r, hr, hlt, _⟩ := brevnetRegs_ok hj
    rw [hb, hr]
    simp only [Res.ok_bind]
    rw [← hb] at hj hlt ⊢
    refine OkOrNoValue.dftTask hx ⟨c.b, rfl⟩ ?_ ?_ ?_ ?_
    · rw [hN]; exact Nat.le_mul_of_pos_right _ hbpos
    · rw [hN, Nat.mul_comm]
    · obtain ⟨u, hu⟩ : ∃ u, c.B = u + 1 := ⟨c.B - 1, by omega⟩
      rw [hN, hu, Nat.add_sub_cancel, Nat.add_mul]; omega
    · have : c.B * (r + 1) ≤ c.B * c.blocks := Nat.mul_le_mul_left _ hlt
      rw [hN]; rw [Nat.mul_add] at this; omega
  · unfold fft2Stage
    have hw : c.N = 2^(c.n - c.b - (q+1)) * (2 ^ (q + 1) * c.B) := by
      unfold Config.N Config.B
      rw [← Nat.pow_add, ← Nat.pow_add]; congr 1; omega
    generalize hw' : 2 ^ (q + 1) * c.B = w at *
    have hw0 : 0 < w := by rw [← hw']; positivity
    generalize 2^(c.n - c.b - (q+1)) = M at hw
    have hdiv : c.N / w = M := by rw [hw]; exact Nat.mul_div_cancel _ hw0
    rw [hdiv]
    refine OkOrNoValue.forN (fun _ (y : Datapath α) => m₀.Fills y.mem)
      (fun i y hi hy => ⟨?_, fun z hz => hy.trans (bpassTask_fills hz)⟩) hx
    have : (i+1) * w ≤ M * w := Nat.mul_le_mul_right w (by omega)
    rw [Nat.add_mul] at this
    exact OkOrNoValue.bpassTask hy hw0 (by omega) (by omega)

end Sys2Proof.Machine
end

