-- ==== Sys2Proof/Tests/Slice0.lean ====
section
/-! SUPPORT. Small tests of the model on values of the spec (spec/95_test_vectors.md and the worked examples of the rules),
and for every statement with hypotheses a witness that they can be met together. -/

open Sys2Proof Sys2Proof.Machine

namespace Sys2Proof.Tests

/-! ### Small machines -/

/-- N = 2, T = 0, B = 1. -/
def cfg2 : Config := ⟨1, 0, 0, 3⟩

/-- N = 4, T = 1, B = 2. -/
def cfg4 : Config := ⟨2, 1, 1, 5⟩

/-- Bit patterns of −1, −0.5, 0.5, 1, 2, 2.5, 3, 4 (spec/95_test_vectors.md). -/
def neg1 : Num64 := 0xBFF0000000000000#64
def negHalf : Num64 := 0xBFE0000000000000#64
def half : Num64 := 0x3FE0000000000000#64
def one : Num64 := 0x3FF0000000000000#64
def two : Num64 := 0x4000000000000000#64
def twoHalf : Num64 := 0x4004000000000000#64
def three : Num64 := 0x4008000000000000#64
def four : Num64 := 0x4010000000000000#64

/-- The tables of N = 2 and N = 4 (R91) and the input 1, 2, 3, 4 of the worked examples of R105, R122, R142. -/
def mem2 : Memory Num64 :=
  ⟨[(0, one), (1, two)], [(0, 0), (1, 0)], [(0, one), (1, two)], [(0, 0), (1, 0)], [(0, one), (1, neg1)], [(0, 0), (1, 0)]⟩

def mem4 : Memory Num64 :=
  ⟨[(0, one), (1, two), (2, three), (3, four)], [(0, 0), (1, 0), (2, 0), (3, 0)], [], [],
    [(0, one), (1, 0), (2, neg1), (3, 0)], [(0, 0), (1, one), (2, 0), (3, neg1)]⟩

/-- A machine with the given parameters and banks, INIT done, SIZE and STRIDE as given, IOFF = OOFF = 0. -/
def machine (c : Config) (m : Memory Num64) (size stride : Word) : State :=
  { State.resetWith c with
    status := ⟨true, false, true, .noFault⟩, size := size, stride := stride, dp := ⟨m, [], LoopRegs.idle, .dead⟩ }

def m2 : State := machine cfg2 mem2 2 1
def m4 : State := machine cfg4 mem4 4 1

/-- The machine with one transaction pending. -/
def withReq (s : State) (r : Request) : State := { s with bus := ⟨[r], []⟩ }

/-- Whether a command ended with a next state in which ERR = 0. -/
def completes : Host.Outcome State Fault Refusal → Bool
  | .next t => !t.status.err
  | .fault _ => false
  | .refused _ => false

/-- The output banks after a completed command. -/
def outputs : Host.Outcome State Fault Refusal → Option (Bank Num64 × Bank Num64)
  | .next t => if t.status.err then none else some (t.dp.mem.outRe, t.dp.mem.outIm)
  | .fault _ => none
  | .refused _ => none

/-- STATUS, FCMD and RESULT after a step. -/
def registers : Host.Outcome State Fault Refusal → Option (Word × Word × Word)
  | .next t => some (t.status.toWord, t.fcmd, t.result)
  | .fault _ => none
  | .refused _ => none

/-- STATUS and the twiddle banks after a step. -/
def statusAndTable : Host.Outcome State Fault Refusal → Option (Word × Bank Num64 × Bank Num64)
  | .next t => some (t.status.toWord, t.dp.mem.twCos, t.dp.mem.twSin)
  | .fault _ => none
  | .refused _ => none

theorem completes_next {o : Host.Outcome State Fault Refusal} (h : completes o = true) :
    ∃ t, o = .next t ∧ t.status.err = false := by
  cases o with
  | next t => exact ⟨t, rfl, by simpa [completes] using h⟩
  | fault f => simp [completes] at h
  | refused r => simp [completes] at h

/-! ### Decoding: words written out from R65 and R67 (bits 31:4 zero, opcode in bits 3:0) -/

theorem test_decode_init : decode 0b00000000000000000000000000000001#32 = .ok .init := by decide
theorem test_decode_dft : decode 0b00000000000000000000000000000010#32 = .ok .dft := by decide
theorem test_decode_fft1 : decode 0b00000000000000000000000000000011#32 = .ok .fft1 := by decide
theorem test_decode_fft2 : decode 0b00000000000000000000000000000100#32 = .ok .fft2 := by decide
theorem test_decode_bpass : decode 0b00000000000000000000000000000101#32 = .ok .bpass := by decide
theorem test_decode_brev : decode 0b00000000000000000000000000000110#32 = .ok .brev := by decide
theorem test_decode_illegal :
    decode 0#32 = .error (.illegalOpcode 0#4) ∧ decode 7#32 = .error (.illegalOpcode 7#4) ∧
      decode 0x12#32 = .error .reservedBits ∧ decode 0xFFFFFFFF#32 = .error .reservedBits := by decide

/-! ### Well-formedness: an ill-formed term for each check -/

theorem test_wf_config : Config.reference.wellFormed = true ∧ cfg2.wellFormed = true ∧ cfg4.wellFormed = true := by decide
theorem test_wf_n_zero : (Config.mk 0 0 0 1).wellFormed = false := by decide
theorem test_wf_n_large : (Config.mk 31 0 0 63).wellFormed = false := by decide
theorem test_wf_T_large : (Config.mk 3 4294967296 1 7).wellFormed = false := by decide
theorem test_wf_b_large : (Config.mk 3 2 4 7).wellFormed = false := by decide
theorem test_wf_stack_small : (Config.mk 3 2 1 6).wellFormed = false := by decide
theorem test_wf_word_reserved : wordWellFormed 0x12#32 = false := by decide
theorem test_wf_word_zero : wordWellFormed 0#32 = false := by decide
theorem test_wf_word_seven : wordWellFormed 7#32 = false := by decide

/-! ### The commands -/

/-- R93: INIT after reset with N = 8 gives STATUS = 5 and the table of R92. -/
theorem test_init :
    statusAndTable (step (State.reset.withFetchWord 32 1)) =
      some (5, [(0, one), (1, 0x3FE6A09E667F3BCD#64), (2, 0), (3, 0xBFE6A09E667F3BCD#64), (4, neg1),
        (5, 0xBFE6A09E667F3BCD#64), (6, 0), (7, 0x3FE6A09E667F3BCD#64)],
        [(0, 0), (1, 0x3FE6A09E667F3BCD#64), (2, one), (3, 0x3FE6A09E667F3BCD#64), (4, 0),
        (5, 0xBFE6A09E667F3BCD#64), (6, neg1), (7, 0xBFE6A09E667F3BCD#64)]) := by decide +kernel

/-- R94 (c): a second INIT faults TABLE_REINIT. -/
theorem test_init_again : registers (exec .init m4) = some (0x33, 1, 0) := by decide +kernel

/-- R105: worked example. -/
theorem test_dft : outputs (exec .dft m4) =
    some ([(0, twoHalf), (1, negHalf), (2, negHalf), (3, negHalf)], [(0, 0), (1, half), (2, 0), (3, negHalf)]) := by
  decide +kernel

/-- R164: before INIT, DFT with a bad size reports TABLE_NOT_INIT. -/
theorem test_dft_priority :
    registers (exec .dft { State.reset with size := 3, stride := 9 }) = some (0x22, 2, 0) := by decide +kernel

/-- R122: worked example. -/
theorem test_fft1 : outputs (exec .fft1 m4) =
    some ([(0, twoHalf), (1, negHalf), (2, negHalf), (3, negHalf)], [(0, 0), (1, half), (2, 0), (3, negHalf)]) := by
  decide +kernel

/-- R128 (d): size 1 is refused with BAD_SIZE. -/
theorem test_fft1_size_one : registers (exec .fft1 { m4 with size := 1 }) = some (0x43, 3, 0) := by decide +kernel

/-- R142: worked example. -/
theorem test_fft2 : outputs (exec .fft2 m4) =
    some ([(0, twoHalf), (1, negHalf), (2, negHalf), (3, negHalf)], [(0, 0), (1, half), (2, 0), (3, negHalf)]) := by
  decide +kernel

/-- R149 (c): a size below N is refused with BAD_SIZE. -/
theorem test_fft2_size : registers (exec .fft2 { m4 with size := 2 }) = some (0x43, 4, 0) := by decide +kernel

/-- R116: worked example, 0.25 and 0.75 give 1 and −0.5. -/
theorem test_bpass :
    outputs (exec .bpass { m4 with size := 2, dp := { m4.dp with mem := { mem4 with
      outRe := [(0, 0x3FD0000000000000#64), (1, 0x3FE8000000000000#64)], outIm := [(0, 0), (1, 0)] } } }) =
    some ([(0, one), (1, negHalf)], [(0, 0), (1, 0)]) := by decide +kernel

/-- R117 (e), R60: a pass over words that hold no value is refused. -/
theorem test_bpass_no_value : exec .bpass { m4 with size := 2 } = .refused (.noValue .outRe 0) := by
  rfl

/-- R137: BREV 3, 8 gives 6. -/
theorem test_brev :
    registers (exec .brev { State.reset with size := 8, ioff := 3 }) = some (0x04, 0, 6) := by decide +kernel

/-- R137: an index not below the count faults BAD_INDEX. -/
theorem test_brev_index :
    registers (exec .brev { State.reset with size := 8, ioff := 8 }) = some (0x72, 6, 0) := by decide +kernel

/-! ### The number system -/

/-- Rounding: 0.1 + 0.2, the smallest subnormal halved to an even zero, overflow, an exact cancellation (R84 to R86). -/
theorem test_arithmetic :
    R64.add 0x3FB999999999999A#64 0x3FC999999999999A#64 = 0x3FD3333333333334#64 ∧
      R64.divn 1 0x0000000000000001#64 = 0#64 ∧ R64.divn 1 0x0000000000000003#64 = 2#64 ∧
      R64.mul 0x7FEFFFFFFFFFFFFF#64 two = 0x7FF0000000000000#64 ∧ R64.sub one one = 0#64 ∧
      R64.add 0x8000000000000000#64 0x8000000000000000#64 = 0x8000000000000000#64 ∧
      R64.mul 0#64 neg1 = 0x8000000000000000#64 := by decide +kernel

/-! ### Witnesses: every hypothesis of a statement can be met, each clause at a boundary of its range -/

theorem witness_ready : Ready m2 ∧ Ready m4 ∧ Ready State.reset := by unfold Ready; decide

theorem witness_StepRunsTheDecodedCommand :
    (withReq m4 ⟨.wr, 0#35, 0xABCDEF0100000002#64⟩).bus.pending = [⟨.wr, 0#35, 0xABCDEF0100000002#64⟩] ∧
      (withReq m4 ⟨.wr, 0#35, 0xABCDEF0100000002#64⟩).dp.isIdle = true ∧
      decode ((0xABCDEF0100000002#64).setWidth 32) = .ok .dft := by decide

theorem witness_IllegalWordFaults :
    Ready (withReq m4 ⟨.wr, 0#35, 0x10#64⟩) ∧
      ((0x10#64).toNat % 2 ^ 32 / 16 ≠ 0 ∧ (0x80000001#64).toNat % 2 ^ 32 / 16 ≠ 0) ∧
      (0xFFFFFFFF00000000#64).toNat % 16 = 0 ∧ 7 ≤ (7#64).toNat % 16 ∧ 7 ≤ (15#64).toNat % 16 := by
  unfold Ready; decide

/-- The fault state of m2. -/
def m2err : State := { m2 with status := ⟨true, true, false, .badSize⟩, fcmd := 2 }

theorem witness_BusErrorsAreExactlyTheListedCases :
    IsBusError m2 ⟨.rd, 0x700000000#35, 0⟩ ∧ IsBusError m2 ⟨.rd, 11#35, 0⟩ ∧ IsBusError m2 ⟨.rd, 0x100000002#35, 0⟩ ∧
      IsBusError m2 ⟨.wr, 0x600000002#35, 0⟩ ∧ IsBusError m2 ⟨.wr, 1#35, 0⟩ ∧ IsBusError m2 ⟨.wr, 6#35, 0⟩ ∧
      IsBusError m2 ⟨.wr, 10#35, 0⟩ ∧ IsBusError m2 ⟨.wr, 0x500000000#35, 0⟩ ∧ IsBusError m2 ⟨.rd, 0#35, 0⟩ ∧
      IsBusError m2err ⟨.wr, 0#35, 0⟩ ∧ ¬IsBusError m2 ⟨.wr, 0#35, 0⟩ ∧ ¬IsBusError m2 ⟨.rd, 10#35, 0⟩ ∧
      ¬IsBusError m2 ⟨.wr, 5#35, 0⟩ ∧ ¬IsBusError m2 ⟨.wr, 0x400000001#35, 0⟩ ∧ ¬IsBusError m2 ⟨.rd, 0x600000001#35, 0⟩ := by
  refine ⟨?_, ?_, ?_, ?_, ?_, ?_, ?_, ?_, ?_, ?_, ?_, ?_, ?_, ?_, ?_⟩ <;> dsimp only [IsBusError] <;> decide

theorem witness_not_bus_error_step :
    completes (step (withReq m2 ⟨.rd, 0x600000001#35, 0⟩)) = true ∧
      (withReq m2 ⟨.rd, 0x600000001#35, 0⟩).dp.isIdle = true := by decide +kernel

theorem witness_ReadsHaveNoSideEffect :
    ∃ t, step (withReq m2 ⟨.rd, 1#35, 0⟩) = .next t ∧ t.status.err = false := completes_next (by decide +kernel)

theorem witness_RegisterReadsGiveTheRegister :
    (withReq m2 ⟨.rd, BitVec.ofNat 35 1, 0⟩).dp.isIdle = true ∧
      (withReq m2 ⟨.rd, BitVec.ofNat 35 10, 0⟩).bus.pending = [⟨.rd, BitVec.ofNat 35 10, 0⟩] := by decide

theorem witness_RegisterWritesStoreTheLowWord :
    (withReq m2 ⟨.wr, 2#35, 0xFFFFFFFF00000008#64⟩).dp.isIdle = true ∧
      (withReq m2 ⟨.wr, 2#35, 8#64⟩).bus.pending = [⟨.wr, 2#35, 8#64⟩] ∧
      (withReq m2 ⟨.wr, 3#35, 8#64⟩).bus.pending = [⟨.wr, 3#35, 8#64⟩] ∧
      (withReq m2 ⟨.wr, 4#35, 8#64⟩).bus.pending = [⟨.wr, 4#35, 8#64⟩] ∧
      (withReq m2 ⟨.wr, 5#35, 8#64⟩).bus.pending = [⟨.wr, 5#35, 8#64⟩] := by decide

theorem witness_SampleWordWriteThenRead :
    (withReq m2 ⟨.wr, BitVec.ofNat 35 (1 * 2 ^ 32 + 1), one⟩).dp.isIdle = true ∧ 1 < m2.cfg.N ∧
      m2.cfg.wellFormed = true ∧
      (withReq m2 ⟨.wr, BitVec.ofNat 35 (4 * 2 ^ 32 + 0), one⟩).bus.pending = [⟨.wr, 0x400000000#35, one⟩] := by decide

theorem witness_WordReadsGiveTheValueOrRefuse :
    m2.dp.mem.read .twSin 1 = some 0#64 ∧ (withReq m4 ⟨.rd, BitVec.ofNat 35 (3 * 2 ^ 32 + 3), 0⟩).dp.isIdle = true ∧
      3 < m4.cfg.N ∧ m4.dp.mem.read .outRe 3 = none := by decide

theorem witness_FaultStateTurnsCommandsAway :
    (withReq m2err ⟨.wr, 0#35, 1⟩).dp.isIdle = true ∧ (withReq m2err ⟨.wr, 0#35, 1⟩).status.err = true := by decide

theorem witness_PseudoInstructionsRunTheirCommand : m2.dp.isIdle = true := by decide

theorem powerOfTwo_one : PowerOfTwo 1 := ⟨0, rfl⟩
theorem powerOfTwo_two : PowerOfTwo 2 := ⟨1, rfl⟩
theorem powerOfTwo_four : PowerOfTwo 4 := ⟨2, rfl⟩

theorem not_powerOfTwo_zero : ¬PowerOfTwo 0 := fun ⟨q, h⟩ => absurd h (Nat.ne_of_lt (Nat.two_pow_pos q))

theorem not_powerOfTwo_three : ¬PowerOfTwo 3 := by
  rintro ⟨q, h⟩
  rcases q with _ | _ | q
  · omega
  · omega
  · have := Nat.two_pow_pos q
    omega

/-- For each clause of the issue checks, operands that meet its premises: bad sizes 0, 3 and 8 = 2N, a stride one past
its limit, a view and a run one past the end of the bank, an index equal to the count. -/
theorem witness_ViolatedPreconditionsFaultInOrder :
    (Ready m4 ∧ m4.status.tvalid = true) ∧ (Ready State.reset ∧ State.reset.status.tvalid = false) ∧
      ¬PowerOfTwo { m4 with size := 0 }.size.toNat ∧ ¬PowerOfTwo { m4 with size := 3 }.size.toNat ∧
      m4.cfg.N < { m4 with size := 8 }.size.toNat ∧ { m4 with size := 1 }.size.toNat < 2 ∧
      { m4 with size := 2 }.size.toNat ≠ m4.cfg.N ∧
      (PowerOfTwo { m4 with size := 2, stride := 3 }.size.toNat ∧
        m4.cfg.N < { m4 with size := 2, stride := 3 }.stride.toNat * { m4 with size := 2, stride := 3 }.size.toNat) ∧
      ({ m4 with size := 2, stride := 2, ioff := 2 }.stride.toNat * 2 ≤ m4.cfg.N ∧
        m4.cfg.N - 1 < { m4 with size := 2, stride := 2, ioff := 2 }.ioff.toNat + (2 - 1) * 2) ∧
      m4.cfg.N < { m4 with size := 2, ooff := 3 }.ooff.toNat + 2 ∧
      { m4 with size := 2, ioff := 2 }.size.toNat ≤ { m4 with size := 2, ioff := 2 }.ioff.toNat := by
  refine ⟨by unfold Ready; decide, by unfold Ready; decide, not_powerOfTwo_zero, not_powerOfTwo_three, by decide, by decide,
    by decide, ⟨powerOfTwo_two, by decide⟩, by decide, by decide, by decide⟩

theorem witness_ExactlyOneOfDoneAndErr :
    registers (step (withReq State.reset ⟨.wr, 0#35, 2⟩)) = some (0x22, 2, 0) ∧
      completes (step (withReq m2 ⟨.wr, 0#35, 4⟩)) = true := by decide +kernel

theorem witness_StatusIsSticky :
    (m2err.status.tvalid = true ∧ m2err.status.err = true) ∧
      registers (step (withReq m2err ⟨.wr, 0#35, 1⟩)) = some (0x43, 2, 0) := by decide +kernel

theorem witness_finite :
    R64.isFinite one = true ∧ R64.isFinite 0x7FEFFFFFFFFFFFFF#64 = true ∧ R64.isFinite 0x0000000000000001#64 = true ∧
      R64.isFinite 0x8000000000000000#64 = true := by decide

/-- Operands whose exact sum, difference and product are 0, and finite data with value 0 and not 0. -/
theorem witness_exact_zero :
    R64.value one + R64.value neg1 = 0 ∧ R64.value one - R64.value one = 0 ∧ R64.value 0#64 = 0 ∧ R64.value one ≠ 0 := by
  have h1 : R64.units one = 2 ^ 1074 := by decide +kernel
  have h2 : R64.units neg1 = -2 ^ 1074 := by decide +kernel
  have h3 : R64.units 0#64 = 0 := by decide +kernel
  simp only [R64.value, h1, h2, h3]
  norm_num

theorem witness_NaN : R64.isNaN 0x7FF8000000000000#64 = true ∧ R64.isNaN 0xFFF0000000000001#64 = true := by decide

theorem witness_TableEntriesAreNearest : 1 ≤ 4 ∧ 4 ≤ 4 ∧ 15 < 2 ^ 4 ∧ 1 ≤ 1 ∧ 1 ≤ 4 ∧ 0 < 2 ^ 1 := by decide

theorem witness_TableSymmetries : 1 ≤ 1 ∧ 1 < 2 ^ 1 ∧ 0 < 1 ∧ 2 ≤ 2 ∧ 1 < 2 ^ 2 / 2 := by decide

/-- The exact table of N = 2, all samples and outputs 0. -/
noncomputable def realMem : Memory ℝ :=
  ⟨[(0, 0), (1, 0)], [(0, 0), (1, 0)], [], [], [(0, realNum.cosEntry 1 0), (1, realNum.cosEntry 1 1)],
    [(0, realNum.sinEntry 1 0), (1, realNum.sinEntry 1 1)]⟩

theorem witness_real_table : TableIs realNum cfg2 realMem := by
  intro k hk
  have hk : k < 2 := hk
  interval_cases k <;> exact ⟨rfl, rfl⟩

theorem witness_real_view : ViewHolds realMem 0 1 2 (fun _ => 0) := by
  intro s hs
  interval_cases s <;> exact ⟨rfl, rfl⟩

/-- The operands of the full-size transform, and of one sample at the end of the bank. -/
theorem witness_OperandsFit : OperandsFit cfg2 ⟨2, 1, 0, 0⟩ ∧ OperandsFit cfg2 ⟨1, 2, 1, 1⟩ ∧
    OperandsFit m4.cfg m4.operands ∧ OperandsFit cfg2 ⟨2, 0, 1, 0⟩ := by
  unfold OperandsFit
  exact ⟨⟨powerOfTwo_two, by decide⟩, ⟨powerOfTwo_one, by decide⟩, ⟨powerOfTwo_four, by decide⟩, ⟨powerOfTwo_two, by decide⟩⟩

/-- TwmulRotatesExactly, DftIsTheDirectTransform, Fft1IsTheDirectTransform, Fft2IsTheDirectTransform. -/
theorem witness_real :
    cfg2.wellFormed = true ∧ OperandsFit cfg2 ⟨2, 1, 0, 0⟩ ∧ (⟨realMem, [], LoopRegs.idle, .dead⟩ : Datapath ℝ).seq = [] ∧
      TableIs realNum cfg2 realMem ∧ ViewHolds realMem 0 1 cfg2.N (fun _ => 0) ∧ 1 < cfg2.N :=
  ⟨by decide, witness_OperandsFit.1, rfl, witness_real_table, witness_real_view, by decide⟩

theorem witness_InitFillsTheTable : Ready State.reset ∧ State.reset.status.tvalid = false := by unfold Ready; decide

/-- DftComputesEveryBin, Fft1Completes, Fft2Completes: the table, the view. -/
theorem witness_transforms :
    Ready m2 ∧ m2.status.tvalid = true ∧ OperandsFit m2.cfg m2.operands ∧ 2 ≤ m2.size.toNat ∧ m2.size.toNat = m2.cfg.N ∧
      TableValues m2.cfg m2.dp.mem (fun k => if k = 0 then one else neg1) (fun _ => 0) ∧
      ViewValues m2.dp.mem m2.ioff.toNat m2.stride.toNat m2.size.toNat (fun k => if k = 0 then one else two) (fun _ => 0) ∧
      ViewValues m2.dp.mem 0 1 m2.cfg.N (fun k => if k = 0 then one else two) (fun _ => 0) := by
  refine ⟨by unfold Ready; decide, by decide, ⟨powerOfTwo_two, by decide⟩, by decide, by decide, ?_, ?_, ?_⟩
  · unfold TableValues; decide
  · unfold ViewValues; decide
  · unfold ViewValues; decide

theorem witness_BpassCombinesEveryPair :
    Ready m2 ∧ m2.status.tvalid = true ∧ PowerOfTwo m2.size.toNat ∧ 2 ≤ m2.size.toNat ∧ m2.size.toNat ≤ m2.cfg.N ∧
      m2.ooff.toNat + m2.size.toNat ≤ m2.cfg.N ∧
      TableValues m2.cfg m2.dp.mem (fun k => if k = 0 then one else neg1) (fun _ => 0) ∧
      RunValues m2.dp.mem m2.ooff.toNat m2.size.toNat (fun k => if k = 0 then one else two) (fun _ => 0) := by
  refine ⟨by unfold Ready; decide, by decide, powerOfTwo_two, by decide, by decide, by decide, ?_, ?_⟩
  · unfold TableValues; decide
  · unfold RunValues; decide

/-- Whether a datapath operation succeeds. -/
def succeeds {β : Type} : Res β → Bool
  | .ok _ => true
  | .error _ => false

theorem succeeds_ok {β : Type} {x : Res β} (h : succeeds x = true) : ∃ e, x = .ok e := by
  cases x with
  | ok e => exact ⟨e, rfl⟩
  | error e => simp [succeeds] at h

/-- The banks of m4 with four output words. -/
def mem4out : Memory Num64 := { mem4 with outRe := mem4.inRe, outIm := mem4.inIm }

def dp4 (m : Memory Num64) : Datapath Num64 := ⟨m, [], LoopRegs.idle, .dead⟩

theorem witness_ButterflyOrderIsImmaterial :
    (dp4 mem4out).mem.wf cfg4.N = true ∧ [1, 0].Perm (List.range (4 / 2)) ∧
      ∃ e, bpassTask r64 cfg4 0 4 (dp4 mem4out) = .ok e :=
  ⟨by decide, by decide, succeeds_ok (by decide +kernel)⟩

theorem witness_TaskStackEqualsRecursion :
    cfg2.wellFormed = true ∧ OperandsFit cfg2 ⟨2, 1, 0, 0⟩ ∧ 2 ≤ (⟨2, 1, 0, 0⟩ : Operands).size ∧ (dp4 mem2).seq = [] :=
  ⟨by decide, witness_OperandsFit.1, by decide, rfl⟩

theorem witness_BrevnetReversesBits : 6 < 2 ^ 3 ∧ 0 < 2 ^ 0 := by decide

/-- Each clause at its boundary: a stride one past its limit, a view one past the end of the bank. -/
theorem witness_UnitsAreRefusedOutsideTheirDomain :
    ¬PowerOfTwo 0 ∧ (PowerOfTwo 4 ∧ 4 ≤ 4) ∧ ¬PowerOfTwo 3 ∧ cfg2.N < 4 ∧ cfg2.N < 3 * 1 ∧ cfg2.N - 1 < 1 + (2 - 1) * 1 ∧
      2 ≤ 2 :=
  ⟨not_powerOfTwo_zero, ⟨powerOfTwo_four, by decide⟩, not_powerOfTwo_three, by decide, by decide, by decide, by decide⟩

theorem witness_BrevWritesTheReversedIndex :
    Ready { m2 with size := 8, ioff := 7 } ∧ ({ m2 with size := 8, ioff := 7 } : State).size.toNat = 2 ^ 3 ∧
      ({ m2 with size := 8, ioff := 7 } : State).ioff.toNat < 2 ^ 3 := by unfold Ready; decide

theorem witness_LoopControllerEqualsLoops : cfg4.wellFormed = true ∧ (dp4 mem4).seq = [] := by decide

/-- The same with T = 2 (leaves of size 2 by the first condition) and T = 5 (by the second). -/
theorem witness_Fft1AndFft2AgreeBitForBit :
    let c : Config := ⟨2, 2, 1, 5⟩
    let c' : Config := ⟨2, 5, 1, 5⟩
    (c.wellFormed = true ∧ c'.wellFormed = true) ∧ (dp4 mem4).seq = [] ∧ (dp4 mem4).mem.wf c.N = true ∧ c.B ≤ c.N / 2 ∧
      (c.B ≤ max c.T 1 ∧ max c.T 1 < 2 * c.B) ∧ (c'.B = c'.N / 2 ∧ c'.B ≤ c'.T) ∧
      (∃ e, runFft1 r64 c ⟨c.N, 1, 0, 0⟩ (dp4 mem4) = .ok e) ∧ ∃ e, runFft1 r64 c' ⟨c'.N, 1, 0, 0⟩ (dp4 mem4) = .ok e :=
  ⟨by decide, rfl, by decide, by decide, by decide, by decide, succeeds_ok (by decide +kernel), succeeds_ok (by decide +kernel)⟩

theorem witness_Fft2WithOneBlockIsTheDft :
    let c : Config := ⟨2, 0, 2, 5⟩
    c.wellFormed = true ∧ (dp4 mem4).seq = [] ∧ c.b = c.n ∧ ∃ e, runDft r64 c ⟨c.N, 1, 0, 0⟩ (dp4 mem4) = .ok e :=
  ⟨by decide, rfl, rfl, succeeds_ok (by decide +kernel)⟩

/-- Every command answers a next state with ERR = 0 somewhere: the frames, IgnoredOperandsHaveNoInfluence,
TransformsAreIdempotent. -/
theorem witness_commands_complete :
    completes (exec .init (State.resetWith cfg2)) = true ∧ completes (exec .dft m2) = true ∧
      completes (exec .fft1 m2) = true ∧ completes (exec .fft2 m2) = true ∧ completes (exec .bpass m2) = true ∧
      completes (exec .brev m2) = true ∧ m2.cfg.wellFormed = true ∧ m2.dp.mem.wf m2.cfg.N = true := by decide +kernel

/-- FaultsHaveNoPartialEffect. -/
theorem witness_command_faults :
    m2.status.err = false ∧ registers (exec .init m2) = some (0x33, 1, 0) := by decide +kernel

/-- The machine m2 meets the invariant: its table is the one R92 gives, its last command completed. -/
theorem witness_Inv : Inv m2 where
  cfgOk := by decide
  quiet := ⟨rfl, rfl, rfl⟩
  memOk := by decide
  clean := fun _ => ⟨rfl, rfl⟩
  faulted := fun h => absurd h (by decide)
  table := by
    intro _ k hk
    have hk : k < 2 := hk
    interval_cases k <;> decide +kernel
  noTable := fun h => absurd h (by decide)
  ready := fun _ _ => rfl
  causeOk := by decide

/-- StepKeepsTheInvariant, EveryTransactionEnds. -/
theorem witness_Inv_step : ∃ t, step m2 = .next t := ⟨m2, rfl⟩

/-! ### NUM as the argument of the machine -/

/-- StepInKeepsTheInvariant: the engine of R64 as an engine of some NUM. -/
theorem witness_StepInKeepsTheInvariant : InvIn R64.num.toNumSys m2 ∧ ∃ t, stepIn R64.num m2 = .next t :=
  ⟨witness_Inv, m2, rfl⟩

/-- BankWordsPassTheBusEncoded, at the last word of the last writable region and of the last readable one. -/
theorem witness_BankWordsPassTheBusEncoded :
    (withReq m2 ⟨.wr, BitVec.ofNat 35 (4 * 2 ^ 32 + 1), one⟩).dp.isIdle = true ∧ 1 < m2.cfg.N ∧ m2.cfg.wellFormed = true ∧
      (withReq m2 ⟨.wr, BitVec.ofNat 35 (4 * 2 ^ 32 + 1), one⟩).bus.pending = [⟨.wr, 0x400000001#35, one⟩] ∧
      (withReq m2 ⟨.rd, BitVec.ofNat 35 (6 * 2 ^ 32 + 1), 0⟩).bus.pending = [⟨.rd, 0x600000001#35, 0⟩] ∧
      m2.dp.mem.read .twSin 1 = some 0#64 := by decide

/-- A NUM that is not R64 on a 32-bit data path: integers modulo 2^8, NUM_W = 8, every table entry 1. -/
def num8 : Num (BitVec 8) 32 where
  zero := 0
  add a b := a + b
  sub a b := a - b
  mul a b := a * b
  divn n a := a.sshiftRight n
  rnd := Erased.mk fun _ => 1
  cosEntry _ _ := 1
  sinEntry _ _ := 1
  numW := 8
  dataW := rfl
  enc a := a
  dec d := d
  dec_enc _ := rfl

/-- InitStoresRndOfTheTable: a NUM whose table image is RND of the exact values, on an engine just reset. -/
theorem witness_InitStoresRndOfTheTable :
    num8.ImageIsRnd cfg2.n ∧ Ready (State.resetIn cfg2 : State (BitVec 8) 32) ∧
      (State.resetIn cfg2 : State (BitVec 8) 32).status.tvalid = false :=
  ⟨fun _ _ => ⟨(congrFun (Erased.out_mk (fun _ : ℝ => (1 : BitVec 8))) _).symm,
    (congrFun (Erased.out_mk (fun _ : ℝ => (1 : BitVec 8))) _).symm⟩, by unfold Ready; decide, rfl⟩

/-- R46 in num8: a write takes the low 8 bits of the data, a read gives them zero-extended to 32 bits. -/
theorem test_bus_num8 : num8.busIn 0xABCDEF12#32 = 0x12#8 ∧ num8.busOut 0xFE#8 = 0x000000FE#32 := by decide

/-- R46 in num8: the write of IN_RE[1] stores DEC of the low 8 bits. -/
theorem test_step_num8 :
    (match stepIn num8 { (State.resetIn cfg2 : State (BitVec 8) 32) with
        bus := ⟨[⟨.wr, 0x100000001#35, 0xABCDEF12#32⟩], []⟩ } with
      | .next t => decide (t.dp.mem.inRe = [(1, 0x12#8)])
      | .fault _ => false
      | .refused _ => false) = true := by decide

end Sys2Proof.Tests
end

section
/-! PROOFS. The scope (spec/00_scope.md): NUM is an argument of the model (R10), the machine is the engine of R64 (R84,
R87), and in any NUM every step keeps the invariant of the states between transactions.

The invariant is kept in three layers: the execution of a command on a quiet datapath ends on a quiet datapath and changes
output words only (`Settles`); the issue procedure turns that, with the causes its checks can raise (`CauseFits`), into a
rule for a command (`issue_keeps_inv`); the bus adds responses and host writes. -/

namespace Sys2Proof.Machine

variable {α : Type} {n : Nat} {ns : NumSys α} {c : Config}

/-- Settles O29: the commands and the step are equal by name, and R64 holds a datum as its own pattern. -/
theorem machineIsTheInstanceR64 : Obligations.MachineIsTheInstanceR64 :=
  ⟨exec_eq_execIn, step_eq_stepIn, rfl, fun v => ⟨r64_busOut v, r64_busIn v⟩⟩

/-! ### The execution of a command ends on a quiet datapath -/

/-- SEQ empty, IT at its idle value and the working registers dead: the datapath between two transactions (R34 to R36,
R52). -/
def Datapath.Quiet (d : Datapath α) : Prop := d.seq = [] ∧ d.it = LoopRegs.idle ∧ d.work = .dead

/-- Where it ends well on a quiet datapath, the execution `f` leaves it quiet and changes output words only. -/
def Settles (c : Config) (f : Datapath α → Res (Datapath α)) : Prop :=
  ∀ d e : Datapath α, d.Quiet → f d = .ok e → e.Quiet ∧ OutFrame c 0 c.N d.mem e.mem

theorem Task.exists_within (t : Task) : ∃ lo hi, t.Within lo hi := by
  cases t <;> exact ⟨_, _, Nat.le_refl _, Nat.le_refl _⟩

/-- DFT, FFT1 and BPASS alike: one task is pushed and the sequencer runs until SEQ is empty (R33). -/
theorem push_runSeq_settles (t : Task) (f : Nat) :
    Settles c (fun d => do
      let e ← d.push c t
      runSeq ns c f e) := by
  rintro d e ⟨hseq, hit, hwork⟩ h
  obtain ⟨x, hx, hrun⟩ := Res.bind_ok_iff.mp h
  obtain ⟨-, rfl⟩ := push_ok_iff.mp hx
  obtain ⟨lo, hi, ht⟩ := t.exists_within
  have hwithin : ∀ u ∈ t :: d.seq, u.Within lo hi := by simpa [hseq] using ht
  have hdead : e.work = .dead := runSeq_work (by exact hwork) hrun
  obtain ⟨hseq', hit', hmem⟩ := runSeq_frame hwithin hrun
  exact ⟨⟨hseq', hit'.trans hit, hdead⟩, hmem.clip⟩

theorem runDft_settles (o : Operands) : Settles c (runDft ns c o) := push_runSeq_settles _ _

theorem runFft1_settles (o : Operands) : Settles c (runFft1 ns c o) := push_runSeq_settles _ _

theorem runBpass_settles (o : Operands) : Settles c (runBpass ns c o) := push_runSeq_settles _ _

/-- What holds of the datapath between two transitions of the loop controller (R35): between tasks, and with IT at its idle
value as soon as its phase is IDLE. -/
def Datapath.BetweenSteps (d : Datapath α) : Prop :=
  d.seq = [] ∧ d.work = .dead ∧ (d.it.phase = .idle → d.it = LoopRegs.idle)

/-- A transition in phase FILL (R93). -/
theorem fillStep_betweenSteps {d e : Datapath α} (hd : d.BetweenSteps) (hp : d.it.phase = .fill)
    (h : fillStep ns c d = .ok e) : e.BetweenSteps := by
  obtain ⟨hseq, hwork, -⟩ := hd
  unfold fillStep at h
  dsimp only at h
  split at h
  · simp only [Res.bind_ok_iff, Except.ok.injEq] at h
    obtain ⟨m, -, m', -, rfl⟩ := h
    exact ⟨hseq, hwork, by simp [hp]⟩
  · cases h
    exact ⟨hseq, hwork, fun _ => rfl⟩

/-- A transition in phase SCATTER (R144): the block's DFT task ends with the working registers dead. -/
theorem scatterStep_betweenSteps (hc : 0 < c.stackDepth) {d e : Datapath α} (hd : d.BetweenSteps)
    (hp : d.it.phase = .scatter) (h : scatterStep ns c d = .ok e) : e.BetweenSteps := by
  obtain ⟨hidle, -, -⟩ := hd
  unfold scatterStep at h
  obtain ⟨x, -, h⟩ := Res.bind_ok_iff.mp h
  rw [← bind_assoc, runSeq_dft (d := { d with work := .brev x }) hidle hc] at h
  obtain ⟨y, hy, h⟩ := Res.bind_ok_iff.mp h
  obtain ⟨hseq, hit, hwork, -⟩ := dftTask_frame hy
  split at h <;> cases h
  · exact ⟨hseq.trans hidle, hwork, by simp [hit, hp]⟩
  · exact ⟨hseq.trans hidle, hwork, by simp⟩

/-- A transition in phase STAGES (R144): the pass of one window, or the end of the last stage. -/
theorem stagesStep_betweenSteps (hc : 0 < c.stackDepth) {d e : Datapath α} (hd : d.BetweenSteps)
    (hp : d.it.phase = .stages) (h : stagesStep ns c d = .ok e) : e.BetweenSteps := by
  obtain ⟨hidle, hdead, -⟩ := hd
  unfold stagesStep at h
  dsimp only at h
  split at h
  · cases h
    exact ⟨hidle, hdead, fun _ => rfl⟩
  · rw [← bind_assoc, runSeq_bpass hidle hc] at h
    obtain ⟨y, hy, h⟩ := Res.bind_ok_iff.mp h
    obtain ⟨hseq, hit, hwork, -⟩ := bpassTask_frame hy
    split at h <;> cases h <;> exact ⟨hseq.trans hidle, hwork, by simp [hit, hp]⟩

theorem controllerStep_betweenSteps (hc : 0 < c.stackDepth) {d e : Datapath α} (hd : d.BetweenSteps)
    (h : controllerStep ns c d = .ok e) : e.BetweenSteps := by
  unfold controllerStep at h
  split at h
  · cases h; exact hd
  · next hp => exact fillStep_betweenSteps hd hp h
  · next hp => exact scatterStep_betweenSteps hc hd hp h
  · next hp => exact stagesStep_betweenSteps hc hd hp h

/-- FFT2 (R144): the loop controller ends in phase IDLE, so with IT at its idle value. -/
theorem runFft2_settles (hc : 0 < c.stackDepth) : Settles c (runFft2 ns c) := by
  rintro d e ⟨hseq, -, hwork⟩ h
  have hstart : Datapath.BetweenSteps { d with it := ⟨.scatter, 0, 0, 0⟩ } := ⟨hseq, hwork, by simp⟩
  obtain ⟨⟨hseq', hwork', hit⟩, hphase⟩ :=
    runController_invariant _ (fun _ _ => controllerStep_betweenSteps hc) hstart h
  obtain ⟨-, -, hmem⟩ := runFft2_frame hseq h
  exact ⟨⟨hseq', hit hphase, hwork'⟩, hmem⟩

/-! ### The causes the checks can raise -/

/-- A cause that fault entry may record while TVALID = `tvalid`: a fault, of which TABLE_REINIT, BAD_STRIDE and BAD_RANGE
arise only with the table filled and TABLE_NOT_INIT only without it (R153). -/
def CauseFits (tvalid : Bool) (k : Cause) : Prop :=
  k ≠ .noFault ∧ (k = .tableReinit ∨ k = .badStride ∨ k = .badRange → tvalid = true) ∧
    (k = .tableNotInit → tvalid = false)

/-- Every fault a check finds is one its TVALID allows. -/
def ChecksFit (check : State α n → Option Cause) : Prop :=
  ∀ s k, check s = some k → CauseFits s.status.tvalid k

theorem causeFits_illegalCmd (tvalid : Bool) : CauseFits tvalid .illegalCmd := by simp [CauseFits]

/-- The shape of the checks of DFT, FFT1, FFT2 and BPASS (R153): the test of TVALID first, so that a fault of the operands
is only found with the table filled. -/
theorem causeFits_of_tableTest {tvalid : Bool} {operandChecks : Option Cause} {k : Cause}
    (hoperands : operandChecks = some k → k = .badSize ∨ k = .badStride ∨ k = .badRange)
    (h : (if !tvalid then some .tableNotInit else operandChecks) = some k) : CauseFits tvalid k := by
  cases tvalid with
  | false => cases h; simp [CauseFits]
  | true => rcases hoperands h with rfl | rfl | rfl <;> simp [CauseFits]

theorem checkInit_fits : ChecksFit (checkInit (α := α) (w := n)) := by
  intro s k h
  unfold checkInit at h
  split at h <;> cases h
  next ht => simp [CauseFits, ht]

theorem checkDft_fits : ChecksFit (checkDft (α := α) (w := n)) :=
  fun _ _ => causeFits_of_tableTest fun h => by split_ifs at h <;> cases h <;> simp

theorem checkFft1_fits : ChecksFit (checkFft1 (α := α) (w := n)) :=
  fun _ _ => causeFits_of_tableTest fun h => by split_ifs at h <;> cases h <;> simp

theorem checkFft2_fits : ChecksFit (checkFft2 (α := α) (w := n)) :=
  fun _ _ => causeFits_of_tableTest fun h => by split_ifs at h; cases h; simp

theorem checkBpass_fits : ChecksFit (checkBpass (α := α) (w := n)) :=
  fun _ _ => causeFits_of_tableTest fun h => by split_ifs at h <;> cases h <;> simp

theorem checkBrev_fits : ChecksFit (checkBrev (α := α) (w := n)) := by
  intro s k h
  unfold checkBrev at h
  dsimp only at h
  split_ifs at h <;> cases h <;> simp [CauseFits]

/-! ### The invariant under the updates of the state -/

/-- The invariant speaks of the parameters, STATUS, FCMD and the datapath only. -/
theorem InvIn.congr {s t : State α n} (h : InvIn ns s) (hcfg : t.cfg = s.cfg) (hstatus : t.status = s.status)
    (hfcmd : t.fcmd = s.fcmd) (hdp : t.dp = s.dp) : InvIn ns t := by
  obtain ⟨cfg, status, size, stride, ioff, ooff, result, fcmd, dp, bus⟩ := t
  dsimp only at hcfg hstatus hfcmd hdp
  subst hcfg hstatus hfcmd hdp
  exact ⟨h.cfgOk, h.quiet, h.memOk, h.clean, h.faulted, h.table, h.noTable, h.ready, h.causeOk⟩

theorem InvIn.respond {s : State α n} (h : InvIn ns s) (r : ResponseOf n) : InvIn ns (s.respond r) :=
  h.congr rfl rfl rfl rfl

/-- A host write of an operand register (R21). -/
theorem InvIn.writeReg {s u : State α n} (h : InvIn ns s) {v : Word} {r : Reg} (hu : s.writeReg v r = some u) :
    InvIn ns u := by
  rcases writeReg_some_iff.mp hu with ⟨-, rfl⟩ | ⟨-, rfl⟩ | ⟨-, rfl⟩ | ⟨-, rfl⟩ <;> exact h.congr rfl rfl rfl rfl

/-- A host write of a word below N keeps the invariant: the host may not write the twiddle banks (R48). -/
theorem InvIn.writeWord {s : State α n} (h : InvIn ns s) {b : BankId} {i : Nat} (v : α) (hb : b.hostMayWrite = true)
    (hi : i < s.cfg.N) : InvIn ns { s with dp := { s.dp with mem := s.dp.mem.write b i v } } := by
  have hcos : BankId.twCos ≠ b := by rintro rfl; cases hb
  have hsin : BankId.twSin ≠ b := by rintro rfl; cases hb
  refine { h with quiet := h.quiet, memOk := Memory.wf_write b v h.memOk hi, table := fun ht k hk => ?_,
                  noTable := fun ht => ?_ }
  · rw [Memory.read_write_of_bank_ne _ _ _ _ hcos, Memory.read_write_of_bank_ne _ _ _ _ hsin]
    exact h.table ht k hk
  · obtain ⟨hc, hs⟩ := h.noTable ht
    exact ⟨(bank_setBank_of_ne _ _ hcos).trans hc, (bank_setBank_of_ne _ _ hsin).trans hs⟩

/-- Fault entry (R160) by a cause that fits TVALID. -/
theorem InvIn.takeFault {s : State α n} (h : InvIn ns s) {k : Cause} (hk : CauseFits s.status.tvalid k) (word : Word) :
    InvIn ns (takeFault k word { s with status := s.status.clearDone }) where
  cfgOk := h.cfgOk
  quiet := h.quiet
  memOk := h.memOk
  clean := by simp
  faulted := by simpa using hk.1
  table := h.table
  noTable := h.noTable
  ready := by simp
  causeOk := hk.2

/-- The twiddle banks hold the table of the number system while TVALID = 1, and no value while TVALID = 0 (R32, R92). -/
def TwiddlesMatch (ns : NumSys α) (c : Config) (tvalid : Bool) (m : Memory α) : Prop :=
  (tvalid = true → TableIs ns c m) ∧ (tvalid = false → m.twCos = [] ∧ m.twSin = [])

theorem InvIn.twiddlesMatch {s : State α n} (h : InvIn ns s) : TwiddlesMatch ns s.cfg s.status.tvalid s.dp.mem :=
  ⟨h.table, h.noTable⟩

/-- The table survives whatever changes output words only. -/
theorem TwiddlesMatch.of_outFrame {lo hi : Nat} {m m' : Memory α} (h : TwiddlesMatch ns c true m)
    (hm : OutFrame c lo hi m m') : TwiddlesMatch ns c true m' := by
  refine ⟨fun _ k hk => ?_, by simp⟩
  rw [hm.same .twCos k (by simp), hm.same .twSin k (by simp)]
  exact h.1 rfl k hk

/-- Completion (R153) with a quiet datapath, canonical banks and twiddle banks that match TVALID. -/
theorem InvIn.complete {s : State α n} (h : InvIn ns s) (herr : s.status.err = false) {f : Status} {r : Word}
    {d : Datapath α} (hf : f.err = false ∧ f.cause = s.status.cause) (hquiet : d.Quiet) (hwf : d.mem.wf s.cfg.N = true)
    (htw : TwiddlesMatch ns s.cfg f.tvalid d.mem) :
    InvIn ns (complete { s with status := f, result := r, dp := d }) where
  cfgOk := h.cfgOk
  quiet := hquiet
  memOk := hwf
  clean := fun _ => ⟨hf.2.trans (h.clean herr).1, (h.clean herr).2⟩
  faulted := by simp [hf.1]
  table := htw.1
  noTable := htw.2
  ready := by simp
  causeOk := by simp [hf.2, (h.clean herr).1]

/-! ### The commands -/

/-- The rule of the issue procedure (R153): with checks whose causes fit TVALID, an issue keeps the invariant if every
accepted execution that ends well completes in a state that meets it. -/
theorem issue_keeps_inv {word : Word} {check : State α n → Option Cause} {run : State α n → Res (State α n)}
    {s t : State α n} (hs : InvIn ns s) (hcheck : ChecksFit check)
    (hrun : ∀ u, s.status.err = false → check { s with status := s.status.clearDone } = none →
      run { s with status := s.status.clearDone } = .ok u → InvIn ns (complete u))
    (h : issue word check run s = .next t) : InvIn ns t := by
  obtain ⟨-, ⟨-, rfl⟩ | ⟨-, k, hk, rfl⟩ | ⟨herr, hnone, u, hu, rfl⟩⟩ := issue_next_iff.mp h
  · exact hs.respond _
  · have hfits := hcheck _ _ hk
    exact hs.takeFault hfits word
  · exact hrun u herr hnone hu

/-- The rule of DFT, FFT1, FFT2 and BPASS: their checks demand the table, and their execution settles. -/
theorem issue_transform_keeps_inv {word : Word} {check : State α n → Option Cause}
    {f : State α n → Datapath α → Res (Datapath α)} {s t : State α n} (hs : InvIn ns s) (hcheck : ChecksFit check)
    (htv : ∀ u, check u = none → u.status.tvalid = true)
    (hf : Settles s.cfg (f { s with status := s.status.clearDone }))
    (h : issue word check (fun u => u.onDatapath (f u)) s = .next t) : InvIn ns t := by
  refine issue_keeps_inv hs hcheck (fun u herr hnone hu => ?_) h
  obtain ⟨d, hd, rfl⟩ := onDatapath_ok_iff.mp hu
  obtain ⟨hquiet, hmem⟩ := hf _ _ hs.quiet hd
  have hvalid := htv _ hnone
  have htw : TwiddlesMatch ns s.cfg s.status.tvalid d.mem := by
    have hmatch := hs.twiddlesMatch
    rw [show s.status.tvalid = true from hvalid] at hmatch ⊢
    exact hmatch.of_outFrame hmem
  exact hs.complete herr ⟨herr, rfl⟩ hquiet (hmem.wf hs.memOk) htw

/-- INIT fills the table of the number system and sets TVALID (R93). -/
theorem execIn_init_keeps_inv {num : Num α n} {s t : State α n} (hs : InvIn num.toNumSys s)
    (h : execIn num .init s = .next t) : InvIn num.toNumSys t := by
  rw [execIn_init_eq] at h
  refine issue_keeps_inv hs checkInit_fits (fun u herr _ hu => ?_) h
  obtain ⟨v, hv, hu⟩ := Res.bind_ok_iff.mp hu
  cases hu
  obtain ⟨d, hd, rfl⟩ := onDatapath_ok_iff.mp hv
  obtain ⟨m, hrun, htable, -, hwf⟩ := runInit_ok (ns := num.toNumSys) (c := s.cfg) s.dp
  cases hrun.symm.trans hd
  obtain ⟨hseq, -, hwork⟩ := hs.quiet
  exact hs.complete herr ⟨herr, rfl⟩ ⟨hseq, rfl, hwork⟩ (hwf hs.memOk) ⟨fun _ => htable, by simp⟩

/-- BREV touches no bank (R137). -/
theorem execIn_brev_keeps_inv {num : Num α n} {s t : State α n} (hs : InvIn ns s)
    (h : execIn num .brev s = .next t) : InvIn ns t := by
  rw [execIn_brev_eq] at h
  refine issue_keeps_inv hs checkBrev_fits (fun u herr _ hu => ?_) h
  obtain ⟨x, -, hu⟩ := Res.bind_ok_iff.mp hu
  cases hu
  obtain ⟨hseq, hit, -⟩ := hs.quiet
  exact hs.complete herr ⟨herr, rfl⟩ ⟨hseq, hit, rfl⟩ hs.memOk hs.twiddlesMatch

theorem execIn_keeps_inv {num : Num α n} {i : Instr} {s t : State α n} (hs : InvIn num.toNumSys s)
    (h : execIn num i s = .next t) : InvIn num.toNumSys t := by
  have hstack : 0 < s.cfg.stackDepth := by have := cfg_stack_le hs.cfgOk; omega
  cases i with
  | init => exact execIn_init_keeps_inv hs h
  | dft =>
    rw [execIn_dft_eq] at h
    refine issue_transform_keeps_inv hs checkDft_fits (fun _ hu => (checkDft_none_iff.mp hu).1) ?_ h
    exact runDft_settles _
  | fft1 =>
    rw [execIn_fft1_eq] at h
    refine issue_transform_keeps_inv hs checkFft1_fits (fun _ hu => (checkFft1_none_iff.mp hu).1) ?_ h
    exact runFft1_settles _
  | fft2 =>
    rw [execIn_fft2_eq] at h
    refine issue_transform_keeps_inv hs checkFft2_fits (fun _ hu => (checkFft2_none_iff.mp hu).1) ?_ h
    exact runFft2_settles hstack
  | bpass =>
    rw [execIn_bpass_eq] at h
    refine issue_transform_keeps_inv hs checkBpass_fits (fun _ hu => (checkBpass_none_iff.mp hu).1) ?_ h
    exact runBpass_settles _
  | brev => exact execIn_brev_keeps_inv hs h

/-! ### The bus -/

/-- A word that decodes to no command is an issue that faults (R70, R155). -/
theorem issueWord_keeps_inv {num : Num α n} {word : Word} {s t : State α n} (hs : InvIn num.toNumSys s)
    (h : issueWord (execIn num) word s = .next t) : InvIn num.toNumSys t := by
  unfold issueWord at h
  split at h
  · exact execIn_keeps_inv hs h
  · have hcheck : ChecksFit fun _ : State α n => some Cause.illegalCmd := by
      rintro u k ⟨⟩
      exact causeFits_illegalCmd _
    exact issue_keeps_inv hs hcheck (fun _ _ hnone _ => nomatch hnone) h

theorem transact_keeps_inv {num : Num α n} {r : RequestOf n} {s t : State α n} (hs : InvIn num.toNumSys s)
    (h : transact num (execIn num) r s = .next t) : InvIn num.toNumSys t := by
  obtain ⟨-, ⟨a, rfl⟩ | ⟨-, g, -, u, hu, rfl⟩ | ⟨-, b, i, -, hb, hi, rfl⟩ | ⟨-, -, hissue⟩⟩ := transact_next h
  · exact hs.respond a
  · exact (hs.writeReg hu).respond _
  · exact (hs.writeWord _ hb hi).respond _
  · exact issueWord_keeps_inv hs hissue

/-- A step is the host's next transaction or nothing. -/
theorem stepIn_keeps_inv {num : Num α n} {s t : State α n} (hs : InvIn num.toNumSys s) (h : stepIn num s = .next t) :
    InvIn num.toNumSys t := by
  rw [stepIn, stepWith_eq] at h
  split at h
  · cases h; exact hs
  · refine transact_keeps_inv ?_ h
    exact hs.congr rfl rfl rfl rfl

/-- Settles O55, by what each kind of transaction can do. -/
theorem stepInKeepsTheInvariant : Obligations.StepInKeepsTheInvariant :=
  fun _ _ _ _ _ => stepIn_keeps_inv

end Sys2Proof.Machine
end

section
/-! PROOFS. The state (spec/10_state.md): STATUS as the host reads it (R23), the registers on the bus (R21, R46), what a
command leaves unchanged (R28, R29, R31, R32), and the invariant of the engine of R64 at reset and under every step.

The frames rest on one inversion lemma, `execIn_outcome`: a command that answers a next state was turned away, faulted, or
completed, and then it wrote only what `CompletesFrom` names. -/

namespace Sys2Proof.Machine

variable {α : Type} {n : Nat}

/-! ### The invariant of the engine of R64 -/

/-- Settles O54: it is the rule for any NUM, at R64. -/
theorem stepKeepsTheInvariant : Obligations.StepKeepsTheInvariant := by
  intro s t hs h
  rw [step_eq_stepIn] at h
  exact stepIn_keeps_inv (num := R64.num) hs h

/-- After reset of an engine of any NUM no word holds a value and no command has been issued (R39, R40). -/
theorem invIn_resetIn (ns : NumSys α) {c : Config} (hc : c.wellFormed = true) :
    InvIn ns (State.resetIn c : State α n) where
  cfgOk := hc
  quiet := ⟨rfl, rfl, rfl⟩
  memOk := Memory.wf_empty _
  clean := fun _ => ⟨rfl, rfl⟩
  faulted := fun herr => nomatch herr
  table := fun htv => nomatch htv
  noTable := fun _ => ⟨rfl, rfl⟩
  ready := fun htv => nomatch htv
  causeOk := by simp [State.resetIn, Status.reset]

/-- Settles O53: the reference configuration meets its constraints too. -/
theorem resetMeetsTheInvariant : Obligations.ResetMeetsTheInvariant :=
  ⟨fun _ hc => invIn_resetIn r64 hc, invIn_resetIn r64 (by decide)⟩

/-! ### STATUS as a word (R23) -/

/-- The value of STATUS: each field at its weight. -/
theorem Status.toWord_toNat (f : Status) :
    f.toWord.toNat = 16 * f.cause.code.toNat + 4 * f.done.toNat + 2 * f.err.toNat + f.tvalid.toNat := by
  obtain ⟨tvalid, err, done, cause⟩ := f
  cases cause <;> cases done <;> cases err <;> cases tvalid <;> rfl

/-- Bit `k` of a word, from its number. -/
theorem getLsbD_of_toNat {w k : Nat} {x : BitVec w} {b : Bool} (h : x.toNat / 2 ^ k % 2 = b.toNat) :
    x.getLsbD k = b := by
  rw [BitVec.getLsbD, Nat.testBit_eq_decide_div_mod_eq, h]
  cases b <;> rfl

/-- Settles O8: every field is read off the weighted sum, in which the three flags are at most 1. -/
theorem statusLayout : Obligations.StatusLayout := by
  refine ⟨fun f => ?_, rfl, rfl, rfl, rfl, rfl, rfl, rfl, rfl⟩
  have hsum := f.toWord_toNat
  have hdone := f.done.toNat_lt
  have herr := f.err.toNat_lt
  have htvalid := f.tvalid.toNat_lt
  have hreserved : f.toWord.toNat / 2 ^ 3 % 2 = false.toNat := by rw [Bool.toNat_false]; omega
  exact ⟨getLsbD_of_toNat (by omega), getLsbD_of_toNat (by omega), getLsbD_of_toNat (by omega), by omega,
    getLsbD_of_toNat hreserved⟩

/-- Settles O56. While ERR = 0 the cause is NO_FAULT, and TVALID needs DONE; while ERR = 1 DONE is 0, and the causes divide
by the TVALID they admit. -/
theorem statusTakesThirteenValues : Obligations.StatusTakesThirteenValues := by
  intro s hs
  have hclean := hs.clean
  have hfaulted := hs.faulted
  have hready := hs.ready
  have hcause := hs.causeOk
  rw [Status.toWord_toNat]
  generalize s.status = f at hclean hfaulted hready hcause ⊢
  obtain ⟨tvalid, err, done, cause⟩ := f
  cases err with
  | false =>
    obtain ⟨rfl, -⟩ := hclean rfl
    cases tvalid with
    | false => cases done <;> decide
    | true =>
      obtain rfl := hready rfl rfl
      decide
  | true =>
    obtain ⟨hne, rfl⟩ := hfaulted rfl
    cases cause <;> cases tvalid <;> simp_all [Cause.code]

/-! ### Registers on the bus (R21, R22, R46) -/

/-- The register of an index, addressed in region 0 (R44, R47). -/
theorem targetOf_reg {k : Nat} {g : Reg} (hg : regOfIndex k = some g) : targetOf (BitVec.ofNat 35 k) = .reg g := by
  have hk : k < 11 := (regOfIndex_isSome_iff k).mp (by rw [hg]; rfl)
  have hn : (BitVec.ofNat 35 k).toNat = k := by rw [BitVec.toNat_ofNat, Nat.mod_eq_of_lt]; omega
  have hq : k / 2 ^ 32 = 0 := by omega
  have hm : k % 2 ^ 32 = k := by omega
  rw [targetOf_eq, hn, hq, hm, if_pos rfl, hg]

/-- A step on a read of register k, where it may be read. -/
theorem step_reg_read_value {s : State} {d : Data} {rest : List Request} {k : Nat} {g : Reg} {v : Word}
    (hi : s.dp.isIdle = true) (hp : s.bus.pending = ⟨.rd, BitVec.ofNat 35 k, d⟩ :: rest) (hg : regOfIndex k = some g)
    (hv : s.readReg g = some v) : step s = .next (answered s rest (.okayData (v.setWidth 64))) := by
  rw [step_reg_read hp hi (targetOf_reg hg), hv]
  rfl

/-- A step on a write of register k, where it may be written. -/
theorem step_reg_write {s u : State} {d : Data} {rest : List Request} {k : Nat} {g : Reg} (hi : s.dp.isIdle = true)
    (hp : s.bus.pending = ⟨.wr, BitVec.ofNat 35 k, d⟩ :: rest) (hg : regOfIndex k = some g)
    (hu : s.writeReg (d.setWidth 32) g = some u) : step s = .next (answered u rest .okay) := by
  rw [step_pending hp hi]
  simp only [targetOf_reg hg]
  rcases writeReg_some_iff.mp hu with ⟨rfl, rfl⟩ | ⟨rfl, rfl⟩ | ⟨rfl, rfl⟩ | ⟨rfl, rfl⟩ <;> rfl

/-- Settles O3: a write to CMD issues the low word, and here the decoder finds a command in it. -/
theorem stepRunsTheDecodedCommand : Obligations.StepRunsTheDecodedCommand := by
  intro s d rest i hp hi hd
  rw [step_cmd_write hp hi, issueWord, hd]

/-- Settles O7: each index names a register with the value the list gives. -/
theorem registerReadsGiveTheRegister : Obligations.RegisterReadsGiveTheRegister := by
  intro s d rest k v hi hp hkv
  have hreg : ∃ g, regOfIndex k = some g ∧ s.readReg g = some v := by
    rcases hkv with h | h | h | h | h | h | h | h | h | h <;> obtain ⟨rfl, rfl⟩ := h <;> exact ⟨_, rfl, rfl⟩
  obtain ⟨g, hg, hv⟩ := hreg
  exact step_reg_read_value hi hp hg hv

/-- Settles O9: registers 2 to 5 are the four the host may write. -/
theorem registerWritesStoreTheLowWord : Obligations.RegisterWritesStoreTheLowWord :=
  fun _ _ _ hi =>
    ⟨fun hp => step_reg_write (k := 2) hi hp rfl rfl, fun hp => step_reg_write (k := 3) hi hp rfl rfl,
      fun hp => step_reg_write (k := 4) hi hp rfl rfl, fun hp => step_reg_write (k := 5) hi hp rfl rfl⟩

/-! ### What a command writes -/

/-- The banks a command may write: INIT the twiddle banks, the transforms the output banks, BREV none (R31, R32, R137). -/
def MayWrite : Instr → BankId → Prop
  | .init, b => b = .twCos ∨ b = .twSin
  | .dft, b | .fft1, b | .fft2, b | .bpass, b => b = .outRe ∨ b = .outIm
  | .brev, _ => False

/-- `t` is the state after the command `i` completed from `s`: DONE is set and the write is answered (R153), INIT has set
TVALID (R93), BREV may have changed RESULT (R28), and no bank but those of `MayWrite` has changed. -/
def CompletesFrom (i : Instr) (s t : State α n) : Prop :=
  ∃ r d, t = complete { s with
      status := { s.status with tvalid := decide (i = .init) || s.status.tvalid }, result := r, dp := d } ∧
    (i ≠ .brev → r = s.result) ∧ ∀ b k, ¬MayWrite i b → d.mem.read b k = s.dp.mem.read b k

/-- A transform that changed output words only has kept every bank it may not write. -/
theorem OutFrame.read_of_not_output {c : Config} {lo hi : Nat} {m m' : Memory α} (h : OutFrame c lo hi m m')
    {b : BankId} (k : Nat) (hb : ¬(b = .outRe ∨ b = .outIm)) : m'.read b k = m.read b k :=
  h.same b k fun hc => hb hc.1

/-- A command that ends with ERR = 0 has completed. -/
theorem completesFrom_of_execIn {num : Num α n} {i : Instr} {s t : State α n} (h : execIn num i s = .next t)
    (he : t.status.err = false) : CompletesFrom i s t := by
  obtain ⟨hidle, -, hrun⟩ := execIn_completed h he
  obtain ⟨hseq, -⟩ := isIdle_iff.mp hidle
  cases i with
  | init =>
    obtain ⟨-, m, hm, rfl⟩ := hrun
    obtain ⟨m', hm', -, hkept, -⟩ := runInit_ok (ns := num.toNumSys) (c := s.cfg) s.dp
    cases hm.symm.trans hm'
    exact ⟨_, _, rfl, fun _ => rfl, fun b k hb => hkept b k fun hc => hb hc.1⟩
  | dft =>
    obtain ⟨-, d, hd, rfl⟩ := hrun
    exact ⟨_, _, rfl, fun _ => rfl, fun _ => (runDft_frame hseq hd).2.2.read_of_not_output⟩
  | fft1 =>
    obtain ⟨-, d, hd, rfl⟩ := hrun
    exact ⟨_, _, rfl, fun _ => rfl, fun _ => (runFft1_frame hseq hd).2.2.read_of_not_output⟩
  | fft2 =>
    obtain ⟨-, d, hd, rfl⟩ := hrun
    exact ⟨_, _, rfl, fun _ => rfl, fun _ => (runFft2_frame hseq hd).2.2.read_of_not_output⟩
  | bpass =>
    obtain ⟨-, d, hd, rfl⟩ := hrun
    exact ⟨_, _, rfl, fun _ => rfl, fun _ => (runBpass_frame hseq hd).2.2.read_of_not_output⟩
  | brev =>
    obtain ⟨-, x, -, rfl⟩ := hrun
    exact ⟨_, _, rfl, fun hne => absurd rfl hne, fun _ _ _ => rfl⟩

/-- Everything a command that answers a next state can have done (R153): turned away in the fault state, faulted, or
completed. -/
theorem execIn_outcome {num : Num α n} {i : Instr} {s t : State α n} (h : execIn num i s = .next t) :
    (s.status.err = true ∧ t = s.respond .error) ∨
      (s.status.err = false ∧ ∃ c, t = takeFault c (encode i) { s with status := s.status.clearDone }) ∨
      (s.status.err = false ∧ CompletesFrom i s t) := by
  obtain ⟨-, hturned | hfault | ⟨herr, he⟩⟩ := execIn_next h
  · exact .inl hturned
  · exact .inr (.inl hfault)
  · exact .inr (.inr ⟨herr, completesFrom_of_execIn h he⟩)

/-- Settles O46: none of the three outcomes of a command writes an operand register, a parameter or the host's list. -/
theorem commandsKeepOperandsAndParameters : Obligations.CommandsKeepOperandsAndParameters := by
  intro i s t h
  rw [exec_eq_execIn] at h
  obtain ⟨-, rfl⟩ | ⟨-, c, rfl⟩ | ⟨-, r, d, rfl, -, -⟩ := execIn_outcome h <;> simp

/-- Settles O47: a command turned away or faulted leaves RESULT, TVALID and the banks alone, and a fault ends with ERR = 1;
one that completes writes what `CompletesFrom` names. -/
theorem onlyTheNamedCommandsWriteEachState : Obligations.OnlyTheNamedCommandsWriteEachState := by
  intro i s t h
  rw [exec_eq_execIn] at h
  obtain ⟨-, rfl⟩ | ⟨-, c, rfl⟩ | ⟨-, r, d, rfl, hresult, hbanks⟩ := execIn_outcome h
  · simp
  · simp
  · have hin : ¬MayWrite i .inRe ∧ ¬MayWrite i .inIm := by cases i <;> simp [MayWrite]
    have htw : i ≠ .init → ¬MayWrite i .twCos ∧ ¬MayWrite i .twSin := by cases i <;> simp [MayWrite]
    refine ⟨hresult, fun _ => ⟨rfl, rfl⟩, fun k => ⟨hbanks _ k hin.1, hbanks _ k hin.2⟩, fun hne => ⟨?_, fun k => ?_⟩⟩
    · simp [hne]
    · exact ⟨hbanks _ k (htw hne).1, hbanks _ k (htw hne).2⟩

/-! ### TVALID and the first fault stay (R23, R41, R162) -/

/-- TVALID and ERR are not cleared from `s` to `t`, and a fault recorded in `s` is still the one recorded in `t`. -/
def StatusKept (s t : State α n) : Prop :=
  (s.status.tvalid = true → t.status.tvalid = true) ∧
    (s.status.err = true → t.status.err = true ∧ t.status.cause = s.status.cause ∧ t.fcmd = s.fcmd)

theorem StatusKept.of_eq {s t : State α n} (hstatus : t.status = s.status) (hfcmd : t.fcmd = s.fcmd) :
    StatusKept s t := by
  simp [StatusKept, hstatus, hfcmd]

/-- No fault was recorded yet. -/
theorem StatusKept.of_err_false {s t : State α n} (herr : s.status.err = false)
    (htvalid : s.status.tvalid = true → t.status.tvalid = true) : StatusKept s t :=
  ⟨htvalid, by simp [herr]⟩

theorem execIn_statusKept {num : Num α n} {i : Instr} {s t : State α n} (h : execIn num i s = .next t) :
    StatusKept s t := by
  obtain ⟨-, rfl⟩ | ⟨herr, c, rfl⟩ | ⟨herr, r, d, rfl, -, -⟩ := execIn_outcome h
  · exact .of_eq rfl rfl
  · exact .of_err_false herr id
  · exact .of_err_false herr fun htvalid => by simp [htvalid]

/-- An illegal word faults, or is turned away while ERR = 1 (R155, R162). -/
theorem issueIllegal_statusKept {word : Word} {s t : State α n} (h : issueIllegal word s = .next t) :
    StatusKept s t := by
  obtain ⟨-, ⟨-, rfl⟩ | ⟨herr, c, -, rfl⟩ | ⟨-, hnone, -⟩⟩ := issue_next_iff.mp h
  · exact .of_eq rfl rfl
  · exact .of_err_false herr id
  · cases hnone

theorem issueWord_statusKept {num : Num α n} {word : Word} {s t : State α n}
    (h : issueWord (execIn num) word s = .next t) : StatusKept s t := by
  unfold issueWord at h
  split at h
  · exact execIn_statusKept h
  · exact issueIllegal_statusKept h

/-- Of all transactions only a write to CMD touches STATUS or FCMD. -/
theorem transact_statusKept {num : Num α n} {r : RequestOf n} {s t : State α n}
    (h : transact num (execIn num) r s = .next t) : StatusKept s t := by
  obtain ⟨-, ⟨a, rfl⟩ | ⟨-, g, -, u, hu, rfl⟩ | ⟨-, b, i, -, -, -, rfl⟩ | ⟨-, -, hissue⟩⟩ := transact_next h
  · exact .of_eq rfl rfl
  · rcases writeReg_some_iff.mp hu with ⟨-, rfl⟩ | ⟨-, rfl⟩ | ⟨-, rfl⟩ | ⟨-, rfl⟩ <;> exact .of_eq rfl rfl
  · exact .of_eq rfl rfl
  · exact issueWord_statusKept hissue

theorem stepIn_statusKept {num : Num α n} {s t : State α n} (h : stepIn num s = .next t) : StatusKept s t := by
  rw [stepIn, stepWith_eq] at h
  split at h
  · cases h
    exact .of_eq rfl rfl
  · exact (transact_statusKept h :)

/-- Settles O16, at R64. -/
theorem statusIsSticky : Obligations.StatusIsSticky := by
  intro s t h
  rw [step_eq_stepIn] at h
  exact stepIn_statusKept h

end Sys2Proof.Machine
end

section
/-! PROOFS. The address space and the bus (spec/20_memory.md): which transactions are answered ERROR (R55), that a read has
no side effect (R54), and how a bank word passes the bus in R64 and in any NUM (R46, R48, R60).

The six cases of R55 are about the number of an address; the machine goes by what the address names. `ErrorCase` says the
cases by target, and `isBusError_iff` joins the two. -/

namespace Sys2Proof.Machine

variable {α : Type} {n : Nat}

/-! ### The ERROR cases by target (R55) -/

/-- The registers the host may write (R21, R55): CMD, which issues a command, and the four operand registers. -/
def Reg.hostMayWrite : Reg → Bool
  | .cmd | .size | .stride | .ioff | .ooff => true
  | .status | .result | .fcmd | .paramN | .paramT | .paramB => false

/-- The ERROR cases of R55 by kind and target of a transaction. -/
def ErrorCase (s : State α n) : Kind → Target → Prop
  | _, .unmapped => True
  | .rd, .reg g => g = .cmd
  | .wr, .reg g => g.hostMayWrite = false ∨ (g = .cmd ∧ s.status.err = true)
  | .rd, .word _ i => s.cfg.N ≤ i
  | .wr, .word b i => b.hostMayWrite = false ∨ s.cfg.N ≤ i

/-- A register the host may not write has no write that ends well. -/
theorem writeReg_eq_none {s : State α n} {g : Reg} (v : Word) (h : g.hostMayWrite = false) :
    s.writeReg v g = none := by
  cases g <;> simp_all [Reg.hostMayWrite, State.writeReg]

/-- CMD is the one register the host may not read (R55). -/
theorem readReg_eq_none_iff {s : State α n} {g : Reg} : s.readReg g = none ↔ g = .cmd := by
  cases g <;> simp [State.readReg]

/-- R55 from the number of the address is R55 by target: in region 0 the eleven registers and nothing above them, in regions
1 to 6 the banks, in region 7 nothing. -/
theorem isBusError_iff {s : State} {r : Request} : IsBusError s r ↔ ErrorCase s r.kind (targetOf r.addr) := by
  obtain ⟨kind, addr, wdata⟩ := r
  have hlt : addr.toNat / 2 ^ 32 < 8 := by have := addr.isLt; omega
  rw [targetOf_eq]
  unfold IsBusError
  dsimp only
  generalize addr.toNat / 2 ^ 32 = region at hlt
  generalize addr.toNat % 2 ^ 32 = index
  by_cases hregion : region = 0
  · subst hregion
    by_cases hindex : index < 11
    · interval_cases index <;> cases kind <;> simp [regOfIndex, ErrorCase, Reg.hostMayWrite]
    · have hnone : regOfIndex index = none := by
        rw [← Option.not_isSome_iff_eq_none, regOfIndex_isSome_iff]; exact hindex
      simp [hnone, ErrorCase, Nat.not_lt.mp hindex]
  · interval_cases region <;> cases kind <;> simp_all [bankOfRegion, ErrorCase, BankId.hostMayWrite]

/-! ### Reads -/

theorem hostRead_errorCase {num : Num α n} {t : Target} {s : State α n} (h : ErrorCase s .rd t) :
    hostRead num t s = .next (s.respond .error) := by
  cases t with
  | reg g => obtain rfl := h; rfl
  | word b i => exact if_neg (Nat.not_lt.mpr h)
  | unmapped => rfl

/-- Outside the ERROR cases a read that is answered gets data. -/
theorem hostRead_answered {num : Num α n} {t : Target} {s u : State α n} (h : ¬ErrorCase s .rd t)
    (hu : hostRead num t s = .next u) : ∃ v, u = s.respond (.okayData v) := by
  unfold hostRead at hu
  cases t with
  | reg g =>
    dsimp only at hu
    split at hu
    · cases hu; exact ⟨_, rfl⟩
    · next hnone => exact absurd (readReg_eq_none_iff.mp hnone) h
  | word b i =>
    dsimp only at hu
    rw [if_pos (Nat.not_le.mp h)] at hu
    split at hu
    · cases hu; exact ⟨_, rfl⟩
    · cases hu
  | unmapped => exact absurd trivial h

/-! ### Writes -/

/-- While ERR = 1 the issue of any word is turned away (R162). -/
theorem issueWord_turned_away {word : Word} {s : State} (hi : s.dp.isIdle = true) (he : s.status.err = true) :
    issueWord exec word s = .next (s.respond .error) := by
  have hturned : ∀ {w check run}, issue w check run s = .next (s.respond .error) :=
    issue_next_iff.mpr ⟨hi, .inl ⟨he, rfl⟩⟩
  unfold issueWord
  split
  · next i _ =>
    obtain ⟨check, run, hexec⟩ := exec_eq_issue i
    rw [hexec]
    exact hturned
  · exact hturned

/-- While ERR = 0 the issue of a word that answers a next state is answered OKAY: it faulted or completed (R153). -/
theorem issueWord_okay {num : Num α n} {word : Word} {s t : State α n} (he : s.status.err = false)
    (h : issueWord (execIn num) word s = .next t) : t.bus.responses = .okay :: s.bus.responses := by
  unfold issueWord at h
  split at h
  · obtain ⟨he', -⟩ | ⟨-, c, rfl⟩ | ⟨-, r, d, rfl, -, -⟩ := execIn_outcome h
    · rw [he] at he'; cases he'
    · rfl
    · rfl
  · obtain ⟨-, ⟨he', -⟩ | ⟨-, c, -, rfl⟩ | ⟨-, hnone, -⟩⟩ := issue_next_iff.mp h
    · rw [he] at he'; cases he'
    · rfl
    · cases hnone

theorem hostWrite_errorCase {t : Target} {d : Data} {s : State} (hi : s.dp.isIdle = true) (h : ErrorCase s .wr t) :
    hostWrite R64.num exec t d s = .next (s.respond .error) := by
  cases t with
  | reg g =>
    rcases h with hro | ⟨rfl, he⟩
    · cases g
      case cmd => cases hro
      all_goals simp only [hostWrite, writeReg_eq_none _ hro]
    · exact issueWord_turned_away hi he
  | word b i =>
    refine if_neg ?_
    rintro ⟨hb, hlt⟩
    rcases h with hb' | hge
    · rw [hb] at hb'; cases hb'
    · omega
  | unmapped => rfl

/-- Outside the ERROR cases a write that answers a next state is answered OKAY. -/
theorem hostWrite_okay {num : Num α n} {t : Target} {d : BitVec n} {s u : State α n} (h : ¬ErrorCase s .wr t)
    (hu : hostWrite num (execIn num) t d s = .next u) : u.bus.responses = .okay :: s.bus.responses := by
  cases t with
  | reg g =>
    obtain ⟨hrw, he⟩ := not_or.mp h
    cases g
    case cmd => exact issueWord_okay (by simpa using he) hu
    case size | stride | ioff | ooff => cases hu; rfl
    all_goals exact absurd rfl hrw
  | word b i =>
    obtain ⟨hb, hlt⟩ := not_or.mp h
    have hmay : b.hostMayWrite ∧ i < s.cfg.N := ⟨by simpa using hb, by omega⟩
    simp only [hostWrite, if_pos hmay] at hu
    cases hu
    rfl
  | unmapped => exact absurd trivial h

/-! ### The statements about transactions -/

/-- Settles O5: by target, a transaction in an ERROR case is answered ERROR, and any other one with data or OKAY. -/
theorem busErrorsAreExactlyTheListedCases : Obligations.BusErrorsAreExactlyTheListedCases := by
  intro s r rest hp hi
  have hcases : IsBusError s r ↔
      ErrorCase { s with bus := ⟨rest, s.bus.responses⟩ } r.kind (targetOf r.addr) := isBusError_iff
  rw [hcases, step_pending hp hi]
  have hexec : exec = execIn R64.num := funext fun i => funext (exec_eq_execIn i)
  cases r.kind with
  | rd =>
    refine ⟨fun h => hostRead_errorCase h, fun h t ht hresp => ?_⟩
    obtain ⟨v, rfl⟩ := hostRead_answered h ht
    simp at hresp
  | wr =>
    refine ⟨fun h => hostWrite_errorCase hi h, fun h t ht hresp => ?_⟩
    rw [hexec] at ht
    rw [hostWrite_okay h ht] at hresp
    simp at hresp

/-- Settles O6: of the things a transaction can do, a read can only be answered. -/
theorem readsHaveNoSideEffect : Obligations.ReadsHaveNoSideEffect := by
  intro s t a d rest hp h
  rw [step_eq, hp] at h
  obtain ⟨-, ⟨resp, rfl⟩ | ⟨hk, -⟩ | ⟨hk, -⟩ | ⟨hk, -⟩⟩ := transact_next h
  · exact ⟨resp, rfl⟩
  all_goals cases hk

/-! ### Bank words on the bus -/

/-- Word i of the bank of a region, in a configuration that meets its constraints: an index below N fits in an address. -/
theorem targetOf_bank {c : Config} {region i : Nat} {b : BankId} (hc : c.wellFormed = true) (hN : i < c.N)
    (hb : bankOfRegion region = some b) : targetOf (BitVec.ofNat 35 (region * 2 ^ 32 + i)) = .word b i := by
  have hle := N_le_of_wellFormed hc
  exact targetOf_word hb (by omega)

/-- The regions of the banks as the statements list them (R44). -/
theorem bankOfRegion_eq_some_iff {region : Nat} {b : BankId} :
    bankOfRegion region = some b ↔
      region = 1 ∧ b = .inRe ∨ region = 2 ∧ b = .inIm ∨ region = 3 ∧ b = .outRe ∨ region = 4 ∧ b = .outIm ∨
        region = 5 ∧ b = .twCos ∨ region = 6 ∧ b = .twSin := by
  unfold bankOfRegion
  split <;> simp_all [eq_comm]

/-- Regions 1 to 4 are the banks the host may write (R44, R48). -/
theorem hostMayWrite_of_region_le {region : Nat} {b : BankId} (hb : bankOfRegion region = some b) (hle : region ≤ 4) :
    b.hostMayWrite = true := by
  rcases bankOfRegion_eq_some_iff.mp hb with h | h | h | h | h | h <;> obtain ⟨rfl, rfl⟩ := h <;>
    simp [BankId.hostMayWrite] at hle ⊢

/-- Settles O10: the address names word i of one of the four banks the host may write. -/
theorem sampleWordWriteThenRead : Obligations.SampleWordWriteThenRead := by
  intro s region i d rest hi hN hc h1 h4 hp
  obtain ⟨b, hb⟩ : ∃ b, bankOfRegion region = some b := by interval_cases region <;> exact ⟨_, rfl⟩
  have hbank : ∀ b', (region = 1 ∧ b' = .inRe ∨ region = 2 ∧ b' = .inIm ∨ region = 3 ∧ b' = .outRe ∨
      region = 4 ∧ b' = .outIm) ↔ b' = b := by
    intro b'
    rcases bankOfRegion_eq_some_iff.mp hb with h | h | h | h | h | h <;> obtain ⟨rfl, rfl⟩ := h <;> simp at h4 ⊢
  have hmay : b.hostMayWrite ∧ i < s.cfg.N := ⟨hostMayWrite_of_region_le hb h4, hN⟩
  refine ⟨_, (step_word_write hp hi (targetOf_bank hc hN hb)).trans (if_pos hmay), rfl, fun b' j => ?_, rfl⟩
  simp only [hbank]
  exact Memory.read_write _ _ _ _ _ _

/-- Settles O11: an index below N leaves the two cases of a word read, a value and none. -/
theorem wordReadsGiveTheValueOrRefuse : Obligations.WordReadsGiveTheValueOrRefuse := by
  intro s region i b d rest hi hN hc hb hp
  have hstep := step_word_read hp hi (targetOf_bank hc hN (bankOfRegion_eq_some_iff.mpr hb))
  rw [if_pos hN] at hstep
  constructor
  · intro v hv
    rw [hstep, hv]
    rfl
  · intro hnone
    rw [hstep, hnone]

/-- Settles O30: the rules of a word write and a word read for any NUM, and NUM_W bits fit on the data path. -/
theorem bankWordsPassTheBusEncoded : Obligations.BankWordsPassTheBusEncoded := by
  intro α w num s region i b d rest hi hN hc hb
  have hregion := bankOfRegion_eq_some_iff.mpr hb
  have ht := targetOf_bank hc hN hregion
  refine ⟨fun hle hp => ?_, fun hp v hv => stepIn_word_read hp hi ht hN hv, busIn_busOut num⟩
  refine ⟨_, stepIn_word_write hp hi ht (hostMayWrite_of_region_le hregion hle) hN, fun b' j => ?_, rfl⟩
  exact Memory.read_write _ _ _ _ _ _

/-! ### The frame of DFT, FFT1 and BPASS -/

theorem OutFrame.sameOutsideRun {c : Config} {ooff size : Nat} {m m' : Memory α}
    (h : OutFrame c ooff (ooff + size) m m') : SameOutsideRun ooff size m m' :=
  fun b i hout => h.same b i fun ⟨hb, hlo, hhi, _⟩ => hout ⟨hb, hlo, hhi⟩

/-- Settles O48: each of the three completes with its execution's datapath and nothing else changed but DONE, and each
execution stays in its run. -/
theorem transformsWriteOnlyTheirRun : Obligations.TransformsWriteOnlyTheirRun := by
  intro i s t hcmd h he
  obtain ⟨hidle, -, hrun⟩ := exec_completed h he
  obtain ⟨hseq, -⟩ := isIdle_iff.mp hidle
  have hcompleted : ∃ d, (d.seq = [] ∧ d.it = s.dp.it ∧
        OutFrame s.cfg s.ooff.toNat (s.ooff.toNat + s.size.toNat) s.dp.mem d.mem) ∧
      t = complete { s with status := s.status.clearDone, dp := d } := by
    rcases hcmd with rfl | rfl | rfl <;> obtain ⟨-, d, hd, rfl⟩ := hrun
    · exact ⟨d, runDft_frame hseq hd, rfl⟩
    · exact ⟨d, runFft1_frame hseq hd, rfl⟩
    · exact ⟨d, runBpass_frame hseq hd, rfl⟩
  obtain ⟨d, ⟨hseq', hit, hmem⟩, rfl⟩ := hcompleted
  exact ⟨by simp [OnlyDoneAndDatapath], rfl, hseq', hit, hmem.sameOutsideRun⟩

end Sys2Proof.Machine
end

section
/-! PROOFS. Every transaction ends (spec/20_memory.md R52, spec/43_fft_recursive.md R126, R127, spec/45_fft_iterative.md
R148): from a state that meets the invariant a step answers a next state or is refused at a word without a value.

Progress of the recursive function of R129 and of the nested loops of R142 is known (`OkOrNoValue`). The machine runs a task
stack and a loop controller instead, with bounds on their steps and on the depth of the stack; `runFft1_eq_fft1Rec` and
`runFft2_eq_fft2Loops` show that the bounds are enough and the results the same. -/

namespace Sys2Proof.Machine

variable {α : Type} {n : Nat} {ns : NumSys α} {c : Config}

/-! ### The task stack runs the recursive function (R129) -/

/-- A run with a task on top of the stack executes that task first. -/
theorem runSeq_cons (t : Task) (rest : List Task) (f : Nat) (d : Datapath α) :
    runSeq ns c (f + 1) (d.withSeq (t :: rest)) = (do
      let e ← execTask ns c t (d.withSeq rest)
      runSeq ns c f e) := rfl

theorem runSeq_cons_dft (ioff ooff size stride : Nat) (rest : List Task) (f : Nat) (d : Datapath α) :
    runSeq ns c (f + 1) (d.withSeq (.dft ioff ooff size stride :: rest)) = (do
      let e ← dftTask ns c ioff ooff size stride d
      runSeq ns c f (e.withSeq rest)) := by
  rw [runSeq_cons, execTask, dftTask_withItthSeq]
  cases dftTask ns c ioff ooff size stride d <;> rfl

theorem runSeq_cons_bpass (ooff size : Nat) (rest : List Task) (f : Nat) (d : Datapath α) :
    runSeq ns c (f + 1) (d.withSeq (.bpass ooff size :: rest)) = (do
      let e ← bpassTask ns c ooff size d
      runSeq ns c f (e.withSeq rest)) := by
  rw [runSeq_cons, execTask, bpassTask_withItthSeq]
  cases bpassTask ns c ooff size d <;> rfl

/-- An FFT task on top of a stack with room for three is replaced by the halves and the pass (R123). -/
theorem runSeq_cons_fft {ioff ooff size stride : Nat} {rest : List Task} (f : Nat) (d : Datapath α)
    (hroom : rest.length + 2 < c.stackDepth) :
    runSeq ns c (f + 1) (d.withSeq (.fft ioff ooff size stride :: rest)) =
      runSeq ns c f (d.withSeq
        (if size / 2 > c.T ∧ size / 2 % 2 = 0 then
          .fft ioff ooff (size / 2) (2 * stride) ::
            .fft (ioff + stride) (ooff + size / 2) (size / 2) (2 * stride) :: .bpass ooff size :: rest
        else
          .dft ioff ooff (size / 2) (2 * stride) ::
            .dft (ioff + stride) (ooff + size / 2) (size / 2) (2 * stride) :: .bpass ooff size :: rest)) := by
  rw [runSeq_cons, execTask, fftTask_ok_iff.mpr ⟨hroom, rfl⟩]
  rfl

/-- An FFT task of size 2^l on top of the stack does what the recursive function does, in fewer than 3 · 2^l tasks (R126)
and with at most 2l + 1 entries of the stack (R127). -/
theorem runSeq_cons_fft_eq_fft1Rec (l : Nat) (hl : 1 ≤ l) :
    ∃ k, k + 2 ≤ 3 * 2 ^ l ∧ ∀ (ioff ooff stride : Nat) (rest : List Task) (f : Nat) (d : Datapath α),
      rest.length + (2 * l + 1) ≤ c.stackDepth →
        runSeq ns c (k + f) (d.withSeq (.fft ioff ooff (2 ^ l) stride :: rest)) = (do
          let e ← fft1Rec ns c l ioff ooff (2 ^ l) stride d
          runSeq ns c f (e.withSeq rest)) := by
  induction l with
  | zero => omega
  | succ l ih =>
    have hhalf : 2 ^ (l + 1) / 2 = 2 ^ l := by rw [Nat.pow_succ]; omega
    have hpow : 2 ^ (l + 1) = 2 * 2 ^ l := by rw [Nat.pow_succ]; omega
    by_cases hsplit : 2 ^ l > c.T ∧ 2 ^ l % 2 = 0
    · have hl' : 1 ≤ l := by
        by_contra h0
        obtain rfl : l = 0 := by omega
        simp at hsplit
      obtain ⟨k, hk, hrec⟩ := ih hl'
      refine ⟨k + k + 2, by omega, fun ioff ooff stride rest f d hroom => ?_⟩
      rw [show k + k + 2 + f = k + (k + (f + 1)) + 1 by omega, runSeq_cons_fft _ _ (by omega), hhalf, if_pos hsplit,
        hrec _ _ _ _ _ _ (by simp; omega)]
      simp only [fft1Rec, hhalf, if_pos hsplit, bind_assoc]
      refine bind_congr fun e => ?_
      rw [hrec _ _ _ _ _ _ (by simp; omega)]
      exact bind_congr fun e' => runSeq_cons_bpass _ _ _ _ _
    · refine ⟨4, by have := Nat.two_pow_pos l; omega, fun ioff ooff stride rest f d hroom => ?_⟩
      rw [show 4 + f = f + 1 + 1 + 1 + 1 by omega, runSeq_cons_fft _ _ (by omega), hhalf, if_neg hsplit, runSeq_cons_dft]
      simp only [fft1Rec, hhalf, if_neg hsplit, bind_assoc]
      refine bind_congr fun e => ?_
      rw [runSeq_cons_dft]
      exact bind_congr fun e' => runSeq_cons_bpass _ _ _ _ _

theorem runSeq_nil (f : Nat) (d : Datapath α) : runSeq ns c f (d.withSeq []) = .ok (d.withSeq []) := by
  cases f <;> rfl

/-- The execution of FFT1 from an empty stack is the recursive function (R129). -/
theorem runFft1_eq_fft1Rec (hc : c.wellFormed = true) {o : Operands} {l : Nat} {d : Datapath α} (hsize : o.size = 2 ^ l)
    (hl : 1 ≤ l) (hN : o.size ≤ c.N) (hseq : d.seq = []) :
    runFft1 ns c o d = (fft1Rec ns c l o.ioff o.ooff o.size o.stride d).map (Datapath.withSeq []) := by
  have hstack := cfg_stack_le hc
  have hle : l ≤ c.n := by
    rw [hsize] at hN
    exact (Nat.pow_le_pow_iff_right (by omega)).mp hN
  have hpush : d.push c (.fft o.ioff o.ooff o.size o.stride) =
      .ok (d.withSeq [.fft o.ioff o.ooff o.size o.stride]) :=
    push_ok_iff.mpr ⟨by rw [hseq]; simp; omega, by rw [hseq]; rfl⟩
  obtain ⟨k, hk, hrec⟩ := runSeq_cons_fft_eq_fft1Rec (ns := ns) (c := c) l hl
  rw [runFft1, hpush, Res.ok_bind, hsize, show 3 * 2 ^ l = k + (3 * 2 ^ l - k) by omega,
    hrec _ _ _ _ _ _ (by simp; omega)]
  simp only [runSeq_nil]
  cases fft1Rec ns c l o.ioff o.ooff (2 ^ l) o.stride d <;> rfl

/-! ### The loop controller runs the nested loops (R142, R144) -/

/-- One transition of a controller that is not idle. -/
theorem runController_succ {d : Datapath α} (f : Nat) (hp : d.it.phase ≠ .idle) :
    runController ns c (1 + f) d = (do
      let e ← controllerStep ns c d
      runController ns c f e) := by
  rw [Nat.add_comm, runController, if_neg hp]

theorem controllerStep_scatter {d : Datapath α} (hp : d.it.phase = .scatter) :
    controllerStep ns c d = scatterStep ns c d := by rw [controllerStep, hp]

theorem controllerStep_stages {d : Datapath α} (hp : d.it.phase = .stages) :
    controllerStep ns c d = stagesStep ns c d := by rw [controllerStep, hp]

/-- A stretch of controller transitions is a loop: round i, which leaves SEQ as it was, takes `cost i` transitions from
`it i` to `it (i + 1)`. -/
theorem runController_forN {F : Nat → Datapath α → Res (Datapath α)} {it : Nat → LoopRegs} {cost : Nat → Nat} {k : Nat}
    (hround : ∀ i f (d : Datapath α), i < k → d.seq = [] →
      runController ns c (cost i + f) (d.withIt (it i)) = (do
        let e ← F i d
        runController ns c f (e.withIt (it (i + 1)))))
    (hkept : ∀ i d e, F i d = .ok e → e.seq = d.seq) (f : Nat) {d : Datapath α} (hd : d.seq = []) :
    runController ns c ((∑ i ∈ Finset.range k, cost i) + f) (d.withIt (it 0)) = (do
      let e ← forN k F d
      runController ns c f (e.withIt (it k))) := by
  induction k generalizing f with
  | zero => rw [Finset.sum_range_zero, Nat.zero_add]; rfl
  | succ k ih =>
    rw [Finset.sum_range_succ, Nat.add_assoc, ih (fun i f d hi => hround i f d (by omega)), forN, bind_assoc]
    cases he : forN k F d with
    | error e => rfl
    | ok e =>
      have hseq : e.seq = [] :=
        forN_invariant (fun _ (x : Datapath α) => x.seq = []) (fun i x y hx hy => (hkept i x y hy).trans hx) hd he
      exact hround k f e (by omega) hseq

/-- IT after j blocks of phase SCATTER. -/
def scatterIt (c : Config) (j : Nat) : LoopRegs :=
  if j < c.blocks then ⟨.scatter, j, 0, 0⟩ else ⟨.stages, 0, 2 * c.B, 0⟩

/-- IT after i windows of the stage of width w. -/
def stageIt (c : Config) (w i : Nat) : LoopRegs :=
  if i * w < c.N then ⟨.stages, 0, w, i * w⟩ else ⟨.stages, 0, 2 * w, 0⟩

/-- Phase SCATTER is the loop over the blocks (R142). -/
theorem runController_scatter (hc : c.wellFormed = true) (f : Nat) {d : Datapath α} (hd : d.seq = []) :
    runController ns c (c.blocks + f) (d.withIt ⟨.scatter, 0, 0, 0⟩) = (do
      let e ← forN c.blocks (fft2Block ns c) d
      runController ns c f (e.withIt ⟨.stages, 0, 2 * c.B, 0⟩)) := by
  obtain ⟨hstack, hblocks, -, -⟩ := cfg_blocks_spec hc
  have hpos : 0 < c.blocks := by rw [hblocks]; positivity
  have hround : ∀ j f (d : Datapath α), j < c.blocks → d.seq = [] →
      runController ns c (1 + f) (d.withIt (scatterIt c j)) = (do
        let e ← fft2Block ns c j d
        runController ns c f (e.withIt (scatterIt c (j + 1)))) := by
    intro j f d hj hd
    rw [scatterIt, if_pos hj, runController_succ _ (by simp [Datapath.withIt]), controllerStep_scatter rfl,
      scatterStep_eq hd hstack]
    cases fft2Block ns c j d <;> rfl
  have hloop := runController_forN (cost := fun _ => 1) hround (fun _ _ _ => fft2Block_seq) f hd
  simpa [scatterIt, hpos] using hloop

/-- The windows of one stage of phase STAGES are its loop over the passes (R142). -/
theorem runController_stage (hc : c.wellFormed = true) {w : Nat} (hw : 0 < w) (hdvd : w ∣ c.N) (f : Nat)
    {d : Datapath α} (hd : d.seq = []) :
    runController ns c (c.N / w + f) (d.withIt ⟨.stages, 0, w, 0⟩) = (do
      let e ← fft2Stage ns c w d
      runController ns c f (e.withIt ⟨.stages, 0, 2 * w, 0⟩)) := by
  obtain ⟨hstack, -, -, -⟩ := cfg_blocks_spec hc
  have hNpos : 0 < c.N := Nat.two_pow_pos _
  have hlast : c.N / w * w = c.N := Nat.div_mul_cancel hdvd
  have hround : ∀ i f (d : Datapath α), i < c.N / w → d.seq = [] →
      runController ns c (1 + f) (d.withIt (stageIt c w i)) = (do
        let e ← bpassTask ns c (i * w) w d
        runController ns c f (e.withIt (stageIt c w (i + 1)))) := by
    intro i f d hi hd
    have hlt : i * w < c.N := by
      have h := Nat.mul_lt_mul_of_pos_right hi hw
      rwa [hlast] at h
    rw [stageIt, if_pos hlt, runController_succ _ (by simp [Datapath.withIt]), controllerStep_stages rfl,
      stagesStep_eq hd hstack (Nat.le_of_dvd hNpos hdvd), stageIt, show (i + 1) * w = i * w + w from Nat.succ_mul i w]
    cases bpassTask ns c (i * w) w d <;> rfl
  have hkept : ∀ i (d e : Datapath α), bpassTask ns c (i * w) w d = .ok e → e.seq = d.seq :=
    fun _ _ _ h => (bpassTask_frame h).1
  have hloop := runController_forN (cost := fun _ => 1) hround hkept f hd
  simpa [stageIt, hNpos, hlast, fft2Stage] using hloop

theorem fft2Stage_seq {w : Nat} {d e : Datapath α} (h : fft2Stage ns c w d = .ok e) : e.seq = d.seq :=
  forN_invariant (fun _ (x : Datapath α) => x.seq = d.seq) (fun _ _ _ hx hy => (bpassTask_frame hy).1.trans hx) rfl h

/-- The widths of the stages divide N (R143). -/
theorem N_eq_mul_stage_width (hb : c.b ≤ c.n) {q : Nat} (hq : q < c.n - c.b) :
    c.N = 2 ^ (c.n - c.b - 1 - q) * (2 ^ (q + 1) * c.B) := by
  unfold Config.N Config.B
  rw [← Nat.pow_add, ← Nat.pow_add]
  congr 1
  omega

/-- Phase STAGES is the loop over the widths 2B, 4B, …, N, in N/B − 1 transitions (R143, R148). -/
theorem runController_stages (hc : c.wellFormed = true) (f : Nat) {d : Datapath α} (hd : d.seq = []) :
    runController ns c (c.blocks - 1 + f) (d.withIt ⟨.stages, 0, 2 * c.B, 0⟩) = (do
      let e ← forN (c.n - c.b) (fun q => fft2Stage ns c (2 ^ (q + 1) * c.B)) d
      runController ns c f (e.withIt ⟨.stages, 0, 2 * c.N, 0⟩)) := by
  obtain ⟨-, hblocks, hN, hb⟩ := cfg_blocks_spec hc
  have hB : 0 < c.B := Nat.two_pow_pos _
  have hround : ∀ q f (d : Datapath α), q < c.n - c.b → d.seq = [] →
      runController ns c (2 ^ (c.n - c.b - 1 - q) + f) (d.withIt ⟨.stages, 0, 2 ^ (q + 1) * c.B, 0⟩) = (do
        let e ← fft2Stage ns c (2 ^ (q + 1) * c.B) d
        runController ns c f (e.withIt ⟨.stages, 0, 2 ^ (q + 1 + 1) * c.B, 0⟩)) := by
    intro q f d hq hd
    have hw : 0 < 2 ^ (q + 1) * c.B := by positivity
    have hmul := N_eq_mul_stage_width hb hq
    have hdiv : c.N / (2 ^ (q + 1) * c.B) = 2 ^ (c.n - c.b - 1 - q) := Nat.div_eq_of_eq_mul_left hw hmul
    rw [← hdiv, runController_stage hc hw ⟨_, hmul.trans (Nat.mul_comm _ _)⟩ f hd, Nat.pow_succ 2 (q + 1), Nat.mul_comm _ 2,
      Nat.mul_assoc]
  have hloop := runController_forN (it := fun q => ⟨.stages, 0, 2 ^ (q + 1) * c.B, 0⟩) hround (fun _ _ _ => fft2Stage_seq)
    f hd
  have hsum : ∑ q ∈ Finset.range (c.n - c.b), 2 ^ (c.n - c.b - 1 - q) = c.blocks - 1 := by
    rw [Finset.sum_range_reflect (fun q => 2 ^ q), hblocks, Nat.geomSum_eq (le_refl 2)]
    simp
  have hlast : 2 ^ (c.n - c.b + 1) * c.B = 2 * c.N := by rw [hN, hblocks]; ring
  rw [hsum, hlast] at hloop
  simpa using hloop

/-- Past width N the controller is idle (R144). -/
theorem runController_past_width (f : Nat) (d : Datapath α) :
    runController ns c (1 + f) (d.withIt ⟨.stages, 0, 2 * c.N, 0⟩) = .ok (d.withIt LoopRegs.idle) := by
  have hN : c.N < 2 * c.N := by have : 0 < c.N := Nat.two_pow_pos _; omega
  have hstep : controllerStep ns c (d.withIt ⟨.stages, 0, 2 * c.N, 0⟩) = .ok (d.withIt LoopRegs.idle) := if_pos hN
  rw [runController_succ _ (by simp [Datapath.withIt]), hstep]
  cases f <;> rfl

/-- The execution of FFT2 from an empty stack is the nested loops, in 2N/B transitions (R142, R148). -/
theorem runFft2_eq_fft2Loops (hc : c.wellFormed = true) {d : Datapath α} (hd : d.seq = []) :
    runFft2 ns c d = (fft2Loops ns c d).map (Datapath.withIt LoopRegs.idle) := by
  obtain ⟨-, hblocks, hN, -⟩ := cfg_blocks_spec hc
  have hpos : 0 < c.blocks := by rw [hblocks]; positivity
  have hle : c.blocks ≤ c.N := by rw [hN]; exact Nat.le_mul_of_pos_left _ (Nat.two_pow_pos _)
  have hfuel : 2 * c.N = c.blocks + (c.blocks - 1 + (1 + (2 * c.N - 2 * c.blocks))) := by omega
  have hrun : runFft2 ns c d = runController ns c (2 * c.N) (d.withIt ⟨.scatter, 0, 0, 0⟩) := rfl
  rw [hrun, hfuel, runController_scatter hc _ hd, fft2Loops, Res.map_bind]
  cases he : forN c.blocks (fft2Block ns c) d with
  | error e => rfl
  | ok e =>
    have hseq : e.seq = [] := forN_invariant (fun _ (x : Datapath α) => x.seq = [])
      (fun _ _ _ hx hy => (fft2Block_seq hy).trans hx) hd he
    rw [Res.ok_bind, Res.ok_bind, runController_stages hc _ hseq]
    simp only [runController_past_width]
    cases forN (c.n - c.b) (fun q => fft2Stage ns c (2 ^ (q + 1) * c.B)) e <;> rfl

/-! ### Progress of the commands -/

variable {m₀ : Memory α}

theorem OkOrNoValue.map {β γ : Type} {x : Res β} (hx : OkOrNoValue m₀ x) (g : β → γ) : OkOrNoValue m₀ (x.map g) := by
  obtain ⟨a, rfl⟩ | ⟨b, i, hb, rfl⟩ := hx
  · exact .inl ⟨g a, rfl⟩
  · exact .inr ⟨b, i, hb, rfl⟩

/-- Progress of the execution of FFT1 on operands that fit (R122, R126, R127). -/
theorem OkOrNoValue.runFft1 (hc : c.wellFormed = true) {o : Operands} {d : Datapath α} (hseq : d.seq = [])
    (hpow : ∃ q, o.size = 2 ^ q) (h2 : 2 ≤ o.size) (hN : o.size ≤ c.N) (hstr : o.stride * o.size ≤ c.N)
    (hview : o.ioff + (o.size - 1) * o.stride ≤ c.N - 1) (hrun : o.ooff + o.size ≤ c.N) :
    OkOrNoValue d.mem (runFft1 ns c o d) := by
  obtain ⟨q, hq⟩ := hpow
  have hq1 : 1 ≤ q := by
    by_contra h0
    obtain rfl : q = 0 := by omega
    omega
  rw [runFft1_eq_fft1Rec hc hq hq1 hN hseq]
  exact (OkOrNoValue.fft1Rec q o.size hq hq1 _ _ _ d (Memory.Fills.refl _) hN hstr hview hrun).map _

theorem OkOrNoValue.runFft2 (hc : c.wellFormed = true) {d : Datapath α} (hseq : d.seq = []) :
    OkOrNoValue d.mem (runFft2 ns c d) := by
  rw [runFft2_eq_fft2Loops hc hseq]
  exact (OkOrNoValue.fft2Loops hc (Memory.Fills.refl _)).map _

theorem OkOrNoValue.onDatapath {s : State α n} {f : Datapath α → Res (Datapath α)} (hf : OkOrNoValue m₀ (f s.dp)) :
    OkOrNoValue m₀ (s.onDatapath f) := hf.bind fun _ _ => .ok _

/-! ### Every step ends (R52) -/

/-- The outcome of a step is a next state, or the refusal of a word that holds no value in `m`. -/
def Ends (m : Memory α) (o : Host.Outcome (State α n) Fault Refusal) : Prop :=
  (∃ t, o = .next t) ∨ ∃ b i, m.read b i = none ∧ o = .refused (.noValue b i)

theorem Ends.next {m : Memory α} (t : State α n) : Ends m (.next t : Host.Outcome (State α n) Fault Refusal) :=
  .inl ⟨t, rfl⟩

/-- The rule of the issue procedure (R153): on an idle engine it ends if every accepted execution makes progress. -/
theorem issue_ends {word : Word} {check : State α n → Option Cause} {run : State α n → Res (State α n)}
    {s : State α n} (hi : s.dp.isIdle = true)
    (hrun : check { s with status := s.status.clearDone } = none →
      OkOrNoValue s.dp.mem (run { s with status := s.status.clearDone })) :
    Ends s.dp.mem (issue word check run s) := by
  cases ho : issue word check run s with
  | next t => exact .next t
  | fault f =>
    obtain ⟨-, -, hnone, hf⟩ := issue_fault_iff.mp ho
    obtain ⟨a, ha⟩ | ⟨b, i, -, hb⟩ := hrun hnone
    · cases hf.symm.trans ha
    · cases hf.symm.trans hb
  | refused r =>
    obtain ⟨hbusy, -⟩ | ⟨-, -, hnone, hr⟩ := issue_refused_iff.mp ho
    · rw [hi] at hbusy; cases hbusy
    · obtain ⟨a, ha⟩ | ⟨b, i, hread, hb⟩ := hrun hnone
      · cases hr.symm.trans ha
      · cases hr.symm.trans hb
        exact .inr ⟨b, i, hread, rfl⟩

theorem InvIn.isIdle {s : State α n} (hs : InvIn ns s) : s.dp.isIdle = true := by
  obtain ⟨hseq, hit, -⟩ := hs.quiet
  exact isIdle_iff.mpr ⟨hseq, by rw [hit]; rfl⟩

/-- From a state that meets the invariant every command ends (R126, R148, R187). -/
theorem execIn_ends {num : Num α n} (i : Instr) {s : State α n} (hs : InvIn ns s) :
    Ends s.dp.mem (execIn num i s) := by
  obtain ⟨hseq, -⟩ := hs.quiet
  have hi := hs.isIdle
  have hc := hs.cfgOk
  have hstack : 0 < s.cfg.stackDepth := (cfg_blocks_spec hc).1
  cases i with
  | init =>
    rw [execIn_init_eq]
    refine issue_ends hi fun _ => OkOrNoValue.bind (OkOrNoValue.onDatapath ?_) fun _ _ => .ok _
    obtain ⟨m, hm, -⟩ := runInit_ok (ns := num.toNumSys) (c := s.cfg) s.dp
    exact .inl ⟨_, hm⟩
  | dft =>
    rw [execIn_dft_eq]
    refine issue_ends hi fun hnone => OkOrNoValue.onDatapath ?_
    obtain ⟨-, hpow, hN, hstr, hview, hrun⟩ := checkDft_none_iff.mp hnone
    rw [runDft_eq (by exact hseq) hstack]
    exact OkOrNoValue.dftTask (Memory.Fills.refl _) hpow hN hstr hview hrun
  | fft1 =>
    rw [execIn_fft1_eq]
    refine issue_ends hi fun hnone => OkOrNoValue.onDatapath ?_
    obtain ⟨-, hpow, h2, hN, hstr, hview, hrun⟩ := checkFft1_none_iff.mp hnone
    exact OkOrNoValue.runFft1 hc hseq hpow h2 hN hstr hview hrun
  | fft2 =>
    rw [execIn_fft2_eq]
    exact issue_ends hi fun _ => OkOrNoValue.onDatapath (OkOrNoValue.runFft2 hc hseq)
  | bpass =>
    rw [execIn_bpass_eq]
    refine issue_ends hi fun hnone => OkOrNoValue.onDatapath ?_
    obtain ⟨-, -, h2, hN, hrun⟩ := checkBpass_none_iff.mp hnone
    rw [runBpass_eq (by exact hseq) hstack]
    exact OkOrNoValue.bpassTask (Memory.Fills.refl _) (Nat.zero_lt_of_lt h2) hN hrun
  | brev =>
    rw [execIn_brev_eq]
    refine issue_ends hi fun hnone => OkOrNoValue.bind ?_ fun _ _ => .ok _
    obtain ⟨⟨q, hq⟩, hlt⟩ := checkBrev_none_iff.mp hnone
    dsimp only at hq hlt ⊢
    rw [hq] at hlt ⊢
    obtain ⟨r, hr, -⟩ := brevnetRegs_ok hlt
    exact .inl ⟨_, hr⟩

theorem issueWord_ends {num : Num α n} (word : Word) {s : State α n} (hs : InvIn ns s) :
    Ends s.dp.mem (issueWord (execIn num) word s) := by
  unfold issueWord
  split
  · exact execIn_ends _ hs
  · exact issue_ends hs.isIdle fun hnone => nomatch hnone

/-- A host read is refused only at a word that holds no value (R60). -/
theorem hostRead_ends (num : Num α n) (t : Target) (s : State α n) : Ends s.dp.mem (hostRead num t s) := by
  unfold hostRead
  cases t with
  | reg g =>
    dsimp only
    split <;> exact .next _
  | word b i =>
    dsimp only
    split
    · cases hr : s.dp.mem.read b i with
      | some v => exact .next _
      | none => exact .inr ⟨b, i, hr, rfl⟩
    · exact .next _
  | unmapped => exact .next _

/-- A host write answers a next state, unless it issues a command that is refused. -/
theorem hostWrite_ends {num : Num α n} (t : Target) (d : BitVec n) {s : State α n} (hs : InvIn ns s) :
    Ends s.dp.mem (hostWrite num (execIn num) t d s) := by
  unfold hostWrite
  split
  · exact issueWord_ends _ hs
  · split <;> exact .next _
  · split <;> exact .next _
  · exact .next _

/-- In any NUM every step from a state that meets the invariant ends. -/
theorem stepIn_ends {num : Num α n} {s : State α n} (hs : InvIn ns s) : Ends s.dp.mem (stepIn num s) := by
  rw [stepIn, stepWith_eq]
  split
  · exact .next _
  · next r rest _ =>
    have hs' : InvIn ns { s with bus := { s.bus with pending := rest } } := hs.congr rfl rfl rfl rfl
    simp only [transact, hs.isIdle, Bool.not_true, Bool.false_eq_true, if_false]
    cases r.kind with
    | rd => exact hostRead_ends num _ _
    | wr => exact hostWrite_ends _ _ hs'

/-- Settles O57: it is the rule for any NUM, at R64. -/
theorem everyTransactionEnds : Obligations.EveryTransactionEnds := by
  intro s hs
  rw [step_eq_stepIn]
  exact stepIn_ends hs

end Sys2Proof.Machine
end

section
/-! PROOFS. Command words and host scripts (spec/30_encoding.md): the decoder (R65 to R67), the expansions of the command
pseudo-instructions (R75), what FFT2, INIT and BREV leave unchanged, and that the operand registers a command does not read
have no influence on it (R69). -/

namespace Sys2Proof.Machine

variable {α : Type} {n : Nat} {ns : NumSys α} {c : Config}

/-! ### The decoder (R65 to R67) -/

/-- The opcode map is the inverse of the opcodes of the commands (R67). -/
theorem decodeOpc_eq_some_iff {opc : BitVec 4} {i : Instr} : decodeOpc opc = some i ↔ opc = opcOf i := by
  cases i <;> revert opc <;> decide

/-- A word decodes to a command exactly if its reserved bits are zero and its opcode is the command's (R65, R66). -/
theorem decode_eq_ok_iff_fields {w : Word} {i : Instr} :
    decode w = .ok i ↔ rsvdField w = 0#28 ∧ opcField w = opcOf i := by
  rw [← decodeOpc_eq_some_iff, decode]
  split_ifs with hrsvd
  · simp [hrsvd]
  · cases decodeOpc (opcField w) <;> simp_all

/-- A word is its two fields (R65). -/
theorem rsvdField_append_opcField (w : Word) : rsvdField w ++ opcField w = w :=
  BitVec.extractLsb'_append_extractLsb'_eq_extractLsb' (by omega) |>.trans BitVec.extractLsb'_eq_self

/-- Each command has exactly one word (R67). -/
theorem decode_eq_ok_iff {w : Word} {i : Instr} : decode w = .ok i ↔ w = encode i := by
  rw [decode_eq_ok_iff_fields]
  constructor
  · rintro ⟨hrsvd, hopc⟩
    rw [← rsvdField_append_opcField w, hrsvd, hopc, encode]
  · rintro rfl
    cases i <;> decide

theorem decode_encode (i : Instr) : decode (encode i) = .ok i := decode_eq_ok_iff.mpr rfl

/-- The words of the commands are the numbers 1 to 6 (R67). -/
theorem exists_eq_encode_iff {w : Word} : (∃ i, w = encode i) ↔ 1 ≤ w.toNat ∧ w.toNat ≤ 6 := by
  constructor
  · rintro ⟨i, rfl⟩
    cases i <;> decide
  · rintro ⟨hlo, hhi⟩
    obtain h | h | h | h | h | h : w.toNat = 1 ∨ w.toNat = 2 ∨ w.toNat = 3 ∨ w.toNat = 4 ∨ w.toNat = 5 ∨ w.toNat = 6 := by
      omega
    · exact ⟨.init, BitVec.eq_of_toNat_eq h⟩
    · exact ⟨.dft, BitVec.eq_of_toNat_eq h⟩
    · exact ⟨.fft1, BitVec.eq_of_toNat_eq h⟩
    · exact ⟨.fft2, BitVec.eq_of_toNat_eq h⟩
    · exact ⟨.bpass, BitVec.eq_of_toNat_eq h⟩
    · exact ⟨.brev, BitVec.eq_of_toNat_eq h⟩

/-- Settles O2: a command's word is one of the numbers 1 to 6, and these are the words with no bit above bit 3 and low four
bits 1 to 6. -/
theorem decodeIsExactlyTheSixWords : Obligations.DecodeIsExactlyTheSixWords := by
  refine ⟨fun w i => decode_eq_ok_iff, fun w => ?_, rfl, rfl, rfl, rfl, rfl, rfl⟩
  simp only [decode_eq_ok_iff, exists_eq_encode_iff]
  omega

/-- Settles O1: the first six are the words of the commands, and the decoder computes the reason of each of the others. -/
theorem sampleWordsDecode : Obligations.SampleWordsDecode :=
  ⟨decode_encode .init, decode_encode .dft, decode_encode .fft1, decode_encode .fft2, decode_encode .bpass,
    decode_encode .brev, rfl, rfl, rfl, rfl, rfl⟩

/-! ### The frames of FFT2, INIT and BREV -/

/-- No task touches IT (R33, R35). -/
theorem seqStep_it {d e : Datapath α} (h : seqStep ns c d = .ok e) : e.it = d.it := by
  unfold seqStep at h
  split at h
  · cases h; rfl
  · next t rest _ =>
    cases t with
    | fft => obtain ⟨-, rfl⟩ := fftTask_ok_iff.mp h; rfl
    | dft => exact (dftTask_frame h).2.1
    | bpass => exact (bpassTask_frame h).2.1

theorem runSeq_it {f : Nat} {d e : Datapath α} (h : runSeq ns c f d = .ok e) : e.it = d.it :=
  (runSeq_invariant (fun x => x.it = d.it) (fun _ _ hx hxy => (seqStep_it hxy).trans hx) rfl h).1

/-- A push and the run after it, as the loop controller makes them, leave IT alone. -/
theorem push_runSeq_it {t : Task} {f : Nat} {d e x : Datapath α} (hx : d.push c t = .ok x)
    (h : runSeq ns c f x = .ok e) : e.it = d.it := by
  obtain ⟨-, rfl⟩ := push_ok_iff.mp hx
  exact (runSeq_it h :)

/-- In phase IDLE the loop registers have their idle value (R35). -/
def LoopRegs.Canonical (it : LoopRegs) : Prop := it.phase = .idle → it = LoopRegs.idle

theorem LoopRegs.Canonical.of_phase_ne {it : LoopRegs} (h : it.phase ≠ .idle) : it.Canonical := fun h' => absurd h' h

/-- The controller enters phase IDLE only with IT at its idle value (R35, R93, R144). -/
theorem controllerStep_canonical {d e : Datapath α} (hd : d.it.Canonical) (h : controllerStep ns c d = .ok e) :
    e.it.Canonical := by
  unfold controllerStep at h
  split at h
  case h_1 => cases h; exact hd
  case h_2 hp =>
    unfold fillStep at h
    dsimp only at h
    split at h
    · simp only [Res.bind_ok_iff, Except.ok.injEq] at h
      obtain ⟨m, -, m', -, rfl⟩ := h
      exact .of_phase_ne (by simp [hp])
    · cases h; exact fun _ => rfl
  case h_3 hp =>
    obtain ⟨x, -, h⟩ := Res.bind_ok_iff.mp h
    obtain ⟨y, hy, h⟩ := Res.bind_ok_iff.mp h
    obtain ⟨z, hz, h⟩ := Res.bind_ok_iff.mp h
    have hit := push_runSeq_it hy hz
    split at h <;> cases h
    · exact .of_phase_ne (by simp [hit, hp])
    · exact .of_phase_ne (by simp)
  case h_4 hp =>
    unfold stagesStep at h
    dsimp only at h
    split at h
    · cases h; exact fun _ => rfl
    · obtain ⟨y, hy, h⟩ := Res.bind_ok_iff.mp h
      obtain ⟨z, hz, h⟩ := Res.bind_ok_iff.mp h
      have hit := push_runSeq_it hy hz
      split at h <;> cases h <;> exact .of_phase_ne (by simp [hit, hp])

/-- FFT2 ends with IT at its idle value (R144). -/
theorem runFft2_it {d e : Datapath α} (h : runFft2 ns c d = .ok e) : e.it = LoopRegs.idle := by
  have hstart : LoopRegs.Canonical ⟨.scatter, 0, 0, 0⟩ := .of_phase_ne (by simp)
  obtain ⟨hcanonical, hphase⟩ :=
    runController_invariant (fun x => x.it.Canonical) (fun _ _ => controllerStep_canonical) hstart h
  exact hcanonical hphase

theorem exec_fft2_frame {s t : State} (h : exec .fft2 s = .next t) (he : t.status.err = false) :
    OnlyDoneAndDatapath s t ∧ t.status.done = true ∧ t.dp.seq = [] ∧ t.dp.it = LoopRegs.idle ∧
      SameOutsideRun 0 s.cfg.N s.dp.mem t.dp.mem := by
  obtain ⟨hidle, -, -, d, hd, rfl⟩ := exec_completed h he
  obtain ⟨hseq, -⟩ := isIdle_iff.mp hidle
  obtain ⟨hseq', -, hmem⟩ := runFft2_frame hseq hd
  exact ⟨by simp [OnlyDoneAndDatapath], rfl, hseq', runFft2_it hd, (hmem.mono le_rfl (by omega)).sameOutsideRun⟩

theorem exec_init_frame {s t : State} (h : exec .init s = .next t) (he : t.status.err = false) :
    ∃ m, t = complete { s with
        status := s.status.clearDone.setTvalid, dp := { s.dp with mem := m, it := LoopRegs.idle } } ∧
      s.dp.seq = [] ∧ ∀ b k, ¬((b = .twCos ∨ b = .twSin) ∧ k < s.cfg.N) → m.read b k = s.dp.mem.read b k := by
  obtain ⟨hidle, -, -, m, hm, rfl⟩ := exec_completed h he
  obtain ⟨hseq, -⟩ := isIdle_iff.mp hidle
  obtain ⟨m', hm', -, hkept, -⟩ := runInit_ok (ns := r64) (c := s.cfg) s.dp
  cases hm.symm.trans hm'
  exact ⟨_, rfl, hseq, hkept⟩

theorem exec_brev_frame {s t : State} (h : exec .brev s = .next t) (he : t.status.err = false) :
    t = { s with result := t.result, status := { s.status with done := true }, dp := { s.dp with work := .dead },
                 bus := { s.bus with responses := .okay :: s.bus.responses } } := by
  obtain ⟨-, -, -, x, -, rfl⟩ := exec_completed h he
  rfl

/-- Settles O49: each of the three completes with its execution's datapath, and the frame of that execution is known. -/
theorem frameOfFft2InitAndBrev : Obligations.FrameOfFft2InitAndBrev := by
  refine fun s t => ⟨exec_fft2_frame, fun h he => ?_, exec_brev_frame⟩
  obtain ⟨m, rfl, hseq, hkept⟩ := exec_init_frame h he
  exact ⟨rfl, rfl, rfl, rfl, rfl, rfl, rfl, rfl, rfl, hseq, rfl, hkept⟩

/-! ### Operand registers without influence (R69) -/

/-- The state with each operand register changed by a function of it: the identity keeps a register, a constant function
overwrites it. -/
def State.mapOperands (size stride ioff ooff : Word → Word) (s : State α n) : State α n :=
  { s with size := size s.size, stride := stride s.stride, ioff := ioff s.ioff, ooff := ooff s.ooff }

/-- The checks and the execution of a command see the operand registers only up to the functions `f₁` to `f₄`. -/
structure Ignores (f₁ f₂ f₃ f₄ : Word → Word) (check : State α n → Option Cause) (run : State α n → Res (State α n)) :
    Prop where
  check_eq : ∀ s, check (s.mapOperands f₁ f₂ f₃ f₄) = check s
  run_eq : ∀ s, run (s.mapOperands f₁ f₂ f₃ f₄) = (run s).map (State.mapOperands f₁ f₂ f₃ f₄)

/-- An issue (R153) carries the operand registers through unchanged, so a change its command ignores stays the only
difference. -/
theorem issue_mapOperands {f₁ f₂ f₃ f₄ : Word → Word} {word : Word} {check : State α n → Option Cause}
    {run : State α n → Res (State α n)} (hig : Ignores f₁ f₂ f₃ f₄ check run) {s t : State α n}
    (h : issue word check run s = .next t) :
    issue word check run (s.mapOperands f₁ f₂ f₃ f₄) = .next (t.mapOperands f₁ f₂ f₃ f₄) := by
  have hcheck := hig.check_eq { s with status := s.status.clearDone }
  have hrun := hig.run_eq { s with status := s.status.clearDone }
  rw [issue_next_iff] at h ⊢
  obtain ⟨hidle, ⟨herr, rfl⟩ | ⟨herr, k, hk, rfl⟩ | ⟨herr, hnone, u, hu, rfl⟩⟩ := h
  · exact ⟨hidle, .inl ⟨herr, rfl⟩⟩
  · exact ⟨hidle, .inr (.inl ⟨herr, k, hcheck.trans hk, rfl⟩)⟩
  · rw [hu] at hrun
    exact ⟨hidle, .inr (.inr ⟨herr, hcheck.trans hnone, _, hrun, rfl⟩)⟩

/-- A map before a sequence moves behind it where the second operation commutes with it. -/
theorem Res.bind_map {β β' γ γ' : Type} {x : Res β} {f : β → Res γ} {f' : β' → Res γ'} {g : β → β'} {g' : γ → γ'}
    (h : ∀ a, f' (g a) = (f a).map g') : (x.map g >>= f') = (x >>= f).map g' := by
  cases x with
  | error e => rfl
  | ok a => exact h a

/-- An execution on the datapath hands the operand registers on. -/
theorem onDatapath_mapOperands (f₁ f₂ f₃ f₄ : Word → Word) (f : Datapath α → Res (Datapath α)) (s : State α n) :
    (s.mapOperands f₁ f₂ f₃ f₄).onDatapath f = (s.onDatapath f).map (State.mapOperands f₁ f₂ f₃ f₄) := by
  have hdp : (s.mapOperands f₁ f₂ f₃ f₄).dp = s.dp := rfl
  unfold State.onDatapath
  rw [hdp]
  cases f s.dp <;> rfl

/-- INIT reads no operand register (R93). -/
theorem exec_init_mapOperands (f₁ f₂ f₃ f₄ : Word → Word) {s t : State} (h : exec .init s = .next t) :
    exec .init (s.mapOperands f₁ f₂ f₃ f₄) = .next (t.mapOperands f₁ f₂ f₃ f₄) := by
  rw [exec_init_eq] at h ⊢
  refine issue_mapOperands ⟨fun _ => rfl, fun u => ?_⟩ h
  have hdp := onDatapath_mapOperands f₁ f₂ f₃ f₄ (runInit r64 u.cfg) u
  exact (congrArg (· >>= _) hdp).trans (Res.bind_map fun _ => rfl)

/-- FFT2 reads SIZE only (R142). -/
theorem exec_fft2_mapOperands (f₂ f₃ f₄ : Word → Word) {s t : State} (h : exec .fft2 s = .next t) :
    exec .fft2 (s.mapOperands id f₂ f₃ f₄) = .next (t.mapOperands id f₂ f₃ f₄) := by
  rw [exec_fft2_eq] at h ⊢
  exact issue_mapOperands ⟨fun _ => rfl, fun u => onDatapath_mapOperands id f₂ f₃ f₄ _ u⟩ h

/-- BPASS reads SIZE and OOFF (R116). -/
theorem exec_bpass_mapOperands (f₂ f₃ : Word → Word) {s t : State} (h : exec .bpass s = .next t) :
    exec .bpass (s.mapOperands id f₂ f₃ id) = .next (t.mapOperands id f₂ f₃ id) := by
  rw [exec_bpass_eq] at h ⊢
  exact issue_mapOperands ⟨fun _ => rfl, fun u => onDatapath_mapOperands id f₂ f₃ id _ u⟩ h

/-- BREV reads SIZE and IOFF (R137). -/
theorem exec_brev_mapOperands (f₂ f₄ : Word → Word) {s t : State} (h : exec .brev s = .next t) :
    exec .brev (s.mapOperands id f₂ id f₄) = .next (t.mapOperands id f₂ id f₄) := by
  rw [exec_brev_eq] at h ⊢
  refine issue_mapOperands ⟨fun _ => rfl, fun u => ?_⟩ h
  refine Eq.trans ?_ (Res.map_bind (brevnetRegs u.ioff.toNat u.size.toNat) _ _).symm
  rfl

/-- Settles O51: each command is blind to the registers that are overwritten. -/
theorem ignoredOperandsHaveNoInfluence : Obligations.IgnoredOperandsHaveNoInfluence :=
  fun _ _ a b c d =>
    ⟨exec_init_mapOperands (fun _ => a) (fun _ => b) (fun _ => c) (fun _ => d),
      exec_fft2_mapOperands (fun _ => b) (fun _ => c) (fun _ => d), exec_bpass_mapOperands (fun _ => b) (fun _ => c),
      exec_brev_mapOperands (fun _ => b) (fun _ => d)⟩

/-! ### Host scripts (R75) -/

/-- The address of a register is its number: region 0 adds nothing (R44, R47). -/
theorem addrOf_reg {k : Nat} (hk : k < 2 ^ 32) : addrOf 0 k = BitVec.ofNat 35 k := by
  have hk' : k < 2 ^ 35 := by omega
  apply BitVec.eq_of_toNat_eq
  simp only [addrOf, BitVec.toNat_append, BitVec.toNat_ofNat, Nat.mod_eq_of_lt hk, Nat.mod_eq_of_lt hk']
  simp

/-- A register written over the 64-bit data path arrives unchanged (R46). -/
theorem setWidth_zextData (v : Word) : (zextData v : Data).setWidth 32 = v := by
  rw [zextData, BitVec.setWidth_setWidth_of_le _ (by omega), BitVec.setWidth_eq]

theorem steps_succ_of_next {k : Nat} {s t : State} (h : step s = .next t) : steps (k + 1) s = steps k t := by
  rw [steps, h]

theorem steps_one (s : State) : steps 1 s = step s := by
  unfold steps
  cases step s <;> rfl

/-- The script line that writes an operand register (R74, R75), and the steps after it. -/
theorem steps_wrReg {k number : Nat} {g : Reg} {v : Word} {s u : State} {rest : List Request}
    (hi : s.dp.isIdle = true) (hp : s.bus.pending = wrReg number v :: rest) (hg : regOfIndex number = some g)
    (hu : s.writeReg v g = some u) : steps (k + 1) s = steps k (answered u rest .okay) := by
  have hnumber : number < 11 := (regOfIndex_isSome_iff number).mp (by rw [hg]; rfl)
  rw [wrReg, addrOf_reg (by omega)] at hp
  exact steps_succ_of_next (step_reg_write hi hp hg (by rwa [setWidth_zextData]))

/-- The script line that writes the word of a command to CMD (R75). -/
theorem steps_wrCmd {word : Word} {i : Instr} {s : State} {rest : List Request} (hi : s.dp.isIdle = true)
    (hp : s.bus.pending = wrReg 0 word :: rest) (hword : word = encode i) :
    steps 1 s = exec i { s with bus := ⟨rest, s.bus.responses⟩ } := by
  have hdecode : decode ((zextData word : Data).setWidth 32) = .ok i := by
    rw [setWidth_zextData]
    exact decode_eq_ok_iff.mpr hword
  rw [steps_one]
  exact stepRunsTheDecodedCommand s _ rest i hp hi hdecode

/-- The four operand writes with which the expansions of DFT and FFT1 begin (R75). -/
theorem steps_wrOperands {k : Nat} {size stride ioff ooff : Word} {s : State} {rest : List Request}
    (hi : s.dp.isIdle = true)
    (hp : s.bus.pending = wrReg 2 size :: wrReg 3 stride :: wrReg 4 ioff :: wrReg 5 ooff :: rest) :
    steps (k + 4) s = steps k { s with
      size := size, stride := stride, ioff := ioff, ooff := ooff
      bus := ⟨rest, .okay :: .okay :: .okay :: .okay :: s.bus.responses⟩ } := by
  refine (steps_wrReg hi hp rfl rfl).trans ?_
  refine Eq.trans (steps_wrReg (by exact hi) rfl rfl rfl) ?_
  refine Eq.trans (steps_wrReg (by exact hi) rfl rfl rfl) ?_
  refine Eq.trans (steps_wrReg (by exact hi) rfl rfl rfl) ?_
  rfl

/-- Settles O13: the writes of an expansion one after the other, then the command; the engine stays idle in between. -/
theorem pseudoInstructionsRunTheirCommand : Obligations.PseudoInstructionsRunTheirCommand := by
  refine fun s rest size stride ioff ooff hi => ⟨?init, ?dft, ?fft1, ?fft2, ?bpass, ?brev⟩
  case init => exact steps_wrCmd hi rfl rfl
  case dft => exact Eq.trans (steps_wrOperands (by exact hi) rfl) (steps_wrCmd hi rfl rfl)
  case fft1 => exact Eq.trans (steps_wrOperands (by exact hi) rfl) (steps_wrCmd hi rfl rfl)
  case fft2 => exact Eq.trans (steps_wrReg (by exact hi) rfl rfl rfl) (steps_wrCmd hi rfl rfl)
  case bpass =>
    refine Eq.trans (steps_wrReg (by exact hi) rfl rfl rfl) ?_
    exact Eq.trans (steps_wrReg (by exact hi) rfl rfl rfl) (steps_wrCmd hi rfl rfl)
  case brev =>
    refine Eq.trans (steps_wrReg (by exact hi) rfl rfl rfl) ?_
    exact Eq.trans (steps_wrReg (by exact hi) rfl rfl rfl) (steps_wrCmd hi rfl rfl)

end Sys2Proof.Machine
end

section
/-! PROOFS. The data of R64 as numbers (spec/40_twiddle.md R84 to R87): a pattern by its sign and the 63 bits below it, the
classes of data, the values, and the operations on infinities and NaNs (R86).

The magnitude of the 63 bits `p`, in units of 2^-1074, is a strictly increasing function `magOf` of `p` also past the bits of
the infinity; every rounding statement is about it. -/

namespace Sys2Proof.Machine.R64

/-! ### Patterns -/

/-- Bits 62:0 of a pattern. -/
def bits (a : Num64) : Nat := a.toNat % 2 ^ 63

theorem bits_lt (a : Num64) : bits a < 2 ^ 63 := Nat.mod_lt _ (by decide)

theorem sign_eq_decide (a : Num64) : sign a = decide (2 ^ 63 ≤ a.toNat) := BitVec.msb_eq_decide a

theorem expo_eq (a : Num64) : expo a = bits a / 2 ^ 52 := by
  simp only [expo, bits, BitVec.extractLsb'_toNat, Nat.shiftRight_eq_div_pow]
  omega

theorem frac_eq (a : Num64) : frac a = bits a % 2 ^ 52 := by
  simp only [frac, bits, BitVec.extractLsb'_toNat, Nat.shiftRight_eq_div_pow]
  omega

/-- A pattern is its sign and its bits 62:0. -/
theorem eq_of_sign_bits {a b : Num64} (hs : sign a = sign b) (hb : bits a = bits b) : a = b := by
  apply BitVec.eq_of_toNat_eq
  simp only [sign_eq_decide, decide_eq_decide] at hs
  simp only [bits] at hb
  have ha := a.isLt
  have hb' := b.isLt
  omega

theorem toNat_append_add {m n : Nat} (x : BitVec m) (y : BitVec n) : (x ++ y).toNat = x.toNat * 2 ^ n + y.toNat := by
  rw [BitVec.toNat_append, ← Nat.shiftLeft_add_eq_or_of_lt y.isLt, Nat.shiftLeft_eq]

theorem toNat_mk (neg : Bool) (m : Nat) : (mk neg m).toNat = neg.toNat * 2 ^ 63 + m % 2 ^ 63 := by
  rw [mk, toNat_append_add, BitVec.toNat_ofBool, BitVec.toNat_ofNat]

theorem bits_mk {m : Nat} (neg : Bool) (hm : m < 2 ^ 63) : bits (mk neg m) = m := by
  rw [bits, toNat_mk]
  omega

@[simp] theorem sign_mk (neg : Bool) (m : Nat) : sign (mk neg m) = neg := by
  rw [sign_eq_decide, toNat_mk]
  have hm : m % 2 ^ 63 < 2 ^ 63 := Nat.mod_lt _ (by decide)
  cases neg
  · simpa using hm
  · simp

theorem getLsbD_zero_eq_false_iff (a : Num64) : a.getLsbD 0 = false ↔ bits a % 2 = 0 := by
  simp only [BitVec.getLsbD, Nat.testBit_zero, decide_eq_false_iff_not, bits]
  omega

theorem bits_neg (a : Num64) : bits (neg a) = bits a := by
  have hmask : ∀ i < 63, (0x8000000000000000#64).getLsbD i = false := by decide
  have h : (neg a).extractLsb' 0 63 = a.extractLsb' 0 63 := by
    ext i hi
    simp [neg, BitVec.getElem_extractLsb', hmask i hi]
  simpa [bits] using congrArg BitVec.toNat h

@[simp] theorem sign_neg (a : Num64) : sign (neg a) = !sign a := by simp [sign, neg]

/-- Flipping the sign of a pattern. -/
theorem neg_mk (b : Bool) (m : Nat) : neg (mk b m) = mk (!b) m :=
  eq_of_sign_bits (by simp) (by rw [bits_neg, bits, bits, toNat_mk, toNat_mk]; cases b <;> simp)

/-! ### Classes (R86, R87) -/

theorem isFinite_iff {a : Num64} : isFinite a = true ↔ bits a < infBits := by
  have := bits_lt a
  simp only [isFinite, expo_eq, infBits, bne_iff_ne]
  omega

theorem isInf_iff {a : Num64} : isInf a = true ↔ bits a = infBits := by
  have := bits_lt a
  simp only [isInf, expo_eq, frac_eq, infBits, Bool.and_eq_true, beq_iff_eq]
  omega

theorem isNaN_iff {a : Num64} : isNaN a = true ↔ infBits < bits a := by
  have := bits_lt a
  simp only [isNaN, expo_eq, frac_eq, infBits, Bool.and_eq_true, beq_iff_eq, bne_iff_ne]
  omega

theorem isNaN_eq_false_of_le {a : Num64} (h : bits a ≤ infBits) : isNaN a = false := by
  rw [Bool.eq_false_iff, ne_eq, isNaN_iff]
  omega

theorem isInf_eq_false_of_ne {a : Num64} (h : bits a ≠ infBits) : isInf a = false := by
  rw [Bool.eq_false_iff, ne_eq, isInf_iff]
  exact h

theorem isFinite_eq_false_of_le {a : Num64} (h : infBits ≤ bits a) : isFinite a = false := by
  rw [Bool.eq_false_iff, ne_eq, isFinite_iff]
  omega

theorem isNaN_of_isFinite {a : Num64} (h : isFinite a = true) : isNaN a = false :=
  isNaN_eq_false_of_le (isFinite_iff.mp h).le

theorem isInf_of_isFinite {a : Num64} (h : isFinite a = true) : isInf a = false :=
  isInf_eq_false_of_ne (isFinite_iff.mp h).ne

@[simp] theorem isNaN_neg (a : Num64) : isNaN (neg a) = isNaN a := by
  rw [Bool.eq_iff_iff, isNaN_iff, isNaN_iff, bits_neg]

@[simp] theorem isFinite_neg (a : Num64) : isFinite (neg a) = isFinite a := by
  rw [Bool.eq_iff_iff, isFinite_iff, isFinite_iff, bits_neg]

theorem infBits_lt : infBits < 2 ^ 63 := by decide

@[simp] theorem bits_inf (x : Bool) : bits (inf x) = infBits := bits_mk x infBits_lt

@[simp] theorem sign_inf (x : Bool) : sign (inf x) = x := sign_mk _ _

@[simp] theorem isNaN_inf (x : Bool) : isNaN (inf x) = false := isNaN_eq_false_of_le (bits_inf x).le

@[simp] theorem isInf_inf (x : Bool) : isInf (inf x) = true := isInf_iff.mpr (bits_inf x)

@[simp] theorem isFinite_inf (x : Bool) : isFinite (inf x) = false := isFinite_eq_false_of_le (bits_inf x).ge

@[simp] theorem neg_inf (x : Bool) : neg (inf x) = inf (!x) := neg_mk _ _

/-- Whatever the draw, the NaN of an operation is quiet (R86). -/
@[simp] theorem isQuietNaN_quietNaN (draw : BitVec 52) : isQuietNaN (quietNaN draw) = true := by
  have hnat : (quietNaN draw).toNat =
      ((draw.extractLsb' 51 1).toNat * 2 ^ 12 + 0xFFF) * 2 ^ 51 + (draw.extractLsb' 0 51).toNat := by
    rw [quietNaN, toNat_append_add, toNat_append_add]
    rfl
  have hlow := (draw.extractLsb' 0 51).isLt
  have hexpo : expo (quietNaN draw) = 2047 := by
    rw [expo_eq, bits]
    omega
  have hquiet : (quietNaN draw).getLsbD 51 = true := getLsbD_of_toNat (by rw [Bool.toNat_true]; omega)
  simp [isQuietNaN, hexpo, hquiet]

/-! ### Magnitudes and values (R87) -/

/-- The magnitude, in units of 2^-1074, of bits 62:0. -/
def magOf (p : Nat) : Nat :=
  if p / 2 ^ 52 = 0 then p % 2 ^ 52 else (p % 2 ^ 52 + 2 ^ 52) * 2 ^ (p / 2 ^ 52 - 1)

theorem mag_eq (a : Num64) : mag a = magOf (bits a) := by rw [mag, magOf, expo_eq, frac_eq]

/-- The magnitude by significand `t` and exponent `x`, a subnormal one having `x = 0`. -/
theorem magOf_eq {x t : Nat} (hx : x = 0 ∨ 2 ^ 52 ≤ t) (ht : t < 2 ^ 53) : magOf (x * 2 ^ 52 + t) = t * 2 ^ x := by
  rw [magOf]
  split_ifs with h
  · obtain rfl : x = 0 := by omega
    rw [Nat.zero_mul, Nat.zero_add, Nat.pow_zero, Nat.mul_one, Nat.mod_eq_of_lt (by omega)]
  · rw [show (x * 2 ^ 52 + t) / 2 ^ 52 - 1 = x by omega, show (x * 2 ^ 52 + t) % 2 ^ 52 + 2 ^ 52 = t by omega]

/-- The next magnitude is one unit of the significand further. -/
theorem magOf_succ_eq {x t : Nat} (hx : x = 0 ∨ 2 ^ 52 ≤ t) (ht : t < 2 ^ 53) :
    magOf (x * 2 ^ 52 + t + 1) = (t + 1) * 2 ^ x := by
  by_cases hcarry : t + 1 < 2 ^ 53
  · rw [Nat.add_assoc]
    exact magOf_eq (by omega) hcarry
  · have h := magOf_eq (x := x + 1) (t := 2 ^ 52) (.inr le_rfl) (by decide)
    rw [show x * 2 ^ 52 + t + 1 = (x + 1) * 2 ^ 52 + 2 ^ 52 by omega, h, show t + 1 = 2 ^ 52 * 2 by omega,
      pow_succ' 2 x, Nat.mul_assoc]

theorem exists_significand (p : Nat) : ∃ x t, p = x * 2 ^ 52 + t ∧ (x = 0 ∨ 2 ^ 52 ≤ t) ∧ t < 2 ^ 53 :=
  ⟨p / 2 ^ 52 - 1, p - (p / 2 ^ 52 - 1) * 2 ^ 52, by omega, by omega, by omega⟩

theorem magOf_strictMono : StrictMono magOf := by
  refine strictMono_nat_of_lt_succ fun p => ?_
  obtain ⟨x, t, rfl, hx, ht⟩ := exists_significand p
  rw [magOf_eq hx ht, magOf_succ_eq hx ht]
  exact Nat.mul_lt_mul_of_pos_right (Nat.lt_succ_self t) (Nat.two_pow_pos x)

@[simp] theorem magOf_zero : magOf 0 = 0 := rfl

theorem magOf_eq_zero_iff {p : Nat} : magOf p = 0 ↔ p = 0 := by
  conv_lhs => rw [← magOf_zero, magOf_strictMono.injective.eq_iff]

theorem units_eq (a : Num64) : units a = (if sign a then -1 else 1) * (magOf (bits a) : Int) := by
  rw [units, mag_eq]
  split_ifs <;> simp

theorem units_neg (a : Num64) : units (neg a) = -units a := by
  simp only [units_eq, bits_neg, sign_neg]
  cases sign a <;> simp

theorem natAbs_units (a : Num64) : (units a).natAbs = mag a := by
  rw [units]
  split_ifs <;> simp

theorem units_eq_zero_iff {a : Num64} : units a = 0 ↔ bits a = 0 := by
  rw [← Int.natAbs_eq_zero, natAbs_units, mag_eq, magOf_eq_zero_iff]

theorem value_eq_zero_iff {a : Num64} : value a = 0 ↔ bits a = 0 := by
  simp [value, ← units_eq_zero_iff]

theorem value_neg (a : Num64) : value (neg a) = -value a := by
  simp only [value, units_neg, Int.cast_neg, neg_div]

/-- Two data of the same value other than zero are the same pattern. -/
theorem eq_of_value_eq {a b : Num64} (h : value a = value b) (h0 : value a ≠ 0) : a = b := by
  have hu : units a = units b := by
    simpa [value, div_left_inj'] using h
  have hbits : bits a = bits b :=
    magOf_strictMono.injective (by rw [← mag_eq, ← mag_eq, ← natAbs_units, ← natAbs_units, hu])
  have hpos : (magOf (bits b) : Int) ≠ 0 := by
    rw [Nat.cast_ne_zero, ne_eq, magOf_eq_zero_iff, ← hbits, ← value_eq_zero_iff]
    exact h0
  refine eq_of_sign_bits ?_ hbits
  rw [units_eq, units_eq, hbits] at hu
  cases ha : sign a <;> cases hb : sign b <;> simp [ha, hb] at hu ⊢ <;> omega

/-! ### Infinities and NaNs (R86) -/

/-- ADD and SUB with a NaN operand; `b'` is the second operand as SUB sees it. -/
theorem isQuietNaN_addWith_of_isNaN {op : NanOp} {a b b' : Num64} (h : isNaN a = true ∨ isNaN b' = true) :
    isQuietNaN (addWith op a b b') = true := by
  have h' : (isNaN a || isNaN b') = true := by simpa using h
  simp [addWith, h']

theorem isQuietNaN_addWith_inf_inf_not (op : NanOp) (x : Bool) (b : Num64) :
    isQuietNaN (addWith op (inf x) b (inf !x)) = true := by
  simp [addWith]

theorem addWith_inf_self (op : NanOp) (x : Bool) (b : Num64) : addWith op (inf x) b (inf x) = inf x := by
  simp [addWith]

theorem addWith_inf_left {b' : Num64} (op : NanOp) (x : Bool) (b : Num64) (h : isFinite b' = true) :
    addWith op (inf x) b b' = inf x := by
  simp [addWith, isNaN_of_isFinite h, isInf_of_isFinite h]

theorem addWith_inf_right {a : Num64} (op : NanOp) (x : Bool) (b : Num64) (h : isFinite a = true) :
    addWith op a b (inf x) = inf x := by
  simp [addWith, isNaN_of_isFinite h, isInf_of_isFinite h]

theorem isQuietNaN_mul_of_isNaN {a b : Num64} (h : isNaN a = true ∨ isNaN b = true) : isQuietNaN (mul a b) = true := by
  have h' : (isNaN a || isNaN b) = true := by simpa using h
  simp [mul, h']

theorem mag_eq_zero_iff {a : Num64} : mag a = 0 ↔ value a = 0 := by
  rw [mag_eq, magOf_eq_zero_iff, value_eq_zero_iff]

/-- Infinity times zero, in either order. -/
theorem isQuietNaN_mul_inf_zero {a : Num64} (x : Bool) (h : isFinite a = true) (h0 : value a = 0) :
    isQuietNaN (mul (inf x) a) = true ∧ isQuietNaN (mul a (inf x)) = true := by
  simp [mul, h, isNaN_of_isFinite h, mag_eq_zero_iff.mpr h0]

/-- Infinity times a datum that is not zero, in either order. -/
theorem mul_inf_of_ne_zero {a : Num64} (x : Bool) (h : isFinite a = true) (h0 : value a ≠ 0) :
    mul (inf x) a = inf (x != sign a) ∧ mul a (inf x) = inf (x != sign a) := by
  simp [mul, isNaN_of_isFinite h, mag_eq_zero_iff, h0, bne_comm (a := sign a)]

theorem mul_inf_inf (x y : Bool) : mul (inf x) (inf y) = inf (x != y) := by simp [mul]

theorem isQuietNaN_divn_of_isNaN {a : Num64} (n : Nat) (h : isNaN a = true) : isQuietNaN (divn n a) = true := by
  simp [divn, h]

theorem divn_inf (n : Nat) (x : Bool) : divn n (inf x) = inf x := by simp [divn]

/-- Settles O21: SUB is ADD with the second operand's sign flipped, which flips an infinity and keeps the class of a
datum. -/
theorem infinitiesAndNaNs : Obligations.InfinitiesAndNaNs := by
  refine ⟨fun a b h => ?_, fun n a => isQuietNaN_divn_of_isNaN n, divn_inf, fun x => ?_, fun x a h => ?_, mul_inf_inf⟩
  · exact ⟨isQuietNaN_addWith_of_isNaN h, isQuietNaN_addWith_of_isNaN (by rwa [isNaN_neg]), isQuietNaN_mul_of_isNaN h⟩
  · refine ⟨addWith_inf_self _ x _, ?_, isQuietNaN_addWith_inf_inf_not _ x _, ?_⟩
    · rw [sub, neg_inf, Bool.not_not]
      exact addWith_inf_self _ x _
    · rw [sub, neg_inf]
      exact isQuietNaN_addWith_inf_inf_not _ x _
  · refine ⟨addWith_inf_left _ x _ h, addWith_inf_right _ x _ h, addWith_inf_left _ x _ (by rwa [isFinite_neg]), ?_,
      isQuietNaN_mul_inf_zero x h, mul_inf_of_ne_zero x h⟩
    rw [sub, neg_inf]
    exact addWith_inf_right _ (!x) _ h

end Sys2Proof.Machine.R64
end

section
/-! PROOFS. Correct rounding in R64 (spec/40_twiddle.md R84, R85, R88): ADD, SUB, MUL, DIVN and RND.

Rounding is described once, on magnitudes: `NearestBits y p` says that `y` lies between the midpoints on either side of the
magnitude of `p`, a midpoint belonging to the even one of its two neighbours. Every `y` has such a `p`, `roundMag` computes it
for a quotient by a power of two, and such a `p` is the rounded datum with either sign. -/

namespace Sys2Proof.Machine.R64

/-! ### Nearest magnitudes -/

/-- Among the magnitudes, that of `p` is nearest to `y` (in units of 2^-1074), an even `p` at a midpoint. -/
structure NearestBits (y : ℝ) (p : ℕ) : Prop where
  le_mid : 2 * y ≤ magOf p + magOf (p + 1)
  even_of_eq_mid : 2 * y = magOf p + magOf (p + 1) → p % 2 = 0
  mid_le : ∀ q, p = q + 1 → (magOf q + magOf p : ℝ) ≤ 2 * y
  even_of_mid_eq : ∀ q, p = q + 1 → (magOf q + magOf p : ℝ) = 2 * y → p % 2 = 0

variable {y x : ℝ} {p q : ℕ}

theorem cast_magOf_lt (h : p < q) : (magOf p : ℝ) < magOf q := Nat.cast_lt.mpr (magOf_strictMono h)

theorem cast_magOf_le (h : p ≤ q) : (magOf p : ℝ) ≤ magOf q := Nat.cast_le.mpr (magOf_strictMono.monotone h)

theorem cast_magOf_eq {e t : ℕ} (he : e = 0 ∨ 2 ^ 52 ≤ t) (ht : t < 2 ^ 53) :
    (magOf (e * 2 ^ 52 + t) : ℝ) = t * 2 ^ e := by
  rw [magOf_eq he ht, Nat.cast_mul, Nat.cast_pow, Nat.cast_ofNat]

theorem cast_magOf_succ_eq {e t : ℕ} (he : e = 0 ∨ 2 ^ 52 ≤ t) (ht : t < 2 ^ 53) :
    (magOf (e * 2 ^ 52 + t + 1) : ℝ) = (t + 1) * 2 ^ e := by
  rw [magOf_succ_eq he ht, Nat.cast_mul, Nat.cast_pow, Nat.cast_ofNat, Nat.cast_succ]

/-- Rounding from the magnitude at or below `y`: stay below the midpoint, go to the next above it, to the even one at it. -/
theorem nearestBits_of_floor (hlo : (magOf q : ℝ) ≤ y) (hhi : y < magOf (q + 1))
    (hp : (2 * y < magOf q + magOf (q + 1) ∧ p = q) ∨ ((magOf q + magOf (q + 1) : ℝ) < 2 * y ∧ p = q + 1) ∨
      (2 * y = magOf q + magOf (q + 1) ∧ p = q + q % 2)) : NearestBits y p := by
  have stays (h : 2 * y ≤ magOf q + magOf (q + 1)) (heven : 2 * y = magOf q + magOf (q + 1) → q % 2 = 0) :
      NearestBits y q := by
    refine ⟨h, heven, fun k hk => ?_, fun k hk heq => ?_⟩
    · linarith [cast_magOf_lt (show k < q by omega)]
    · linarith [cast_magOf_lt (show k < q by omega)]
  have moves (h : (magOf q + magOf (q + 1) : ℝ) ≤ 2 * y) (heven : magOf q + magOf (q + 1) = 2 * y → (q + 1) % 2 = 0) :
      NearestBits y (q + 1) := by
    have hnext := cast_magOf_lt (Nat.lt_succ_self (q + 1))
    refine ⟨by linarith, fun heq => by linarith, fun k hk => ?_, fun k hk => ?_⟩
    · obtain rfl : k = q := by omega
      exact h
    · obtain rfl : k = q := by omega
      exact heven
  obtain ⟨h, rfl⟩ | ⟨h, rfl⟩ | ⟨h, rfl⟩ := hp
  · exact stays h.le fun heq => absurd heq h.ne
  · exact moves h.le fun heq => absurd heq h.ne
  · obtain heven | hodd := Nat.mod_two_eq_zero_or_one q
    · rw [heven]
      exact stays h.le fun _ => heven
    · rw [hodd]
      exact moves h.ge fun _ => by omega

theorem le_magOf (p : ℕ) : p ≤ magOf p := magOf_strictMono.le_apply

/-- Every magnitude can be rounded. -/
theorem exists_nearestBits (hy : 0 ≤ y) : ∃ p, NearestBits y p := by
  have habove : ∃ q, y < magOf (q + 1) := by
    obtain ⟨k, hk⟩ := exists_nat_gt y
    exact ⟨k, hk.trans_le (Nat.cast_le.mpr ((Nat.le_succ k).trans (le_magOf (k + 1))))⟩
  classical
  set q := Nat.find habove
  have hhi : y < magOf (q + 1) := Nat.find_spec habove
  have hlo : (magOf q : ℝ) ≤ y := by
    obtain h0 | hpos := Nat.eq_zero_or_pos q
    · simpa [h0] using hy
    · have := Nat.find_min habove (show q - 1 < q by omega)
      rwa [Nat.sub_add_cancel hpos, not_lt] at this
  obtain h | h | h := lt_trichotomy (2 * y) (magOf q + magOf (q + 1))
  · exact ⟨_, nearestBits_of_floor hlo hhi (.inl ⟨h, rfl⟩)⟩
  · exact ⟨_, nearestBits_of_floor hlo hhi (.inr (.inr ⟨h, rfl⟩))⟩
  · exact ⟨_, nearestBits_of_floor hlo hhi (.inr (.inl ⟨h, rfl⟩))⟩

/-- A magnitude rounds to itself. -/
theorem nearestBits_magOf (p : ℕ) : NearestBits (magOf p) p :=
  nearestBits_of_floor le_rfl (cast_magOf_lt p.lt_succ_self)
    (.inl ⟨by linarith [cast_magOf_lt p.lt_succ_self], rfl⟩)

/-- What is nearest between midpoints is nearest among all magnitudes; of two equally near ones one is even, the other odd. -/
theorem NearestBits.abs_le (h : NearestBits y p) (q : ℕ) :
    |(magOf p : ℝ) - y| ≤ |(magOf q : ℝ) - y| ∧
      (|(magOf q : ℝ) - y| = |(magOf p : ℝ) - y| → q ≠ p → p % 2 = 0 ∧ q % 2 = 1) := by
  obtain hlt | rfl | hgt := lt_trichotomy q p
  · obtain ⟨r, rfl⟩ : ∃ r, p = r + 1 := ⟨p - 1, by omega⟩
    have hmid := h.mid_le r rfl
    have hrp := cast_magOf_lt r.lt_succ_self
    have hqr := cast_magOf_le (show q ≤ r by omega)
    rw [abs_of_nonpos (show (magOf q : ℝ) - y ≤ 0 by linarith)]
    obtain ⟨habs, -⟩ | ⟨habs, -⟩ := abs_cases ((magOf (r + 1) : ℝ) - y) <;> rw [habs]
    · refine ⟨by linarith, fun heq _ => ?_⟩
      obtain rfl : q = r := magOf_strictMono.injective (Nat.cast_injective (R := ℝ) (by linarith))
      have := h.even_of_mid_eq q rfl (by linarith)
      omega
    · exact ⟨by linarith, fun heq _ => by linarith⟩
  · exact ⟨le_rfl, fun _ hne => absurd rfl hne⟩
  · have hmid := h.le_mid
    have hpr := cast_magOf_lt p.lt_succ_self
    have hrq := cast_magOf_le (show p + 1 ≤ q by omega)
    rw [abs_of_nonneg (show 0 ≤ (magOf q : ℝ) - y by linarith)]
    obtain ⟨habs, -⟩ | ⟨habs, -⟩ := abs_cases ((magOf p : ℝ) - y) <;> rw [habs]
    · exact ⟨by linarith, fun heq _ => by linarith⟩
    · refine ⟨by linarith, fun heq _ => ?_⟩
      obtain rfl : q = p + 1 := magOf_strictMono.injective (Nat.cast_injective (R := ℝ) (by linarith))
      have := h.even_of_eq_mid (by linarith)
      omega

/-- The same among the magnitudes of either sign. -/
theorem NearestBits.abs_le_signed (h : NearestBits y p) (hy : 0 ≤ y) {z : ℝ} (hz : z = magOf q ∨ z = -magOf q) :
    |(magOf p : ℝ) - y| ≤ |z - y| ∧
      (|z - y| = |(magOf p : ℝ) - y| → z ≠ magOf p → p % 2 = 0 ∧ q % 2 = 1) := by
  obtain ⟨hle, htie⟩ := h.abs_le q
  obtain rfl | rfl := hz
  · exact ⟨hle, fun heq hne => htie heq fun hqp => hne (by rw [hqp])⟩
  · have hzero : |(magOf p : ℝ) - y| ≤ y := by simpa [abs_of_nonneg hy] using (h.abs_le 0).1
    have hq0 : (0 : ℝ) ≤ magOf q := Nat.cast_nonneg _
    have habs : |-(magOf q : ℝ) - y| = magOf q + y := by
      rw [abs_of_nonpos (by linarith)]
      ring
    refine ⟨by linarith, fun heq hne => ?_⟩
    have hq : (magOf q : ℝ) = 0 := by linarith
    rw [hq, neg_zero, ← hq] at heq hne
    exact htie heq fun hqp => hne (by rw [hqp])

/-! ### Rounded data -/

theorem value_eq_units_div (a : Num64) : (value a : ℝ) = (units a : ℝ) / 2 ^ 1074 := by
  simp only [value, Rat.cast_div, Rat.cast_intCast, Rat.cast_pow, Rat.cast_ofNat]

/-- `a` is a datum that `x` rounds to: `x` is a signed magnitude that rounds to the bits of `a`, its sign that of `a` unless
these bits are 0. -/
def RoundsTo (x : ℝ) (a : Num64) : Prop :=
  ∃ y e : ℝ, 0 ≤ y ∧ (e = 1 ∨ e = -1) ∧ x * 2 ^ 1074 = e * y ∧ (units a : ℝ) = e * magOf (bits a) ∧
    NearestBits y (bits a)

variable {a b : Num64}

/-- The distance to a datum, with the sign taken off. -/
theorem abs_value_sub_eq {e : ℝ} (he : e = 1 ∨ e = -1) (hx : x * 2 ^ 1074 = e * y) (b : Num64) :
    |(value b : ℝ) - x| = |e * units b - y| / 2 ^ 1074 := by
  have hscale : (value b : ℝ) - x = (units b - e * y) / 2 ^ 1074 := by
    rw [value_eq_units_div, ← hx, sub_div, mul_div_cancel_right₀ _ (by positivity)]
  have hsign : |units b - e * y| = |e * units b - y| := by
    obtain rfl | rfl := he
    · simp
    · rw [← abs_neg]
      ring_nf
  rw [hscale, abs_div, abs_of_pos (show (0 : ℝ) < 2 ^ 1074 by positivity), hsign]

theorem abs_mul_scale {e : ℝ} (he : e = 1 ∨ e = -1) (hy : 0 ≤ y) (hx : x * 2 ^ 1074 = e * y) : |x| * 2 ^ 1074 = y := by
  rw [← abs_of_pos (show (0 : ℝ) < 2 ^ 1074 by positivity), ← abs_mul, hx, abs_mul, abs_of_nonneg hy]
  obtain rfl | rfl := he <;> simp

theorem sign_mul_units {e : ℝ} (he : e = 1 ∨ e = -1) (b : Num64) :
    e * (units b : ℝ) = magOf (bits b) ∨ e * (units b : ℝ) = -magOf (bits b) := by
  rw [units_eq]
  obtain rfl | rfl := he <;> cases sign b <;> simp

/-- A datum that `x` rounds to is nearest to `x`, and another one that is as near is odd. -/
theorem RoundsTo.nearest (h : RoundsTo x a) (b : Num64) :
    |(value a : ℝ) - x| ≤ |(value b : ℝ) - x| ∧
      (|(value b : ℝ) - x| = |(value a : ℝ) - x| → value b ≠ value a → bits a % 2 = 0 ∧ bits b % 2 = 1) := by
  obtain ⟨y, e, hy, he, hx, ha, hnear⟩ := h
  have hae : e * (units a : ℝ) = magOf (bits a) := by
    rw [ha]
    obtain rfl | rfl := he <;> ring
  obtain ⟨hle, htie⟩ := hnear.abs_le_signed hy (sign_mul_units he b)
  have hpos : (0 : ℝ) < 2 ^ 1074 := by positivity
  rw [abs_value_sub_eq he hx, abs_value_sub_eq he hx, hae, div_le_div_iff_of_pos_right hpos, div_left_inj' hpos.ne']
  refine ⟨hle, fun heq hne => htie heq fun hval => hne ?_⟩
  have he0 : e ≠ 0 := by obtain rfl | rfl := he <;> norm_num
  have hunits : (units b : ℝ) = units a := mul_left_cancel₀ he0 (hval.trans hae.symm)
  rw [value, value, Int.cast_injective hunits]

theorem RoundsTo.isNearestEven (h : RoundsTo x a) (hfin : isFinite a = true) : IsNearestEven x a :=
  ⟨hfin, fun b _ => (h.nearest b).1, fun b _ heq hne => (getLsbD_zero_eq_false_iff a).mpr ((h.nearest b).2 heq hne).1⟩

/-- The midpoint above the largest significand with exponent `x`. -/
theorem magOf_add_magOf_succ_carry (x : ℕ) :
    (magOf (x * 2 ^ 52 + (2 ^ 53 - 1)) + magOf (x * 2 ^ 52 + (2 ^ 53 - 1) + 1) : ℝ) = (2 ^ 54 - 1) * 2 ^ x := by
  rw [cast_magOf_eq (.inr (by decide)) (by decide), cast_magOf_succ_eq (.inr (by decide)) (by decide)]
  push_cast
  ring

/-- The midpoint from which on rounding gives an infinity, in units of 2^-1074. -/
theorem two_mul_overflowLimit : 2 * ((overflowLimit : ℝ) * 2 ^ 1074) = magOf (infBits - 1) + magOf infBits := by
  have hsplit : (2 : ℝ) ^ 1024 = 2 ^ 54 * 2 ^ 970 ∧ (2 : ℝ) ^ 2045 = 2 * 2 ^ 970 * 2 ^ 1074 :=
    ⟨by rw [← pow_add], by rw [← pow_succ', ← pow_add]⟩
  have hmid := magOf_add_magOf_succ_carry 2045
  rw [hsplit.2] at hmid
  refine Eq.trans ?_ hmid.symm
  simp only [overflowLimit, Rat.cast_sub, Rat.cast_pow, Rat.cast_ofNat, hsplit.1]
  generalize (2 : ℝ) ^ 970 = u
  generalize (2 : ℝ) ^ 1074 = v
  norm_num
  ring

/-- Bits past those of the largest finite number are those of a `y` from the overflow midpoint on. -/
theorem NearestBits.overflow_iff (h : NearestBits y p) : (overflowLimit : ℝ) * 2 ^ 1074 ≤ y ↔ infBits ≤ p := by
  have hlimit := two_mul_overflowLimit
  generalize (overflowLimit : ℝ) * 2 ^ 1074 = limit at hlimit ⊢
  constructor
  · intro hy
    by_contra hp
    have hp' : (magOf (p + 1) : ℝ) ≤ magOf infBits := cast_magOf_le (by omega)
    have hp'' : (magOf p : ℝ) ≤ magOf (infBits - 1) := cast_magOf_le (by omega)
    have hmid := h.le_mid
    obtain rfl : p = infBits - 1 := magOf_strictMono.injective (Nat.cast_injective (R := ℝ) (by linarith))
    exact absurd (h.even_of_eq_mid (by linarith)) (by decide)
  · intro hp
    obtain ⟨r, rfl⟩ : ∃ r, p = r + 1 := ⟨p - 1, by simp only [infBits] at hp; omega⟩
    have hmid := h.mid_le r rfl
    have h1 : (magOf infBits : ℝ) ≤ magOf (r + 1) := cast_magOf_le hp
    have h2 : (magOf (infBits - 1) : ℝ) ≤ magOf r := cast_magOf_le (by omega)
    linarith

/-- Bits 62:0 of the result, an infinity for everything past the largest finite number (R86). -/
def clampBits (p : ℕ) : ℕ := if p < infBits then p else infBits

theorem units_mk (neg : Bool) (hp : p < 2 ^ 63) : (units (mk neg p) : ℝ) = (if neg then -1 else 1) * magOf p := by
  rw [units_eq, sign_mk, bits_mk neg hp]
  cases neg <;> simp

/-- A rounded magnitude with its sign, for a zero with either sign, is a datum that `x` rounds to. -/
theorem roundsTo_mk {neg : Bool} {e : ℝ} (he : e = 1 ∨ e = -1) (hy : 0 ≤ y) (hx : x * 2 ^ 1074 = e * y)
    (h : NearestBits y p) (hs : p = 0 ∨ e = if neg then -1 else 1) (hp : p < 2 ^ 63) : RoundsTo x (mk neg p) := by
  refine ⟨y, e, hy, he, hx, ?_, by rwa [bits_mk neg hp]⟩
  rw [units_mk neg hp, bits_mk neg hp]
  obtain rfl | rfl := hs
  · simp
  · rfl

/-- A rounded magnitude with its sign, for a zero with either sign, is the correctly rounded datum. -/
theorem isRounded_mk {neg : Bool} {e : ℝ} (he : e = 1 ∨ e = -1) (hy : 0 ≤ y) (hx : x * 2 ^ 1074 = e * y)
    (h : NearestBits y p) (hs : p = 0 ∨ e = if neg then -1 else 1) : IsRounded x (mk neg (clampBits p)) := by
  have hpos : (0 : ℝ) < 2 ^ 1074 := by positivity
  have hover := h.overflow_iff
  by_cases hp : p < infBits
  · have hp' : p < 2 ^ 63 := hp.trans infBits_lt
    have hfin : isFinite (mk neg p) = true := isFinite_iff.mpr (by rwa [bits_mk neg hp'])
    rw [clampBits, if_pos hp]
    refine .inr (.inr ⟨?_, (roundsTo_mk he hy hx h hs hp').isNearestEven hfin⟩)
    rwa [← not_le, ← hover, not_le, ← abs_mul_scale he hy hx, mul_lt_mul_iff_left₀ hpos] at hp
  · rw [clampBits, if_neg hp]
    have he' := hs.resolve_left (by rintro rfl; exact hp (by decide))
    rw [not_lt, ← hover] at hp
    cases neg
    · rw [he', if_neg (by decide), one_mul] at hx
      rw [← hx] at hp
      exact .inl ⟨le_of_mul_le_mul_right hp hpos, rfl⟩
    · rw [he', if_pos rfl, neg_one_mul] at hx
      rw [← neg_neg y, ← hx, ← neg_mul] at hp
      exact .inr (.inl ⟨le_neg_of_le_neg (le_of_mul_le_mul_right hp hpos), rfl⟩)

/-! ### What `roundMag` computes (R84, R88) -/

/-- The bits of `m · 2^-u` rounded, before an overflow becomes the infinity: `roundMag m u` is `clampBits (roundBits m u)`. -/
def roundBits (m u : ℕ) : ℕ := (bitLen m - (u + 53)) * 2 ^ 52 + rne m (bitLen m - (u + 53) + u)

theorem lt_two_pow_bitLen (m : ℕ) : m < 2 ^ bitLen m := by
  rw [bitLen]
  split_ifs with h
  · simp [h]
  · exact Nat.lt_log2_self

theorem two_pow_le_of_bitLen {m k : ℕ} (h : bitLen m = k + 1) : 2 ^ k ≤ m := by
  rw [bitLen] at h
  split_ifs at h with h0
  exact (Nat.le_log2 h0).mp (by omega)

/-- `rne` stays at the quotient, moves to the next integer, or takes the even one, by which side of the middle `m` lies. -/
theorem rne_cases (m d : ℕ) :
    (2 * m < (2 * (m / 2 ^ d) + 1) * 2 ^ d ∧ rne m d = m / 2 ^ d) ∨
      ((2 * (m / 2 ^ d) + 1) * 2 ^ d < 2 * m ∧ rne m d = m / 2 ^ d + 1) ∨
      (2 * m = (2 * (m / 2 ^ d) + 1) * 2 ^ d ∧ rne m d = m / 2 ^ d + m / 2 ^ d % 2) := by
  have hdiv := Nat.div_add_mod m (2 ^ d)
  rw [mul_comm] at hdiv
  rw [add_mul, one_mul, mul_assoc]
  simp only [rne]
  split_ifs with h h'
  · exact .inl ⟨by omega, rfl⟩
  · exact .inr (.inl ⟨by omega, rfl⟩)
  · exact .inr (.inr ⟨by omega, rfl⟩)

/-- The quotient by which `roundBits` rounds is a significand of its exponent. -/
theorem significand_div {m u x : ℕ} (hx : x = bitLen m - (u + 53)) :
    (x = 0 ∨ 2 ^ 52 ≤ m / 2 ^ (x + u)) ∧ m / 2 ^ (x + u) < 2 ^ 53 := by
  constructor
  · obtain h0 | hpos := Nat.eq_zero_or_pos x
    · exact .inl h0
    · right
      rw [Nat.le_div_iff_mul_le (Nat.two_pow_pos _), ← pow_add]
      exact two_pow_le_of_bitLen (by omega)
  · rw [Nat.div_lt_iff_lt_mul (Nat.two_pow_pos _), ← pow_add]
    exact (lt_two_pow_bitLen m).trans_le (Nat.pow_le_pow_right (by decide) (by omega))

theorem nearestBits_roundBits (m u : ℕ) : NearestBits ((m : ℝ) / 2 ^ u) (roundBits m u) := by
  rw [roundBits]
  generalize hx : bitLen m - (u + 53) = x
  obtain ⟨hsub, hlt⟩ := significand_div hx.symm
  have hcases := rne_cases m (x + u)
  have hle : m / 2 ^ (x + u) * 2 ^ (x + u) ≤ m := Nat.div_mul_le_self _ _
  have hgt : m < (m / 2 ^ (x + u) + 1) * 2 ^ (x + u) := Nat.lt_mul_of_div_lt (Nat.lt_succ_self _) (Nat.two_pow_pos _)
  generalize m / 2 ^ (x + u) = t at *
  have hu : (0 : ℝ) < 2 ^ u := by positivity
  have hfloor : (magOf (x * 2 ^ 52 + t) : ℝ) = t * 2 ^ x := cast_magOf_eq hsub hlt
  have hnext : (magOf (x * 2 ^ 52 + t + 1) : ℝ) = (t + 1) * 2 ^ x := cast_magOf_succ_eq hsub hlt
  refine nearestBits_of_floor (q := x * 2 ^ 52 + t) ?_ ?_ ?_
  · rw [hfloor, le_div_iff₀ hu, mul_assoc, ← pow_add]
    exact_mod_cast hle
  · rw [hnext, div_lt_iff₀ hu, mul_assoc, ← pow_add]
    exact_mod_cast hgt
  · have hmid : (magOf (x * 2 ^ 52 + t) + magOf (x * 2 ^ 52 + t + 1) : ℝ) = (2 * t + 1) * 2 ^ (x + u) / 2 ^ u := by
      rw [hfloor, hnext, pow_add, eq_div_iff hu.ne']
      ring
    rw [hmid, ← mul_div_assoc, div_lt_div_iff_of_pos_right hu, div_lt_div_iff_of_pos_right hu, div_left_inj' hu.ne']
    obtain ⟨h, hr⟩ | ⟨h, hr⟩ | ⟨h, hr⟩ := hcases
    · exact .inl ⟨by exact_mod_cast h, by rw [hr]⟩
    · exact .inr (.inl ⟨by exact_mod_cast h, by rw [hr, Nat.add_assoc]⟩)
    · exact .inr (.inr ⟨by exact_mod_cast h, by rw [hr]; omega⟩)

/-! ### The operations (R84 to R86) -/

/-- The exact result `± m · 2^-u` units of 2^-1074, rounded. -/
theorem isRounded_roundMag {neg : Bool} {m u : ℕ} (hx : x * 2 ^ 1074 = (if neg then -1 else 1) * ((m : ℝ) / 2 ^ u)) :
    IsRounded x (mk neg (roundMag m u)) :=
  isRounded_mk (by cases neg <;> simp) (by positivity) hx (nearestBits_roundBits m u) (.inr rfl)

theorem clampBits_lt (p : ℕ) : clampBits p < 2 ^ 63 := by
  rw [clampBits]
  split_ifs with h
  · exact h.trans infBits_lt
  · exact infBits_lt

theorem isRounded_zero (neg : Bool) : IsRounded 0 (mk neg 0) :=
  isRounded_mk (y := 0) (p := 0) (.inl rfl) le_rfl (by simp) (by simpa using nearestBits_magOf 0) (.inl rfl)

theorem value_mul_two_pow (a : Num64) : (value a : ℝ) * 2 ^ 1074 = units a := by
  rw [value_eq_units_div, div_mul_cancel₀ _ (by positivity)]

/-- ADD of finite data. -/
theorem addWith_of_isFinite {b' : Num64} (op : NanOp) (b : Num64) (ha : isFinite a = true) (hb : isFinite b' = true) :
    addWith op a b b' = addFinite a b' := by
  simp [addWith, isNaN_of_isFinite, isInf_of_isFinite, ha, hb]

theorem addFinite_of_units_eq_zero (h : units a + units b = 0) : addFinite a b = mk (sign a && sign b) 0 := by
  simp [addFinite, h]

theorem cast_eq_sign_mul_natAbs (s : ℤ) : (s : ℝ) = (if decide (s < 0) then -1 else 1) * (s.natAbs : ℝ) := by
  rw [Nat.cast_natAbs, Int.cast_abs]
  by_cases h : s < 0
  · simp [h, abs_of_neg (Int.cast_lt_zero (R := ℝ).mpr h)]
  · simp [h, abs_of_nonneg (Int.cast_nonneg (R := ℝ) (not_lt.mp h))]

/-- The sum of finite data, rounded. -/
theorem isRounded_addFinite (a b : Num64) : IsRounded (value a + value b) (addFinite a b) := by
  have hsum : ((value a : ℝ) + value b) * 2 ^ 1074 = (units a + units b : ℤ) := by
    rw [add_mul, value_mul_two_pow, value_mul_two_pow, Int.cast_add]
  by_cases h0 : units a + units b = 0
  · rw [h0, Int.cast_zero, mul_eq_zero_iff_right (by positivity)] at hsum
    rw [addFinite_of_units_eq_zero h0, hsum]
    exact isRounded_zero _
  · simp only [addFinite, h0, if_false]
    refine isRounded_roundMag ?_
    rw [hsum, pow_zero, div_one]
    exact cast_eq_sign_mul_natAbs _

theorem value_add_eq_zero_iff : value a + value b = 0 ↔ units a + units b = 0 := by
  rw [value, value, ← add_div, div_eq_zero_iff, or_iff_left (by positivity)]
  norm_cast

/-- The exact zero of ADD: +0 but for two negative zeros. -/
theorem addFinite_of_value_eq_zero (h : value a + value b = 0) :
    addFinite a b = if sign a && sign b then 0x8000000000000000#64 else 0x0000000000000000#64 := by
  rw [addFinite_of_units_eq_zero (value_add_eq_zero_iff.mp h)]
  cases sign a && sign b <;> rfl

/-- Settles O18: SUB is ADD with the second operand's sign flipped, which negates its value. -/
theorem addAndSubAreCorrectlyRounded : Obligations.AddAndSubAreCorrectlyRounded := by
  intro a b ha hb
  have hadd : add a b = addFinite a b := addWith_of_isFinite _ _ ha hb
  have hsub : sub a b = addFinite a (neg b) := addWith_of_isFinite _ _ ha (by rwa [isFinite_neg])
  have hneg : value a - value b = value a + value (neg b) := by rw [value_neg, sub_eq_add_neg]
  have hneg' : (value a - value b : ℝ) = value a + value (neg b) := by rw [value_neg, Rat.cast_neg, sub_eq_add_neg]
  rw [hadd, hsub, hneg, hneg', ← sign_neg]
  exact ⟨isRounded_addFinite a b, isRounded_addFinite a (neg b), addFinite_of_value_eq_zero, addFinite_of_value_eq_zero⟩

theorem cast_units (a : Num64) : (units a : ℝ) = (if sign a then -1 else 1) * (mag a : ℝ) := by
  rw [units_eq, mag_eq]
  cases sign a <;> simp

/-- MUL of finite data. -/
theorem mul_of_isFinite (ha : isFinite a = true) (hb : isFinite b = true) :
    mul a b = mk (sign a != sign b) (roundMag (mag a * mag b) 1074) := by
  simp [mul, isNaN_of_isFinite, isInf_of_isFinite, ha, hb]

theorem sign_mul_sign (s s' : Bool) :
    ((if s then -1 else 1) * (if s' then -1 else 1) : ℝ) = if s != s' then -1 else 1 := by
  cases s <;> cases s' <;> simp

/-- Settles O19: the product of two magnitudes in units of 2^-1074 is one in units of 2^-2148, and MUL rounds it once. -/
theorem mulIsCorrectlyRounded : Obligations.MulIsCorrectlyRounded := by
  intro a b ha hb
  rw [mul_of_isFinite ha hb]
  refine ⟨isRounded_roundMag ?_, sign_mk _ _⟩
  rw [mul_assoc, value_mul_two_pow, value_eq_units_div, cast_units a, cast_units b, Nat.cast_mul, ← sign_mul_sign]
  generalize (2 : ℝ) ^ 1074 = scale
  ring

/-- DIVN of finite data. -/
theorem divn_of_isFinite (n : ℕ) (ha : isFinite a = true) : divn n a = mk (sign a) (roundMag (mag a) n) := by
  simp [divn, isNaN_of_isFinite, isInf_of_isFinite, ha]

/-- Settles O20: DIVN rounds the magnitude divided by 2^n. -/
theorem divnIsCorrectlyRounded : Obligations.DivnIsCorrectlyRounded := by
  intro n a ha
  rw [divn_of_isFinite n ha]
  refine ⟨isRounded_roundMag ?_, sign_mk _ _⟩
  rw [div_mul_eq_mul_div, value_mul_two_pow, cast_units, mul_div_assoc]

/-! ### RND (R88) -/

/-- A zero as +0, any other datum with its sign. -/
theorem isRounded_signedEntry {neg : Bool} (hy : 0 ≤ y) (hx : x * 2 ^ 1074 = (if neg then -1 else 1) * y)
    (h : NearestBits y p) : IsRounded x (signedEntry neg (clampBits p)) := by
  rw [signedEntry]
  refine isRounded_mk (by cases neg <;> simp) hy hx h ?_
  by_cases hp : p = 0
  · exact .inl hp
  · have hclamp : clampBits p ≠ 0 := by
      rw [clampBits]
      split_ifs
      · exact hp
      · decide
    simp [hclamp]

/-- No entry is −0 (R92). -/
theorem signedEntry_eq_zero_of_value {neg : Bool} (hp : p < 2 ^ 63) (h : value (signedEntry neg p) = 0) :
    signedEntry neg p = zero := by
  rw [value_eq_zero_iff, signedEntry, bits_mk _ hp] at h
  simp [h, signedEntry, zero]

/-- Every real number rounds to a datum that is not −0. -/
theorem exists_isRounded (x : ℝ) : ∃ a, IsRounded x a ∧ (isFinite a = true → value a = 0 → a = zero) := by
  have hy : 0 ≤ |x * 2 ^ 1074| := abs_nonneg _
  obtain ⟨p, hp⟩ := exists_nearestBits hy
  refine ⟨signedEntry (decide (x * 2 ^ 1074 < 0)) (clampBits p), isRounded_signedEntry hy ?_ hp,
    fun _ => signedEntry_eq_zero_of_value (clampBits_lt p)⟩
  by_cases h : x * 2 ^ 1074 < 0
  · simp [h, abs_of_neg h]
  · simp [h, abs_of_nonneg (not_lt.mp h)]

/-- What RND is chosen as. -/
theorem rnd_spec (x : ℝ) : IsRounded x (rnd x) ∧ (isFinite (rnd x) = true → value (rnd x) = 0 → rnd x = zero) := by
  rw [rnd, dif_pos (exists_isRounded x)]
  exact Classical.choose_spec (exists_isRounded x)

theorem RND_r64 (x : ℝ) : r64.RND x = rnd x := by rw [NumSys.RND, r64, Erased.out_mk]

/-- Settles O24: RND is a datum the real number rounds to, and −0 has the value of +0. -/
theorem rndRoundsToNearest : Obligations.RndRoundsToNearest := by
  intro x
  rw [RND_r64]
  obtain ⟨hround, hzero⟩ := rnd_spec x
  refine ⟨hround, fun h => ?_⟩
  rw [h] at hzero
  exact absurd (hzero (by decide) (value_eq_zero_iff.mpr (by decide))) (by decide)

end Sys2Proof.Machine.R64
end

section
/-! PROOFS. The twiddle table (spec/40_twiddle.md R88, R90 to R92): its symmetries bit for bit for every N, its entries as
correctly rounded cosines and sines for N up to 16.

Both the symmetries and the roundings are carried round the circle by quarter turns: an angle further by a quarter of the
circle exchanges cosine and sine and changes one sign, in the table (`tableEntry_quarterTurn`) as in the exact values. -/

namespace Sys2Proof.Machine.R64

/-! ### The table round the circle (R91) -/

/-- The entry of the opposite sign, a zero being +0 (R92). -/
def negEntry (a : Num64) : Num64 := if a = 0#64 then 0#64 else neg a

@[simp] theorem negEntry_zero : negEntry 0#64 = 0#64 := rfl

@[simp] theorem signedEntry_zero (b : Bool) : signedEntry b 0 = 0#64 := by cases b <;> rfl

theorem signedEntry_of_ne_zero (b : Bool) {m : Nat} (hm : m ≠ 0) : signedEntry b m = mk b m := by
  rw [signedEntry, bne_iff_ne.mpr hm, Bool.and_true]

theorem negEntry_signedEntry (b : Bool) {m : Nat} (hm : m < 2 ^ 63) :
    negEntry (signedEntry b m) = signedEntry (!b) m := by
  by_cases h0 : m = 0
  · simp [h0]
  · have hne : mk b m ≠ 0#64 := fun h => h0 (by rw [← bits_mk b hm, h]; rfl)
    rw [signedEntry_of_ne_zero b h0, signedEntry_of_ne_zero _ h0, negEntry, if_neg hne, neg_mk]

theorem quadrantCos_lt (l j : Nat) : quadrantCos l j < 2 ^ 63 := by
  rw [quadrantCos]
  split_ifs
  · decide
  · decide
  · exact clampBits_lt _

@[simp] theorem negEntry_quadrant (b : Bool) (l j : Nat) :
    negEntry (signedEntry b (quadrantCos l j)) = signedEntry (!b) (quadrantCos l j) :=
  negEntry_signedEntry b (quadrantCos_lt l j)

@[simp] theorem quadrantCos_zero (l : Nat) : quadrantCos l 0 = 1023 * 2 ^ 52 := if_pos rfl

@[simp] theorem quadrantCos_two_pow (l : Nat) : quadrantCos l (2 ^ l) = 0 := by
  rw [quadrantCos, if_neg (Nat.two_pow_pos l).ne', if_pos rfl]

/-- A quarter turn further: (cos, sin) becomes (−sin, cos). -/
theorem tableEntry_quarterTurn (l k : Nat) :
    tableEntry l (k + 2 ^ l) = (negEntry (tableEntry l k).2, (tableEntry l k).1) := by
  have hquad : (k + 2 ^ l) / 2 ^ l % 4 = (k / 2 ^ l % 4 + 1) % 4 := by
    rw [Nat.add_div_right _ (Nat.two_pow_pos l)]
    omega
  have hlt : k / 2 ^ l % 4 < 4 := Nat.mod_lt _ (by decide)
  simp only [tableEntry, hquad, Nat.add_mod_right]
  generalize k / 2 ^ l % 4 = q at hlt
  interval_cases q <;> simp

theorem tableEntry_halfTurn (l k : Nat) :
    tableEntry l (k + 2 * 2 ^ l) = (negEntry (tableEntry l k).1, negEntry (tableEntry l k).2) := by
  rw [two_mul, ← Nat.add_assoc, tableEntry_quarterTurn, tableEntry_quarterTurn]

/-- The first quadrant. -/
theorem tableEntry_of_lt {l j : Nat} (hj : j < 2 ^ l) :
    tableEntry l j = (signedEntry false (quadrantCos l j), signedEntry false (quadrantCos l (2 ^ l - j))) := by
  simp [tableEntry, Nat.mod_eq_of_lt hj, Nat.div_eq_of_lt hj]

theorem tableEntry_zero (l : Nat) : tableEntry l 0 = (0x3FF0000000000000#64, 0#64) := by
  rw [tableEntry_of_lt (Nat.two_pow_pos l), quadrantCos_zero, Nat.sub_zero, quadrantCos_two_pow]
  rfl

/-- What holds in the first quadrant and is kept by a quarter turn holds round the circle. -/
theorem quadrant_induction {P : Nat → Prop} (l : Nat) (hfirst : ∀ j < 2 ^ l, P j) (hturn : ∀ k, P k → P (k + 2 ^ l))
    (k : Nat) : P k := by
  induction k using Nat.strong_induction_on with
  | _ k ih =>
    by_cases hk : k < 2 ^ l
    · exact hfirst k hk
    · have hpos := Nat.two_pow_pos l
      rw [← Nat.sub_add_cancel (not_lt.mp hk)]
      exact hturn _ (ih _ (by omega))

/-- No entry of the table is −0 (R92): each is zero or has bits other than 0. -/
theorem tableEntry_not_negZero (l k : Nat) :
    (value (tableEntry l k).1 = 0 → (tableEntry l k).1 = zero) ∧
      (value (tableEntry l k).2 = 0 → (tableEntry l k).2 = zero) := by
  have hentry (b : Bool) (j : Nat) := signedEntry_eq_zero_of_value (neg := b) (quadrantCos_lt l j)
  rw [tableEntry]
  split <;> exact ⟨hentry _ _, hentry _ _⟩

theorem negEntry_negEntry_tableEntry (l k : Nat) :
    negEntry (negEntry (tableEntry l k).1) = (tableEntry l k).1 ∧
      negEntry (negEntry (tableEntry l k).2) = (tableEntry l k).2 := by
  have hentry (b : Bool) (j : Nat) :
      negEntry (negEntry (signedEntry b (quadrantCos l j))) = signedEntry b (quadrantCos l j) := by simp
  rw [tableEntry]
  split <;> exact ⟨hentry _ _, hentry _ _⟩

/-- The reflected angle: the cosine is even about the full circle, the sine odd. -/
theorem tableEntry_reflect (l k : Nat) : k ≤ 4 * 2 ^ l →
    tableEntry l (4 * 2 ^ l - k) = ((tableEntry l k).1, negEntry (tableEntry l k).2) := by
  induction k using quadrant_induction (l := l) with
  | hfirst j hj =>
    intro _
    obtain rfl | hpos := Nat.eq_zero_or_pos j
    · have hturn : 4 * 2 ^ l - 0 = 0 + 2 * 2 ^ l + 2 * 2 ^ l := by omega
      rw [hturn, tableEntry_halfTurn, tableEntry_halfTurn, tableEntry_zero]
      rfl
    · have hturn : 4 * 2 ^ l - j = (2 ^ l - j) + 2 * 2 ^ l + 2 ^ l := by omega
      rw [hturn, tableEntry_quarterTurn, tableEntry_halfTurn, tableEntry_of_lt (show 2 ^ l - j < 2 ^ l by omega),
        tableEntry_of_lt hj, Nat.sub_sub_self hj.le]
      simp
  | hturn k ih =>
    intro hk
    have hprev := ih (by omega)
    have hturn : 4 * 2 ^ l - k = 4 * 2 ^ l - (k + 2 ^ l) + 2 ^ l := by omega
    rw [hturn, tableEntry_quarterTurn, Prod.mk.injEq] at hprev
    obtain ⟨hsin, hcos⟩ := hprev
    rw [tableEntry_quarterTurn, ← hsin, (negEntry_negEntry_tableEntry l _).2, ← hcos]

/-! ### The entries by N = 2^n -/

/-- The angle of entry `k` of N = 2^n on the circle of 4·2^(n−2) angles (R92: N = 2 is every second entry of N = 4). -/
theorem exists_tableEntry {n : Nat} (hn : 1 ≤ n) : ∃ r, r * 2 ^ n = 4 * 2 ^ (n - 2) ∧
    ∀ k, cosEntry n k = (tableEntry (n - 2) (r * k)).1 ∧ sinEntry n k = (tableEntry (n - 2) (r * k)).2 := by
  by_cases h1 : n = 1
  · subst h1
    exact ⟨2, rfl, fun k => ⟨rfl, rfl⟩⟩
  · obtain ⟨l, rfl⟩ : ∃ l, n = l + 2 := ⟨n - 2, by omega⟩
    refine ⟨1, by rw [Nat.add_sub_cancel, pow_add]; omega, fun k => ?_⟩
    simp [cosEntry, sinEntry]

/-- Settles O23: the angles of the statement are 0 and `k` turned by quarters of the circle, or reflected. -/
theorem tableSymmetries : Obligations.TableSymmetries := by
  intro n k hn hk
  obtain ⟨r, hr, hentry⟩ := exists_tableEntry hn
  have hhalf : r * (2 ^ n / 2) = 0 + 2 * 2 ^ (n - 2) := by
    have h2 : 2 ∣ 2 ^ n := dvd_pow_self 2 (by omega)
    rw [← Nat.mul_div_assoc _ h2]
    omega
  have hquarter (h : 2 ≤ n) : r * (2 ^ n / 4) = 0 + 2 ^ (n - 2) := by
    have h4 : 4 ∣ 2 ^ n := pow_dvd_pow 2 h
    rw [← Nat.mul_div_assoc _ h4]
    omega
  have hreflect := tableEntry_reflect (n - 2) (r * k) (by rw [← hr]; exact Nat.mul_le_mul_left r hk.le)
  have hturned := tableEntry_halfTurn (n - 2) (r * k)
  simp only [fun j => (hentry j).1, fun j => (hentry j).2]
  refine ⟨?_, ?_, ?_, ?_, fun h => ?_, fun _ => ?_, fun _ => ?_⟩
  · rw [Nat.mul_zero, tableEntry_zero]
  · rw [Nat.mul_zero, tableEntry_zero]
  · rw [hhalf, tableEntry_halfTurn, tableEntry_zero]; rfl
  · rw [hhalf, tableEntry_halfTurn, tableEntry_zero]; rfl
  · have hthree : r * (3 * (2 ^ n / 4)) = 0 + 2 ^ (n - 2) + 2 * 2 ^ (n - 2) := by rw [Nat.mul_left_comm, hquarter h]; omega
    rw [hquarter h, hthree, tableEntry_halfTurn, tableEntry_quarterTurn, tableEntry_zero]
    exact ⟨rfl, rfl, rfl, rfl⟩
  · rw [Nat.mul_sub, hr, hreflect]
    exact ⟨rfl, rfl⟩
  · rw [Nat.mul_add, hhalf, Nat.zero_add, hturned]
    exact ⟨rfl, rfl⟩

/-! ### Rounding the table (R88) -/

variable {x : ℝ} {a : Num64}

/-- Rounding is symmetric in the sign. -/
theorem RoundsTo.negEntry (h : RoundsTo x a) : RoundsTo (-x) (negEntry a) := by
  obtain ⟨y, e, hy, he, hx, ha, hnear⟩ := h
  have hbits : bits (R64.negEntry a) = bits a := by
    rw [R64.negEntry]
    split_ifs with h0
    · rw [h0]
    · exact bits_neg a
  have hunits : units (R64.negEntry a) = -units a := by
    rw [R64.negEntry]
    split_ifs with h0
    · rw [h0]; decide
    · exact units_neg a
  refine ⟨y, -e, hy, by obtain rfl | rfl := he <;> simp, by rw [neg_mul, hx, neg_mul], ?_, by rwa [hbits]⟩
  rw [hbits, hunits, Int.cast_neg, ha, neg_mul]

theorem one_lt_overflowLimit : (1 : ℝ) < overflowLimit := by
  have hsplit : (2 : ℝ) ^ 1024 = 2 ^ 54 * 2 ^ 970 := by rw [← pow_add]
  have hone : (1 : ℝ) ≤ 2 ^ 970 := one_le_pow₀ (by norm_num)
  simp only [overflowLimit, Rat.cast_sub, Rat.cast_pow, Rat.cast_ofNat, hsplit]
  generalize (2 : ℝ) ^ 970 = u at hone
  linarith

/-- The exact cosines of the first quadrant, both ends included, round to what the table computes. -/
def QuadrantRounded (l : Nat) : Prop :=
  ∀ j : ℕ, j ≤ 2 ^ l → NearestBits (Real.cos (2 * Real.pi * j / 2 ^ (l + 2)) * 2 ^ 1074) (quadrantCos l j)

/-- The exact cosine is not negative in the first quadrant. -/
theorem cos_quadrant_nonneg {l j : ℕ} (hj : j ≤ 2 ^ l) : 0 ≤ Real.cos (2 * Real.pi * j / 2 ^ (l + 2)) := by
  have hpi := Real.pi_pos
  have hj' : (j : ℝ) ≤ 2 ^ l := by exact_mod_cast hj
  apply Real.cos_nonneg_of_neg_pi_div_two_le_of_le
  · exact (neg_nonpos.mpr (by positivity)).trans (by positivity)
  · rw [pow_add, div_le_div_iff₀ (by positivity) (by positivity)]
    nlinarith

/-- Cosine and sine of angle `k` of 4·2^l are those of the first quadrant, turned. -/
theorem tableEntry_roundsTo {l : Nat} (h : QuadrantRounded l) (k : Nat) :
    RoundsTo (Real.cos (2 * Real.pi * k / 2 ^ (l + 2))) (tableEntry l k).1 ∧
      RoundsTo (Real.sin (2 * Real.pi * k / 2 ^ (l + 2))) (tableEntry l k).2 := by
  have hpow : (2 : ℝ) ^ (l + 2) = 4 * 2 ^ l := by rw [pow_add]; ring
  induction k using quadrant_induction (l := l) with
  | hfirst j hj =>
    have hcompl : Real.sin (2 * Real.pi * j / 2 ^ (l + 2)) = Real.cos (2 * Real.pi * (2 ^ l - j : ℕ) / 2 ^ (l + 2)) := by
      rw [← Real.cos_pi_div_two_sub, Nat.cast_sub hj.le, hpow]
      push_cast
      congr 1
      field_simp
      ring
    have hquad (i : ℕ) (hi : i ≤ 2 ^ l) :
        RoundsTo (Real.cos (2 * Real.pi * i / 2 ^ (l + 2))) (signedEntry false (quadrantCos l i)) :=
      roundsTo_mk (.inl rfl) (mul_nonneg (cos_quadrant_nonneg hi) (by positivity)) (one_mul _).symm (h i hi) (.inr (by simp))
        (quadrantCos_lt l i)
    rw [tableEntry_of_lt hj, hcompl]
    exact ⟨hquad j hj.le, hquad (2 ^ l - j) (Nat.sub_le _ _)⟩
  | hturn k ih =>
    obtain ⟨hcos, hsin⟩ := ih
    have hangle : 2 * Real.pi * (k + 2 ^ l : ℕ) / 2 ^ (l + 2) = 2 * Real.pi * k / 2 ^ (l + 2) + Real.pi / 2 := by
      rw [hpow]
      push_cast
      field_simp
      ring
    rw [tableEntry_quarterTurn, hangle, Real.cos_add_pi_div_two, Real.sin_add_pi_div_two]
    exact ⟨hsin.negEntry, hcos⟩

/-- The values of the table lie in [−1, 1], far from the overflow midpoint. -/
theorem RoundsTo.isFinite (h : RoundsTo x a) (hx : |x| ≤ 1) : isFinite a = true := by
  obtain ⟨y, e, hy, he, hxy, -, hnear⟩ := h
  rw [isFinite_iff, ← not_le, ← hnear.overflow_iff, not_le, ← abs_mul_scale he hy hxy]
  exact mul_lt_mul_of_pos_right (hx.trans_lt one_lt_overflowLimit) (by positivity)

/-- The value nearest to `x`, ties to even, is unique. -/
theorem RoundsTo.value_eq {b : Num64} (h : RoundsTo x a) (ha : R64.isFinite a = true) (hb : IsNearestEven x b) :
    value b = value a := by
  obtain ⟨-, hmin, htie⟩ := hb
  obtain ⟨hle, hodd⟩ := h.nearest b
  by_contra hne
  have heq := le_antisymm (hmin a ha) hle
  have hbodd := (hodd heq hne).2
  have hbeven := (getLsbD_zero_eq_false_iff b).mp (htie a ha heq.symm (Ne.symm hne))
  omega

/-- A datum that `x` rounds to, not −0, is RND of `x`. -/
theorem RoundsTo.eq_rnd (h : RoundsTo x a) (hx : |x| ≤ 1) (ha : value a = 0 → a = zero) : a = rnd x := by
  obtain ⟨hround, hzero⟩ := rnd_spec x
  obtain ⟨hlo, hhi⟩ := abs_le.mp hx
  have hlimit := one_lt_overflowLimit
  obtain ⟨hover, -⟩ | ⟨hover, -⟩ | ⟨-, hnear⟩ := hround
  · linarith
  · linarith
  · have hval := h.value_eq (h.isFinite hx) hnear
    by_cases h0 : value a = 0
    · rw [ha h0, hzero hnear.1 (hval.trans h0)]
    · exact eq_of_value_eq hval.symm h0

/-! ### The first quadrant for N up to 16 -/

/-- A value strictly between the midpoints next to the significand `t` with exponent `e` rounds to their bits. -/
theorem nearestBits_of_between {e t k : ℕ} {c : ℝ} (ht : 2 ^ 52 < t) (ht' : t < 2 ^ 53) (hk : e + k = 1073)
    (hlo : (2 * t - 1 : ℝ) < c * 2 ^ k * 4) (hhi : c * 2 ^ k * 4 < 2 * t + 1) :
    NearestBits (c * 2 ^ 1074) (e * 2 ^ 52 + t) := by
  have hscale : 2 * (c * 2 ^ 1074) = c * 2 ^ k * 4 * 2 ^ e := by
    have hpow : (2 : ℝ) ^ 1074 = 2 ^ e * 2 ^ k * 2 := by rw [← pow_add, ← pow_succ, hk]
    rw [hpow]
    ring
  generalize c * 2 ^ 1074 = y at hscale ⊢
  have he : (0 : ℝ) < 2 ^ e := by positivity
  have hlo' := mul_lt_mul_of_pos_right hlo he
  have hhi' := mul_lt_mul_of_pos_right hhi he
  obtain ⟨r, rfl⟩ : ∃ r, t = r + 1 := ⟨t - 1, by omega⟩
  have hprev : (magOf (e * 2 ^ 52 + r) : ℝ) = r * 2 ^ e := cast_magOf_eq (by omega) (by omega)
  have hself : (magOf (e * 2 ^ 52 + (r + 1)) : ℝ) = (r + 1) * 2 ^ e := by
    rw [cast_magOf_eq (by omega) ht', Nat.cast_succ]
  have hnext : (magOf (e * 2 ^ 52 + (r + 1) + 1) : ℝ) = (r + 1 + 1) * 2 ^ e := by
    rw [cast_magOf_succ_eq (by omega) ht', Nat.cast_succ]
  rw [← hscale] at hlo' hhi'
  push_cast at hlo' hhi'
  refine ⟨?_, fun h => ?_, fun q hq => ?_, fun q hq h => ?_⟩
  · rw [hself, hnext]
    linarith
  · rw [hself, hnext] at h
    linarith
  · obtain rfl : q = e * 2 ^ 52 + r := by omega
    rw [hprev, hself]
    linarith
  · obtain rfl : q = e * 2 ^ 52 + r := by omega
    rw [hprev, hself] at h
    linarith

theorem quadrantRounded_ends (l : ℕ) :
    NearestBits (Real.cos (2 * Real.pi * (0 : ℕ) / 2 ^ (l + 2)) * 2 ^ 1074) (quadrantCos l 0) ∧
      NearestBits (Real.cos (2 * Real.pi * (2 ^ l : ℕ) / 2 ^ (l + 2)) * 2 ^ 1074) (quadrantCos l (2 ^ l)) := by
  have hone : (magOf (1023 * 2 ^ 52) : ℝ) = 2 ^ 1074 := by
    have h := cast_magOf_eq (e := 1022) (t := 2 ^ 52) (.inr le_rfl) (by decide)
    rwa [show 1022 * 2 ^ 52 + 2 ^ 52 = 1023 * 2 ^ 52 by decide, Nat.cast_pow, Nat.cast_ofNat, ← pow_add] at h
  have hangle : 2 * Real.pi * (2 ^ l : ℕ) / 2 ^ (l + 2) = Real.pi / 2 := by
    rw [pow_add]
    push_cast
    field_simp
  rw [hangle, Real.cos_pi_div_two, zero_mul, quadrantCos_two_pow, quadrantCos_zero, Nat.cast_zero, mul_zero, zero_div,
    Real.cos_zero, one_mul, ← hone]
  exact ⟨nearestBits_magOf _, by simpa using nearestBits_magOf 0⟩

/-- Bits 62:0 of the rounded cosines of π/4, π/8 and 3π/8. -/
theorem quadrantCos_values :
    quadrantCos 1 1 = 0x3FE6A09E667F3BCD ∧ quadrantCos 2 2 = 0x3FE6A09E667F3BCD ∧
      quadrantCos 2 1 = 0x3FED906BCF328D46 ∧ quadrantCos 2 3 = 0x3FD87DE2A6AEA963 := by decide +kernel

/-- The midpoints about the significand of cos(π/4). -/
theorem sqrt_two_bounds : 0x16A09E667F3BCD * 2 - 1 < √2 * 2 ^ 53 ∧ √2 * 2 ^ 53 < 0x16A09E667F3BCD * 2 + 1 := by
  constructor
  · rw [← div_lt_iff₀ (by positivity)]
    exact Real.lt_sqrt_of_sq_lt (by norm_num)
  · rw [← lt_div_iff₀ (by positivity), Real.sqrt_lt' (by norm_num)]
    norm_num

/-- √2 to 120 bits, for the roots of 2 ± √2. -/
theorem sqrt_two_fine :
    0x16A09E667F3BCC908B2FB1366EA957 / 2 ^ 116 < √2 ∧ √2 < 0x16A09E667F3BCC908B2FB1366EA958 / 2 ^ 116 := by
  constructor
  · exact Real.lt_sqrt_of_sq_lt (by norm_num)
  · rw [Real.sqrt_lt' (by norm_num)]
    norm_num

/-- The midpoints about the significand of cos(π/8). -/
theorem sqrt_two_add_sqrt_two_bounds :
    0x1D906BCF328D46 * 2 - 1 < √(2 + √2) * 2 ^ 53 ∧ √(2 + √2) * 2 ^ 53 < 0x1D906BCF328D46 * 2 + 1 := by
  obtain ⟨hlo, hhi⟩ := sqrt_two_fine
  constructor
  · rw [← div_lt_iff₀ (by positivity)]
    refine Real.lt_sqrt_of_sq_lt (lt_trans ?_ (add_lt_add_right hlo 2))
    norm_num
  · rw [← lt_div_iff₀ (by positivity), Real.sqrt_lt' (by norm_num)]
    refine lt_trans (add_lt_add_right hhi 2) ?_
    norm_num

/-- The midpoints about the significand of cos(3π/8). -/
theorem sqrt_two_sub_sqrt_two_bounds :
    0x187DE2A6AEA963 * 2 - 1 < √(2 - √2) * 2 ^ 54 ∧ √(2 - √2) * 2 ^ 54 < 0x187DE2A6AEA963 * 2 + 1 := by
  obtain ⟨hlo, hhi⟩ := sqrt_two_fine
  constructor
  · rw [← div_lt_iff₀ (by positivity)]
    refine Real.lt_sqrt_of_sq_lt (lt_trans ?_ (sub_lt_sub_left hhi 2))
    norm_num
  · rw [← lt_div_iff₀ (by positivity), Real.sqrt_lt' (by norm_num)]
    refine lt_trans (sub_lt_sub_left hlo 2) ?_
    norm_num

theorem nearestBits_cos_pi_div_four : NearestBits (Real.cos (Real.pi / 4) * 2 ^ 1074) 0x3FE6A09E667F3BCD := by
  obtain ⟨hlo, hhi⟩ := sqrt_two_bounds
  rw [Real.cos_pi_div_four]
  exact nearestBits_of_between (e := 1021) (t := 0x16A09E667F3BCD) (k := 52) (by decide) (by decide) rfl
    (by push_cast; linarith) (by push_cast; linarith)

theorem nearestBits_cos_pi_div_eight : NearestBits (Real.cos (Real.pi / 8) * 2 ^ 1074) 0x3FED906BCF328D46 := by
  obtain ⟨hlo, hhi⟩ := sqrt_two_add_sqrt_two_bounds
  rw [Real.cos_pi_div_eight]
  exact nearestBits_of_between (e := 1021) (t := 0x1D906BCF328D46) (k := 52) (by decide) (by decide) rfl
    (by push_cast; linarith) (by push_cast; linarith)

theorem nearestBits_sin_pi_div_eight : NearestBits (Real.sin (Real.pi / 8) * 2 ^ 1074) 0x3FD87DE2A6AEA963 := by
  obtain ⟨hlo, hhi⟩ := sqrt_two_sub_sqrt_two_bounds
  rw [Real.sin_pi_div_eight]
  exact nearestBits_of_between (e := 1020) (t := 0x187DE2A6AEA963) (k := 53) (by decide) (by decide) rfl
    (by push_cast; linarith) (by push_cast; linarith)

/-- The first quadrant of the circle of N = 4, 8 and 16 angles: both ends, and the angles π/8, π/4 and 3π/8. -/
theorem quadrantRounded {l : ℕ} (hl : l ≤ 2) : QuadrantRounded l := by
  intro j hj
  obtain ⟨h11, h22, h21, h23⟩ := quadrantCos_values
  obtain ⟨hfirst, hlast⟩ := quadrantRounded_ends l
  obtain rfl | hpos := Nat.eq_zero_or_pos j
  · exact hfirst
  obtain rfl | hlt := hj.eq_or_lt
  · exact hlast
  have hcases : (l = 1 ∧ j = 1) ∨ (l = 2 ∧ (j = 1 ∨ j = 2 ∨ j = 3)) := by
    interval_cases l <;> omega
  obtain ⟨rfl, rfl⟩ | ⟨rfl, rfl | rfl | rfl⟩ := hcases
  · rw [h11, show 2 * Real.pi * (1 : ℕ) / 2 ^ (1 + 2) = Real.pi / 4 by push_cast; ring]
    exact nearestBits_cos_pi_div_four
  · rw [h21, show 2 * Real.pi * (1 : ℕ) / 2 ^ (2 + 2) = Real.pi / 8 by push_cast; ring]
    exact nearestBits_cos_pi_div_eight
  · rw [h22, show 2 * Real.pi * (2 : ℕ) / 2 ^ (2 + 2) = Real.pi / 4 by push_cast; ring]
    exact nearestBits_cos_pi_div_four
  · rw [h23, show 2 * Real.pi * (3 : ℕ) / 2 ^ (2 + 2) = Real.pi / 2 - Real.pi / 8 by push_cast; ring,
      Real.cos_pi_div_two_sub]
    exact nearestBits_sin_pi_div_eight

/-- Every table entry for N = 2, 4, 8, 16 is what the exact cosine or sine rounds to, and not −0. -/
theorem entries_roundTo {n : ℕ} (hn : 1 ≤ n) (hn' : n ≤ 4) (k : ℕ) :
    (RoundsTo (Real.cos (2 * Real.pi * k / 2 ^ n)) (cosEntry n k) ∧ (value (cosEntry n k) = 0 → cosEntry n k = zero)) ∧
      RoundsTo (Real.sin (2 * Real.pi * k / 2 ^ n)) (sinEntry n k) ∧
        (value (sinEntry n k) = 0 → sinEntry n k = zero) := by
  obtain ⟨r, hr, hentry⟩ := exists_tableEntry hn
  obtain ⟨hcos, hsin⟩ := hentry k
  have hangle : 2 * Real.pi * (r * k : ℕ) / 2 ^ (n - 2 + 2) = 2 * Real.pi * k / 2 ^ n := by
    have hr' : (r : ℝ) * 2 ^ n = 4 * 2 ^ (n - 2) := by exact_mod_cast hr
    rw [pow_add, div_eq_div_iff (by positivity) (by positivity)]
    push_cast
    linear_combination 2 * Real.pi * k * hr'
  obtain ⟨hroundCos, hroundSin⟩ := tableEntry_roundsTo (quadrantRounded (show n - 2 ≤ 2 by omega)) (r * k)
  obtain ⟨hzeroCos, hzeroSin⟩ := tableEntry_not_negZero (n - 2) (r * k)
  rw [hangle] at hroundCos hroundSin
  rw [hcos, hsin]
  exact ⟨⟨hroundCos, hzeroCos⟩, hroundSin, hzeroSin⟩

/-- Settles O22: an entry the exact value rounds to is finite, since the value is at most 1, and so nearest. -/
theorem tableEntriesAreNearest : Obligations.TableEntriesAreNearest := by
  intro n k hn hn' _
  obtain ⟨⟨hcos, -⟩, hsin, -⟩ := entries_roundTo hn hn' k
  exact ⟨hcos.isNearestEven (hcos.isFinite (Real.abs_cos_le_one _)),
    hsin.isNearestEven (hsin.isFinite (Real.abs_sin_le_one _))⟩

/-- Settles O25: the datum nearest to the exact value is unique but for the sign of a zero, and neither the table nor RND
holds −0. -/
theorem tableImageIsRnd : Obligations.TableImageIsRnd := by
  intro n hn hn' k _
  obtain ⟨⟨hcos, hcos0⟩, hsin, hsin0⟩ := entries_roundTo hn hn' k
  rw [RND_r64, RND_r64]
  exact ⟨hcos.eq_rnd (Real.abs_cos_le_one _) hcos0, hsin.eq_rnd (Real.abs_sin_le_one _) hsin0⟩

end Sys2Proof.Machine.R64
end

section
/-! PROOFS. The twiddle multiplier in REAL (spec/40_twiddle.md R95, R96) and INIT in any NUM (R93, R94). -/

namespace Sys2Proof.Machine

variable {α : Type} {n : Nat}

/-! ### The twiddle multiplier (R95, R96) -/

/-- The twiddle factor W(p) from its cosine and sine (R95). -/
theorem exp_neg_twiddle (θ : ℝ) : Complex.exp (-(θ * Complex.I)) = Real.cos θ - Real.sin θ * Complex.I := by
  rw [← neg_mul, Complex.exp_mul_I, Complex.cos_neg, Complex.sin_neg, Complex.ofReal_cos, Complex.ofReal_sin]
  ring

/-- The two sums of products of TWMUL are the parts of a complex product (R96). -/
theorem rotate_eq_mul (x : ℂ) (co si : ℝ) :
    ((x.re * co + x.im * si : ℝ) : ℂ) + ((x.im * co - x.re * si : ℝ) : ℂ) * Complex.I = x * (co - si * Complex.I) := by
  apply Complex.ext
  · simp
  · simp
    ring

/-- Settles O26: TWMUL is the complex product with cos − i·sin of the angle of the entry. -/
theorem twmulRotatesExactly : Obligations.TwmulRotatesExactly := by
  intro c m x p htable hp
  obtain ⟨hcos, hsin⟩ := htable p hp
  refine ⟨_, _, twmul_ok_iff.mpr ⟨hp, _, _, hcos, hsin, rfl⟩, ?_⟩
  have hangle : 2 * (Real.pi : ℂ) * Complex.I * (p : ℂ) / ((c.N : ℕ) : ℂ) =
      (2 * Real.pi * p / 2 ^ c.n : ℝ) * Complex.I := by
    rw [Config.N]
    push_cast
    ring
  rw [hangle, exp_neg_twiddle]
  exact rotate_eq_mul x _ _

/-! ### INIT (R93) -/

/-- INIT on an engine that accepts commands, in any NUM: it completes with the table image in both twiddle banks and every
other word as before. -/
theorem execIn_init_ok {num : Num α n} {s : State α n} (hs : Ready s) (ht : s.status.tvalid = false) : ∃ m,
    execIn num .init s = .next
      { completedState s { s.dp with mem := m, it := LoopRegs.idle } with
        status := { s.status with tvalid := true, done := true } } ∧
    TableIs num.toNumSys s.cfg m ∧
    (∀ b i, ¬((b = .twCos ∨ b = .twSin) ∧ i < s.cfg.N) → m.read b i = s.dp.mem.read b i) := by
  obtain ⟨-, hidle, herr⟩ := hs
  obtain ⟨m, hrun, htable, hkept, -⟩ := runInit_ok (ns := num.toNumSys) (c := s.cfg) s.dp
  refine ⟨m, ?_, htable, hkept⟩
  rw [execIn_init_eq, issue_next_iff]
  exact ⟨hidle, .inr (.inr ⟨herr, checkInit_none_iff.mpr ht, _,
    Res.bind_ok_iff.mpr ⟨_, onDatapath_ok_iff.mpr ⟨_, hrun, rfl⟩, rfl⟩, rfl⟩)⟩

/-- Settles O27: the rule of INIT in any NUM, at R64. -/
theorem initFillsTheTable : Obligations.InitFillsTheTable := by
  intro s hs ht
  rw [exec_eq_execIn]
  exact execIn_init_ok hs ht

/-- Settles O28: the table image INIT stores is RND of the exact values by assumption. -/
theorem initStoresRndOfTheTable : Obligations.InitStoresRndOfTheTable := by
  intro α w num s hs ht himage
  obtain ⟨m, hexec, htable, hkept⟩ := execIn_init_ok (num := num) hs ht
  refine ⟨m, hexec, fun k hk => ?_, hkept⟩
  obtain ⟨hcos, hsin⟩ := himage k hk
  rw [Config.N, Nat.cast_pow, Nat.cast_ofNat, ← hcos, ← hsin]
  exact htable k hk

end Sys2Proof.Machine
end

section
/-! PROOFS. The direct transform (spec/41_dft.md): the domains of the units (R107, R136), the bins of an accepted DFT in any
NUM (R101 to R105), and in REAL the direct transform itself (R100, R108).

In REAL a bin is a sum of samples times twiddle factors of N, with the phase taken modulo N; `twiddle_mod` and
`twiddle_mul_right` turn it into the sum of R100, with the twiddle factors of the size. -/

namespace Sys2Proof.Machine

variable {α : Type} {n : Nat} {ns : NumSys α} {c : Config}

/-! ### The domains of the units (R107, R136) -/

theorem brevnet_outside_domain {i max : Nat} (h : ¬brevnetDomain i max = true) :
    brevnet i max = .error (.refuse .brevnetDomain) := by
  rw [brevnet, brevnetRegs, if_neg h]
  rfl

theorem dftbin_outside_domain {m : Memory α} {ioff size stride k : Nat} (h : ¬dftbinDomain c ioff size stride k = true) :
    dftbin ns c m ioff size stride k = .error (.refuse .dftbinDomain) := by
  rw [dftbin, dftbinRegs, if_neg h]
  rfl

/-- Settles O39: each clause contradicts one condition of the unit's domain. -/
theorem unitsAreRefusedOutsideTheirDomain : Obligations.UnitsAreRefusedOutsideTheirDomain := by
  refine ⟨fun i max h => brevnet_outside_domain fun hdom => ?_,
    fun α ns c m ioff size stride k h => dftbin_outside_domain fun hdom => ?_⟩
  · obtain ⟨hpow, hi⟩ := brevnetDomain_iff.mp hdom
    obtain hpow' | hi' := h
    · exact hpow' hpow
    · omega
  · obtain ⟨hpow, hsize, hstride, hview, hk⟩ := dftbinDomain_iff.mp hdom
    obtain hpow' | hbound := h
    · exact hpow' hpow
    · omega

/-! ### The bins of a DFT task (R101 to R104) -/

/-- Real part of bin k: the rotated samples added in ascending order from ZERO, divided by N last (R101, R102). -/
def dftBinRe (ns : NumSys α) (c : Config) (size : Nat) (co si xr xi : Nat → α) (k : Nat) : α :=
  ns.divn c.n (binSum ns size fun i => rotRe ns co si (xr i) (xi i) (i * k * (c.N / size) % c.N))

/-- Imaginary part of bin k (R101, R102). -/
def dftBinIm (ns : NumSys α) (c : Config) (size : Nat) (co si xr xi : Nat → α) (k : Nat) : α :=
  ns.divn c.n (binSum ns size fun i => rotIm ns co si (xr i) (xi i) (i * k * (c.N / size) % c.N))

/-- A DFT task whose operands fit and whose words all hold values leaves its bins in its run, and changes nothing but banks
and working registers (R104). -/
theorem dftTask_runValues {o : Operands} {d : Datapath α} {co si xr xi : Nat → α} (ho : OperandsFit c o)
    (ht : TableValues c d.mem co si) (hx : ViewValues d.mem o.ioff o.stride o.size xr xi) :
    ∃ m, dftTask ns c o.ioff o.ooff o.size o.stride d = .ok { d with mem := m, work := .dead } ∧
      RunValues m o.ooff o.size (dftBinRe ns c o.size co si xr xi) (dftBinIm ns c o.size co si xr xi) := by
  obtain ⟨hpow, hsize, hstride, hview, hrun⟩ := ho
  obtain ⟨⟨m, seq, it, work⟩, htask, hbins⟩ := dftTask_ok (ns := ns) hpow hsize hstride hview hrun ht hx
  obtain ⟨rfl, rfl, rfl, -⟩ := dftTask_frame htask
  refine ⟨m, htask, fun k hk => ?_⟩
  simp only [dftBinRe, dftBinIm, mul_assoc]
  exact hbins k hk

/-! ### The DFT command (R105) -/

/-- DFT on an engine that accepts it, in any NUM: it completes with its bins in the output run. -/
theorem execIn_dft_ok {num : Num α n} {s : State α n} {co si xr xi : Nat → α} (hs : Ready s)
    (htvalid : s.status.tvalid = true) (ho : OperandsFit s.cfg s.operands) (ht : TableValues s.cfg s.dp.mem co si)
    (hx : ViewValues s.dp.mem s.ioff.toNat s.stride.toNat s.size.toNat xr xi) :
    ∃ m, execIn num .dft s = .next (completedState s { s.dp with mem := m, work := .dead }) ∧
      RunValues m s.ooff.toNat s.size.toNat (dftBinRe num.toNumSys s.cfg s.size.toNat co si xr xi)
        (dftBinIm num.toNumSys s.cfg s.size.toNat co si xr xi) := by
  obtain ⟨hwf, hidle, herr⟩ := hs
  obtain ⟨hseq, -⟩ := isIdle_iff.mp hidle
  obtain ⟨hstack, -⟩ := cfg_blocks_spec hwf
  obtain ⟨m, htask, hbins⟩ := dftTask_runValues (ns := num.toNumSys) ho ht hx
  rw [← runDft_eq hseq hstack] at htask
  refine ⟨m, ?_, hbins⟩
  rw [execIn_dft_eq, issue_next_iff]
  exact ⟨hidle, .inr (.inr ⟨herr, checkDft_none_iff.mpr ⟨htvalid, ho⟩, _, onDatapath_ok_iff.mpr ⟨_, htask, rfl⟩, rfl⟩)⟩

/-- Settles O31: the rule of DFT in any NUM, at R64. -/
theorem dftComputesEveryBin : Obligations.DftComputesEveryBin := by
  intro s co si xr xi hs htvalid ho ht hx
  rw [exec_eq_execIn]
  exact execIn_dft_ok hs htvalid ho ht hx

/-! ### Twiddle factors (R95) -/

/-- The twiddle factor W(p) of a table of N entries (R95). -/
noncomputable def twiddle (N p : ℕ) : ℂ := Complex.exp (-(2 * (Real.pi : ℂ) * Complex.I * (p : ℂ) / (N : ℂ)))

/-- W(p) has period N, so a phase may be taken modulo N (R102). -/
theorem twiddle_mod {N : ℕ} (hN : 0 < N) (p : ℕ) : twiddle N (p % N) = twiddle N p := by
  have hN' : (N : ℂ) ≠ 0 := Nat.cast_ne_zero.mpr hN.ne'
  have hp : (p : ℂ) = N * (p / N : ℕ) + (p % N : ℕ) := mod_cast (Nat.div_add_mod p N).symm
  rw [twiddle, twiddle, Complex.exp_eq_exp_iff_exists_int]
  refine ⟨(p / N : ℕ), ?_⟩
  rw [hp, Int.cast_natCast]
  field_simp
  ring

/-- The same angle in a table q times as long. -/
theorem twiddle_mul_right {q : ℕ} (hq : 0 < q) (N p : ℕ) : twiddle (N * q) (p * q) = twiddle N p := by
  have hq' : (q : ℂ) ≠ 0 := Nat.cast_ne_zero.mpr hq.ne'
  rw [twiddle, twiddle]
  push_cast
  rw [← mul_assoc, mul_div_mul_right _ _ hq']

/-- The table entry of REAL is the twiddle factor (R90, R95). -/
theorem twiddle_eq_entry (c : Config) (p : ℕ) :
    twiddle c.N p = realNum.cosEntry c.n p - realNum.sinEntry c.n p * Complex.I := by
  have hangle : 2 * (Real.pi : ℂ) * Complex.I * (p : ℂ) / (c.N : ℂ) = (2 * Real.pi * p / 2 ^ c.n : ℝ) * Complex.I := by
    rw [Config.N]
    push_cast
    ring
  rw [twiddle, hangle, exp_neg_twiddle]
  rfl

/-! ### The bins in REAL (R100, R103, R108) -/

theorem binSum_real (size : ℕ) (term : ℕ → ℝ) : binSum realNum size term = ∑ i ∈ Finset.range size, term i := by
  induction size with
  | zero => rfl
  | succ size ih => rw [binSum, foldl_range_succ, Finset.sum_range_succ, ← ih]; rfl

/-- A rotated sample of REAL is the complex product with the twiddle factor (R96). -/
theorem rot_real (c : Config) (x : ℂ) (p : ℕ) :
    rotRe realNum (realNum.cosEntry c.n) (realNum.sinEntry c.n) x.re x.im p = (x * twiddle c.N p).re ∧
      rotIm realNum (realNum.cosEntry c.n) (realNum.sinEntry c.n) x.re x.im p = (x * twiddle c.N p).im := by
  rw [twiddle_eq_entry, ← rotate_eq_mul, ← Complex.mk_eq_add_mul_I]
  exact ⟨rfl, rfl⟩

/-- The transform of R100 with the phases the engine uses (R102): multiples of N / size modulo N. -/
theorem directTransform_eq_phases {N size : ℕ} (hN : 0 < N) (hdvd : size ∣ N) (x : ℕ → ℂ) (k : ℕ) :
    directTransform N size x k =
      ((1 / N : ℝ) : ℂ) * ∑ i ∈ Finset.range size, x i * twiddle N (i * k * (N / size) % N) := by
  obtain ⟨q, rfl⟩ := hdvd
  have hsize : 0 < size := Nat.pos_of_mul_pos_right hN
  have hq : 0 < q := Nat.pos_of_mul_pos_left hN
  rw [directTransform]
  push_cast
  congr 1
  refine Finset.sum_congr rfl fun i _ => ?_
  rw [twiddle_mod hN, Nat.mul_div_cancel_left _ hsize, twiddle_mul_right hq, twiddle]
  push_cast
  ring_nf

/-- A power of two that is at most N divides N (R101). -/
theorem PowerOfTwo.dvd_N {size : ℕ} (hsize : PowerOfTwo size) (hN : size ≤ c.N) : size ∣ c.N := by
  obtain ⟨q, rfl⟩ := hsize
  exact pow_dvd_pow 2 ((Nat.pow_le_pow_iff_right (by omega)).mp hN)

/-- Bin k of REAL is y[k] of R100. -/
theorem dftBin_real {size : ℕ} (hsize : PowerOfTwo size) (hN : size ≤ c.N) (x : ℕ → ℂ) (k : ℕ) :
    dftBinRe realNum c size (realNum.cosEntry c.n) (realNum.sinEntry c.n) (fun i => (x i).re) (fun i => (x i).im) k =
        (directTransform c.N size x k).re ∧
      dftBinIm realNum c size (realNum.cosEntry c.n) (realNum.sinEntry c.n) (fun i => (x i).re) (fun i => (x i).im) k =
        (directTransform c.N size x k).im := by
  have hdivn (a : ℝ) : realNum.divn c.n a = 1 / (c.N : ℝ) * a := by
    rw [Config.N, Nat.cast_pow, Nat.cast_ofNat, one_div_mul_eq_div]
    rfl
  rw [directTransform_eq_phases (N := c.N) (Nat.two_pow_pos _) (hsize.dvd_N hN), Complex.re_ofReal_mul,
    Complex.im_ofReal_mul, Complex.re_sum, Complex.im_sum, dftBinRe, dftBinIm, hdivn, hdivn, binSum_real, binSum_real]
  simp only [rot_real, and_self]

/-- In REAL a DFT task leaves the direct transform of its view in its run (R104, R108). -/
theorem dftTask_real {o : Operands} {d : Datapath ℝ} {x : ℕ → ℂ} (ho : OperandsFit c o)
    (ht : TableIs realNum c d.mem) (hx : ViewHolds d.mem o.ioff o.stride o.size x) :
    ∃ m, dftTask realNum c o.ioff o.ooff o.size o.stride d = .ok { d with mem := m, work := .dead } ∧
      RunHolds m o.ooff o.size (directTransform c.N o.size x) := by
  obtain ⟨m, htask, hbins⟩ := dftTask_runValues (ns := realNum) ho ht hx
  obtain ⟨hpow, hsize, -⟩ := ho
  refine ⟨m, htask, fun k hk => ?_⟩
  obtain ⟨hre, him⟩ := dftBin_real hpow hsize x k
  rw [← hre, ← him]
  exact hbins k hk

/-- Settles O32: the command is one DFT task, which is exact. -/
theorem dftIsTheDirectTransform : Obligations.DftIsTheDirectTransform := by
  intro c o d x hc ho hseq ht hx
  obtain ⟨hstack, -⟩ := cfg_blocks_spec hc
  obtain ⟨m, htask, hrun⟩ := dftTask_real ho ht hx
  exact ⟨_, (runDft_eq hseq hstack).trans htask, hrun⟩

end Sys2Proof.Machine
end

section
/-! PROOFS. The butterfly pass (spec/42_butterfly.md): an accepted BPASS in any NUM (R111 to R116), and the order of the
butterflies of a pass (R118).

R118 is proved on the banks alone. A butterfly reads the twiddle banks and the four words of its pair and writes that pair,
and pairs of different butterflies share no word; so two neighbours commute, and any order is reached by such exchanges. -/

namespace Sys2Proof.Machine

variable {α : Type} {n : Nat} {ns : NumSys α} {c : Config}

/-! ### The pairs of a pass (R111, R113, R115) -/

/-- The pairs of the window (ooff, size) hold the sums and differences of the values `yr`, `yi` (R111, R115). -/
def PairsCombined (ns : NumSys α) (c : Config) (ooff size : Nat) (co si yr yi : Nat → α) (m : Memory α) : Prop :=
  ∀ i, i < size / 2 →
    let half := size / 2
    let rr := rotRe ns co si (yr (i + half)) (yi (i + half)) (i * (c.N / size))
    let ri := rotIm ns co si (yr (i + half)) (yi (i + half)) (i * (c.N / size))
    m.read .outRe (ooff + i) = some (ns.add (yr i) rr) ∧
    m.read .outIm (ooff + i) = some (ns.add (yi i) ri) ∧
    m.read .outRe (ooff + i + half) = some (ns.sub (yr i) rr) ∧
    m.read .outIm (ooff + i + half) = some (ns.sub (yi i) ri)

theorem PowerOfTwo.half_add_half {size : ℕ} (hsize : PowerOfTwo size) (h2 : 2 ≤ size) : size / 2 + size / 2 = size := by
  obtain ⟨q, rfl⟩ := hsize
  cases q with
  | zero => simp at h2
  | succ q => rw [Nat.pow_succ]; omega

/-- A pass on a window in the bank whose words all hold values combines its pairs, and changes nothing but banks and working
registers (R115). -/
theorem bpassTask_pairsCombined {ooff size : Nat} {d : Datapath α} {co si yr yi : Nat → α} (hpow : PowerOfTwo size)
    (h2 : 2 ≤ size) (hsize : size ≤ c.N) (hrun : ooff + size ≤ c.N) (ht : TableValues c d.mem co si)
    (hy : RunValues d.mem ooff size yr yi) :
    ∃ m, bpassTask ns c ooff size d = .ok { d with mem := m, work := .dead } ∧
      PairsCombined ns c ooff size co si yr yi m := by
  obtain ⟨⟨m, seq, it, work⟩, htask, hpairs⟩ :=
    bpassTask_ok (ns := ns) (hpow.half_add_half h2) (by omega) hsize hrun ht hy
  obtain ⟨rfl, rfl, rfl, -⟩ := bpassTask_frame htask
  exact ⟨m, htask, hpairs⟩

/-- BPASS on an engine that accepts it, in any NUM: it completes with the pairs of its window combined (R116). -/
theorem execIn_bpass_ok {num : Num α n} {s : State α n} {co si yr yi : Nat → α} (hs : Ready s)
    (htvalid : s.status.tvalid = true) (hpow : PowerOfTwo s.size.toNat) (h2 : 2 ≤ s.size.toNat)
    (hsize : s.size.toNat ≤ s.cfg.N) (hrun : s.ooff.toNat + s.size.toNat ≤ s.cfg.N)
    (ht : TableValues s.cfg s.dp.mem co si) (hy : RunValues s.dp.mem s.ooff.toNat s.size.toNat yr yi) :
    ∃ m, execIn num .bpass s = .next (completedState s { s.dp with mem := m, work := .dead }) ∧
      PairsCombined num.toNumSys s.cfg s.ooff.toNat s.size.toNat co si yr yi m := by
  obtain ⟨hwf, hidle, herr⟩ := hs
  obtain ⟨hseq, -⟩ := isIdle_iff.mp hidle
  obtain ⟨hstack, -⟩ := cfg_blocks_spec hwf
  obtain ⟨m, htask, hpairs⟩ := bpassTask_pairsCombined (ns := num.toNumSys) hpow h2 hsize hrun ht hy
  rw [← runBpass_eq (o := s.operands) hseq hstack] at htask
  refine ⟨m, ?_, hpairs⟩
  rw [execIn_bpass_eq, issue_next_iff]
  exact ⟨hidle, .inr (.inr ⟨herr, checkBpass_none_iff.mpr ⟨htvalid, hpow, h2, hsize, hrun⟩, _,
    onDatapath_ok_iff.mpr ⟨_, htask, rfl⟩, rfl⟩)⟩

/-- Settles O33: the rule of BPASS in any NUM, at R64. -/
theorem bpassCombinesEveryPair : Obligations.BpassCombinesEveryPair := by
  intro s co si yr yi hs htvalid hpow h2 hsize hrun ht hy
  rw [exec_eq_execIn]
  exact execIn_bpass_ok hs htvalid hpow h2 hsize hrun ht hy

/-! ### Sequences of operations that can stop -/

theorem Res.map_ok_iff {β γ : Type} {x : Res β} {g : β → γ} {r : γ} : x.map g = .ok r ↔ ∃ a, x = .ok a ∧ g a = r := by
  cases x <;> simp [Except.map]

theorem forN_eq_foldlM {σ : Type} (f : Nat → σ → Res σ) (k : Nat) (x : σ) :
    forN k f x = (List.range k).foldlM (fun y i => f i y) x := by
  induction k with
  | zero => rfl
  | succ k ih => simp [forN, ih, List.range_succ]

/-- A sequence of operations each of which commutes with a map of the state commutes with it. -/
theorem foldlM_map_state {σ τ ι : Type} (g : σ → τ) (f : σ → ι → Res σ) (f' : τ → ι → Res τ)
    (h : ∀ x i, (f x i).map g = f' (g x) i) (l : List ι) (x : σ) : (l.foldlM f x).map g = l.foldlM f' (g x) := by
  induction l generalizing x with
  | nil => rfl
  | cons i l ih =>
    rw [List.foldlM_cons, List.foldlM_cons, Res.map_bind, ← h]
    cases f x i with
    | error e => rfl
    | ok y => exact ih y

/-- Operations that keep `P` and of which, from a state with `P`, any two may be exchanged where both end well: a sequence of
them that ends well may be done in any order. -/
theorem foldlM_ok_of_perm {σ ι : Type} {f : σ → ι → Res σ} {P : σ → Prop} {l l' : List ι} (hperm : l.Perm l')
    (hkept : ∀ x y i, P x → f x i = .ok y → P y)
    (hswap : ∀ i ∈ l, ∀ j ∈ l, ∀ x y z, P x → f x i = .ok y → f y j = .ok z → ∃ y', f x j = .ok y' ∧ f y' i = .ok z)
    {x z : σ} (hx : P x) (h : l.foldlM f x = .ok z) : l'.foldlM f x = .ok z := by
  induction hperm generalizing x with
  | nil => exact h
  | cons i _ ih =>
    rw [List.foldlM_cons, Res.bind_ok_iff] at h ⊢
    obtain ⟨y, hy, hz⟩ := h
    exact ⟨y, hy, ih (fun j hj k hk => hswap j (.tail _ hj) k (.tail _ hk)) (hkept x y i hx hy) hz⟩
  | swap i j l =>
    simp only [List.foldlM_cons, Res.bind_ok_iff] at h ⊢
    obtain ⟨y, hy, w, hw, hz⟩ := h
    obtain ⟨y', hy', hw'⟩ := hswap j (by simp) i (by simp) x y w hx hy hw
    exact ⟨y', hy', w, hw', hz⟩
  | trans hperm _ ih ih' =>
    exact ih' (fun i hi j hj => hswap i (hperm.mem_iff.mpr hi) j (hperm.mem_iff.mpr hj)) hx (ih hswap hx h)

/-! ### One butterfly on the banks (R111, R112, R115) -/

/-- Butterfly `i` of a pass as an operation on the banks alone. -/
def butterfly (ns : NumSys α) (c : Config) (ooff size : Nat) (m : Memory α) (i : Nat) : Res (Memory α) :=
  (bpassStep ns c ooff size i ⟨m, [], LoopRegs.idle, .dead⟩).map Datapath.mem

/-- What a butterfly does to the banks depends on the banks alone. -/
theorem bpassStep_map_mem (ooff size i : Nat) (d : Datapath α) :
    (bpassStep ns c ooff size i d).map Datapath.mem = butterfly ns c ooff size d.mem i := by
  unfold butterfly bpassStep
  simp only [Res.map_bind]
  rfl

/-- A pass is its butterflies in ascending order (R115). -/
theorem bpassTask_map_mem (ooff size : Nat) (d : Datapath α) :
    (bpassTask ns c ooff size d).map Datapath.mem = (List.range (size / 2)).foldlM (butterfly ns c ooff size) d.mem := by
  rw [bpassTask, Res.map_bind, forN_eq_foldlM,
    ← foldlM_map_state Datapath.mem _ _ fun x i => bpassStep_map_mem ooff size i x]
  cases (List.range (size / 2)).foldlM (fun y i => bpassStep ns c ooff size i y) d <;> rfl

/-- Word `k` of bank `b` is one of the four words of pair `i` (R111). -/
def PairWord (ooff size i : Nat) (b : BankId) (k : Nat) : Prop :=
  (b = .outRe ∨ b = .outIm) ∧ (k = ooff + i ∨ k = ooff + i + size / 2)

/-- A butterfly keeps the canonical form of the banks. -/
theorem butterfly_wf {ooff size i : Nat} {m m' : Memory α} (hm : m.wf c.N = true)
    (h : butterfly ns c ooff size m i = .ok m') : m'.wf c.N = true := by
  obtain ⟨e, he, rfl⟩ := Res.map_ok_iff.mp h
  obtain ⟨-, -, hframe⟩ := bpassStep_frame (Nat.zero_le _) (Nat.lt_succ_self _) he
  exact hframe.wf hm

/-- A butterfly writes only its pair. -/
theorem butterfly_frame {ooff size i : Nat} {m m' : Memory α} (h : butterfly ns c ooff size m i = .ok m') {b : BankId}
    {k : Nat} (hk : ¬PairWord ooff size i b k) : m'.read b k = m.read b k := by
  obtain ⟨e, he, rfl⟩ := Res.map_ok_iff.mp h
  obtain ⟨-, er, ei, odr, odi, t, -, -, -, -, -, rfl⟩ := bpassStep_ok_iff.mp he
  simp only [Memory.read_write]
  rw [if_neg, if_neg, if_neg, if_neg] <;> (rintro ⟨rfl, rfl⟩; exact hk (by simp [PairWord]))

/-- A butterfly reads only the twiddle banks and its pair: on banks with the same values there it ends as well, with the same
pair. -/
theorem butterfly_local {ooff size i : Nat} {m m' u : Memory α} (h : butterfly ns c ooff size m i = .ok m')
    (hsame : ∀ b k, b = .twCos ∨ b = .twSin ∨ PairWord ooff size i b k → u.read b k = m.read b k) :
    ∃ u', butterfly ns c ooff size u i = .ok u' ∧ ∀ b k, PairWord ooff size i b k → u'.read b k = m'.read b k := by
  obtain ⟨e, he, rfl⟩ := Res.map_ok_iff.mp h
  obtain ⟨hN, er, ei, odr, odi, _, h1, h2, h3, h4, ht, rfl⟩ := bpassStep_ok_iff.mp he
  obtain ⟨hp, co, si, hco, hsi, rfl⟩ := twmul_ok_iff.mp ht
  refine ⟨_, Res.map_ok_iff.mpr ⟨_, bpassStep_ok_iff.mpr ⟨hN, er, ei, odr, odi, _, ?_, ?_, ?_, ?_,
    twmul_ok_iff.mpr ⟨hp, co, si, ?_, ?_, rfl⟩, rfl⟩, rfl⟩,
    fun b k hk => by simp only [Memory.read_write, hsame b k (.inr (.inr hk))]⟩
  all_goals exact (hsame _ _ (by simp [PairWord])).trans ‹_›

/-! ### The order of the butterflies (R118) -/

/-- What a butterfly reads is not in the pair of another butterfly of the pass. -/
theorem not_pairWord_of_reads {ooff size i j k : Nat} {b : BankId} (hi : i < size / 2) (hj : j < size / 2) (hij : i ≠ j)
    (h : b = .twCos ∨ b = .twSin ∨ PairWord ooff size j b k) : ¬PairWord ooff size i b k := by
  rintro ⟨hb, hk⟩
  obtain rfl | rfl | ⟨-, hk'⟩ := h
  · simp at hb
  · simp at hb
  · omega

/-- Two different butterflies of a pass commute: each word is left by the one whose pair it is in, or by none. -/
theorem butterfly_comm {ooff size i j : Nat} {m x y : Memory α} (hm : m.wf c.N = true) (hi : i < size / 2)
    (hj : j < size / 2) (hij : i ≠ j) (hx : butterfly ns c ooff size m i = .ok x)
    (hy : butterfly ns c ooff size x j = .ok y) :
    ∃ x', butterfly ns c ooff size m j = .ok x' ∧ butterfly ns c ooff size x' i = .ok y := by
  obtain ⟨x', hx', hpairj⟩ := butterfly_local hy fun b k hk =>
    (butterfly_frame hx (not_pairWord_of_reads hi hj hij hk)).symm
  obtain ⟨y', hy', hpairi⟩ := butterfly_local hx fun b k hk =>
    butterfly_frame hx' (not_pairWord_of_reads hj hi hij.symm hk)
  suffices hyy : y' = y from ⟨x', hx', hyy ▸ hy'⟩
  refine Memory.ext_of_wf (butterfly_wf (butterfly_wf hm hx') hy') (butterfly_wf (butterfly_wf hm hx) hy) fun b k => ?_
  by_cases hki : PairWord ooff size i b k
  · rw [hpairi b k hki, butterfly_frame hy (not_pairWord_of_reads hj hi hij.symm (.inr (.inr hki)))]
  · rw [butterfly_frame hy' hki]
    by_cases hkj : PairWord ooff size j b k
    · exact hpairj b k hkj
    · rw [butterfly_frame hx' hkj, butterfly_frame hy hkj, butterfly_frame hx hki]

/-- Settles O34: a pass is a sequence of operations on the banks of which any two may be exchanged. -/
theorem butterflyOrderIsImmaterial : Obligations.ButterflyOrderIsImmaterial := by
  intro α ns c ooff size d e order hwf hperm htask
  have hrange : (List.range (size / 2)).foldlM (butterfly ns c ooff size) d.mem = .ok e.mem := by
    rw [← bpassTask_map_mem, htask]
    rfl
  have horder := foldlM_ok_of_perm hperm.symm (P := fun m => m.wf c.N = true) (fun _ _ _ => butterfly_wf)
    (fun i hi j hj x y z hx hy hz => by
      obtain rfl | hij := eq_or_ne i j
      · exact ⟨y, hy, hz⟩
      · exact butterfly_comm hx (List.mem_range.mp hi) (List.mem_range.mp hj) hij hy hz) hwf hrange
  rw [← foldlM_map_state Datapath.mem _ _ fun x i => bpassStep_map_mem ooff size i x] at horder
  exact Res.map_ok_iff.mp horder

end Sys2Proof.Machine
end

section
/-! PROOFS. The recursive transform (spec/43_fft_recursive.md): the task stack is the recursive function of R129, an accepted
FFT1 completes (R122, R126), and in REAL it is the direct transform (R130).

The recursive function is treated as a transform of the even half of its view, one of the odd half and a pass
(`fft1Rec_succ`), where a half is a smaller recursive transform or a DFT task (`fft1Half`). What it computes in any NUM is
the relation `DecimatedInTime`, which leaves open at which sizes the recursion ends; so the exact result, an induction on
this relation, is for every threshold T at once. -/

namespace Sys2Proof.Machine

variable {α : Type} {n : Nat} {ns : NumSys α} {c : Config}

/-! ### The two halves of a transform (R123, R124) -/

/-- The transform of the even samples into the lower half of the run (R123). -/
def Operands.evenHalf (o : Operands) : Operands := ⟨o.size / 2, 2 * o.stride, o.ioff, o.ooff⟩

/-- The transform of the odd samples into the upper half of the run (R123). -/
def Operands.oddHalf (o : Operands) : Operands := ⟨o.size / 2, 2 * o.stride, o.ioff + o.stride, o.ooff + o.size / 2⟩

/-- One half of a recursive transform: it recurses above the threshold and is a DFT task otherwise (R123, R129). -/
def fft1Half (ns : NumSys α) (c : Config) (levels : Nat) (o : Operands) (d : Datapath α) : Res (Datapath α) :=
  if o.size > c.T ∧ o.size % 2 = 0 then fft1Rec ns c levels o.ioff o.ooff o.size o.stride d
  else dftTask ns c o.ioff o.ooff o.size o.stride d

theorem fft1Rec_succ (l : Nat) (o : Operands) (d : Datapath α) :
    fft1Rec ns c (l + 1) o.ioff o.ooff o.size o.stride d = (do
      let e ← fft1Half ns c l o.evenHalf d
      let e ← fft1Half ns c l o.oddHalf e
      bpassTask ns c o.ooff o.size e) := by
  simp only [Operands.evenHalf, Operands.oddHalf]
  simp only [fft1Rec, fft1Half]
  split <;> rfl

theorem PowerOfTwo.half {size : Nat} (hsize : PowerOfTwo size) (h2 : 2 ≤ size) : PowerOfTwo (size / 2) := by
  obtain ⟨q, rfl⟩ := hsize
  obtain _ | q := q
  · simp at h2
  · exact ⟨q, by rw [Nat.pow_succ]; omega⟩

/-- The odd half ends at the last sample of the view, one stride after the even half (R125). -/
theorem half_view_end {half stride : Nat} (h : 0 < half) :
    (half - 1) * (2 * stride) + stride = (half + half - 1) * stride := by
  obtain ⟨k, rfl⟩ : ∃ k, half = k + 1 := ⟨half - 1, by omega⟩
  rw [show k + 1 + (k + 1) - 1 = 2 * k + 1 by omega, Nat.add_sub_cancel]
  ring

theorem OperandsFit.size_eq_two_pow {o : Operands} (ho : OperandsFit c o) : o.size = 2 ^ o.size.log2 := by
  obtain ⟨⟨q, hq⟩, -⟩ := ho
  rw [hq, Nat.log2_two_pow]

theorem OperandsFit.halves {o : Operands} (ho : OperandsFit c o) (h2 : 2 ≤ o.size) :
    OperandsFit c o.evenHalf ∧ OperandsFit c o.oddHalf := by
  obtain ⟨hpow, hsize, hstride, hview, hrun⟩ := ho
  have hhalf := hpow.half_add_half h2
  have hlast := half_view_end (half := o.size / 2) (stride := o.stride) (by omega)
  have hstep : 2 * o.stride * (o.size / 2) = o.stride * (o.size / 2 + o.size / 2) := by ring
  rw [hhalf] at hlast hstep
  constructor <;> refine ⟨hpow.half h2, ?_⟩ <;> dsimp only [Operands.evenHalf, Operands.oddHalf] <;> omega

/-! ### What a transform changes -/

/-- Everything a half changes, if a smaller recursive transform changes no more. -/
theorem fft1Half_frame {l : Nat} {o : Operands} {d e : Datapath α}
    (hrec : fft1Rec ns c l o.ioff o.ooff o.size o.stride d = .ok e →
      e.seq = d.seq ∧ e.it = d.it ∧ OutFrame c o.ooff (o.ooff + o.size) d.mem e.mem)
    (h : fft1Half ns c l o d = .ok e) :
    e.seq = d.seq ∧ e.it = d.it ∧ OutFrame c o.ooff (o.ooff + o.size) d.mem e.mem := by
  unfold fft1Half at h
  split at h
  · exact hrec h
  · obtain ⟨hseq, hit, -, hmem⟩ := dftTask_frame h
    exact ⟨hseq, hit, hmem⟩

/-- Everything the recursive transform changes: output words of its run, and working registers. -/
theorem fft1Rec_frame {l : Nat} {o : Operands} {d e : Datapath α}
    (h : fft1Rec ns c l o.ioff o.ooff o.size o.stride d = .ok e) :
    e.seq = d.seq ∧ e.it = d.it ∧ OutFrame c o.ooff (o.ooff + o.size) d.mem e.mem := by
  induction l generalizing o d e with
  | zero => cases h
  | succ l ih =>
    rw [fft1Rec_succ] at h
    obtain ⟨x, hx, h⟩ := Res.bind_ok_iff.mp h
    obtain ⟨y, hy, hz⟩ := Res.bind_ok_iff.mp h
    obtain ⟨hseq, hit, hmem⟩ := fft1Half_frame ih hx
    obtain ⟨hseq', hit', hmem'⟩ := fft1Half_frame ih hy
    obtain ⟨hseq'', hit'', -, hmem''⟩ := bpassTask_frame hz
    dsimp only [Operands.evenHalf, Operands.oddHalf] at hmem hmem'
    exact ⟨hseq''.trans (hseq'.trans hseq), hit''.trans (hit'.trans hit),
      ((hmem.mono (by omega) (by omega)).trans (hmem'.mono (by omega) (by omega))).trans hmem''⟩

/-! ### The task stack and the recursive function (R129) -/

/-- Settles O35: the run of the stack is the recursive function with SEQ empty after it, and the recursive function leaves
SEQ as it was. -/
theorem taskStackEqualsRecursion : Obligations.TaskStackEqualsRecursion := by
  intro α ns c o d hc ho h2 hseq
  have hlog : 1 ≤ o.size.log2 := (Nat.le_log2 (by omega)).mpr h2
  have ⟨_, hsize, _⟩ := ho
  rw [runFft1_eq_fft1Rec hc ho.size_eq_two_pow hlog hsize hseq]
  cases h : fft1Rec ns c o.size.log2 o.ioff o.ooff o.size o.stride d with
  | error e => rfl
  | ok e =>
    obtain ⟨hkept, -⟩ := fft1Rec_frame h
    have hempty : e.withSeq [] = e := by rw [← hseq, ← hkept]; rfl
    exact congrArg Except.ok hempty

/-! ### The words a transform reads and writes -/

theorem OutFrame.tableValues {lo hi : Nat} {m m' : Memory α} {co si : Nat → α} (h : OutFrame c lo hi m m')
    (ht : TableValues c m co si) : TableValues c m' co si := fun k hk => by
  rw [h.read_of_not_output k (by simp), h.read_of_not_output k (by simp)]
  exact ht k hk

theorem OutFrame.viewValues {lo hi ioff stride size : Nat} {m m' : Memory α} {xr xi : Nat → α} (h : OutFrame c lo hi m m')
    (hx : ViewValues m ioff stride size xr xi) : ViewValues m' ioff stride size xr xi := fun s hs => by
  rw [h.read_of_not_output _ (by simp), h.read_of_not_output _ (by simp)]
  exact hx s hs

/-- A run below the words written keeps its values. -/
theorem OutFrame.runValues {lo hi ooff size : Nat} {m m' : Memory α} {yr yi : Nat → α} (h : OutFrame c lo hi m m')
    (hlo : ooff + size ≤ lo) (hy : RunValues m ooff size yr yi) : RunValues m' ooff size yr yi := fun k hk => by
  rw [h.same _ _ (by omega), h.same _ _ (by omega)]
  exact hy k hk

/-- The views of the halves are the even and the odd samples (R123). -/
theorem ViewValues.halves {o : Operands} {m : Memory α} {xr xi : Nat → α} (hhalf : o.size / 2 + o.size / 2 = o.size)
    (hx : ViewValues m o.ioff o.stride o.size xr xi) :
    ViewValues m o.evenHalf.ioff o.evenHalf.stride o.evenHalf.size (fun s => xr (2 * s)) (fun s => xi (2 * s)) ∧
      ViewValues m o.oddHalf.ioff o.oddHalf.stride o.oddHalf.size (fun s => xr (2 * s + 1))
        (fun s => xi (2 * s + 1)) := by
  dsimp only [Operands.evenHalf, Operands.oddHalf]
  refine ⟨fun s hs => ?_, fun s hs => ?_⟩
  · rw [show o.ioff + s * (2 * o.stride) = o.ioff + 2 * s * o.stride by ring]
    exact hx _ (by omega)
  · rw [show o.ioff + o.stride + s * (2 * o.stride) = o.ioff + (2 * s + 1) * o.stride by ring]
    exact hx _ (by omega)

/-- Two halves of a run side by side. -/
def joinRuns (half : Nat) (lower upper : Nat → α) (k : Nat) : α := if k < half then lower k else upper (k - half)

@[simp] theorem joinRuns_lower {half k : Nat} (lower upper : Nat → α) (hk : k < half) :
    joinRuns half lower upper k = lower k := if_pos hk

@[simp] theorem joinRuns_upper (half k : Nat) (lower upper : Nat → α) :
    joinRuns half lower upper (k + half) = upper k := by simp [joinRuns]

/-- A property of every index of a run is one of the indices of its halves. -/
theorem forall_run_iff {half size : Nat} (hhalf : half + half = size) {P : Nat → Prop} :
    (∀ k < size, P k) ↔ (∀ k < half, P k) ∧ ∀ k < half, P (k + half) := by
  refine ⟨fun h => ⟨fun k hk => h k (by omega), fun k hk => h _ (by omega)⟩, fun ⟨hlower, hupper⟩ k hk => ?_⟩
  by_cases hlt : k < half
  · exact hlower k hlt
  · have h := hupper (k - half) (by omega)
    rwa [Nat.sub_add_cancel (by omega)] at h

theorem runValues_joinRuns_iff {half size ooff : Nat} (hhalf : half + half = size) {m : Memory α} {er ei odr odi : Nat → α} :
    RunValues m ooff size (joinRuns half er odr) (joinRuns half ei odi) ↔
      RunValues m ooff half er ei ∧ RunValues m (ooff + half) half odr odi := by
  simp only [RunValues, forall_run_iff hhalf, joinRuns_upper]
  refine and_congr (forall₂_congr fun k hk => by simp [hk]) (forall₂_congr fun k hk => ?_)
  rw [show ooff + (k + half) = ooff + half + k by omega]

/-! ### The values a recursive transform computes, in any NUM (R129) -/

/-- Real parts after a pass over the values of two halves: the sums with the rotated odd values in the lower half, the
differences in the upper half (R111, R115). -/
def passRe (ns : NumSys α) (c : Config) (size : Nat) (co si er odr odi : Nat → α) : Nat → α :=
  joinRuns (size / 2) (fun i => ns.add (er i) (rotRe ns co si (odr i) (odi i) (i * (c.N / size))))
    fun i => ns.sub (er i) (rotRe ns co si (odr i) (odi i) (i * (c.N / size)))

/-- Imaginary parts after a pass over the values of two halves (R111, R115). -/
def passIm (ns : NumSys α) (c : Config) (size : Nat) (co si ei odr odi : Nat → α) : Nat → α :=
  joinRuns (size / 2) (fun i => ns.add (ei i) (rotIm ns co si (odr i) (odi i) (i * (c.N / size))))
    fun i => ns.sub (ei i) (rotIm ns co si (odr i) (odi i) (i * (c.N / size)))

/-- The values `yr`, `yi` come from the samples `xr`, `xi` by decimation in time: they are the bins of a direct transform, or
a pass over the values of the even samples and those of the odd samples (R111, R123, R129). -/
inductive DecimatedInTime (ns : NumSys α) (c : Config) (co si : Nat → α) :
    (size : Nat) → (xr xi yr yi : Nat → α) → Prop
  | dft (size : Nat) (xr xi : Nat → α) :
      DecimatedInTime ns c co si size xr xi (dftBinRe ns c size co si xr xi) (dftBinIm ns c size co si xr xi)
  | pass {size : Nat} {xr xi er ei odr odi : Nat → α} (hhalf : size / 2 + size / 2 = size)
      (heven : DecimatedInTime ns c co si (size / 2) (fun s => xr (2 * s)) (fun s => xi (2 * s)) er ei)
      (hodd : DecimatedInTime ns c co si (size / 2) (fun s => xr (2 * s + 1)) (fun s => xi (2 * s + 1)) odr odi) :
      DecimatedInTime ns c co si size xr xi
        (passRe ns c size co si er odr odi) (passIm ns c size co si ei odr odi)

/-- From the table `co`, `si` and any samples in the view of `o`, `run` succeeds and leaves a decimated transform of the
samples in the run of `o`. -/
def Decimates (ns : NumSys α) (c : Config) (co si : Nat → α) (o : Operands) (run : Datapath α → Res (Datapath α)) : Prop :=
  ∀ d xr xi, TableValues c d.mem co si → ViewValues d.mem o.ioff o.stride o.size xr xi →
    ∃ e yr yi, run d = .ok e ∧ RunValues e.mem o.ooff o.size yr yi ∧ DecimatedInTime ns c co si o.size xr xi yr yi

variable {co si : Nat → α} {o : Operands} {l : Nat}

theorem dftTask_decimates (ho : OperandsFit c o) :
    Decimates ns c co si o (dftTask ns c o.ioff o.ooff o.size o.stride) := fun d xr xi ht hx => by
  obtain ⟨m, hrun, hbins⟩ := dftTask_runValues ho ht hx
  exact ⟨_, _, _, hrun, hbins, .dft _ _ _⟩

/-- A pass over the values of two halves leaves their sums and differences (R111, R115). -/
theorem bpassTask_halves {ooff size : Nat} {d : Datapath α} {er ei odr odi : Nat → α} (hpow : PowerOfTwo size)
    (h2 : 2 ≤ size) (hsize : size ≤ c.N) (hrun : ooff + size ≤ c.N) (ht : TableValues c d.mem co si)
    (heven : RunValues d.mem ooff (size / 2) er ei) (hodd : RunValues d.mem (ooff + size / 2) (size / 2) odr odi) :
    ∃ e, bpassTask ns c ooff size d = .ok e ∧
      RunValues e.mem ooff size (passRe ns c size co si er odr odi) (passIm ns c size co si ei odr odi) := by
  have hhalf := hpow.half_add_half h2
  obtain ⟨m, htask, hpairs⟩ := bpassTask_pairsCombined (ns := ns) hpow h2 hsize hrun ht
    ((runValues_joinRuns_iff hhalf).mpr ⟨heven, hodd⟩)
  refine ⟨_, htask, (runValues_joinRuns_iff hhalf).mpr ⟨fun i hi => ?_, fun i hi => ?_⟩⟩
  all_goals
    obtain ⟨hsr, hsi, hdr, hdi⟩ := hpairs i hi
    simp only [joinRuns_lower _ _ hi, joinRuns_upper] at hsr hsi hdr hdi
  · exact ⟨hsr, hsi⟩
  · rw [Nat.add_right_comm]
    exact ⟨hdr, hdi⟩

theorem fft1Half_decimates (ho : OperandsFit c o)
    (hrec : 2 ≤ o.size → Decimates ns c co si o (fft1Rec ns c l o.ioff o.ooff o.size o.stride)) :
    Decimates ns c co si o (fft1Half ns c l o) := by
  intro d
  rw [fft1Half]
  split
  · exact hrec (by omega) d
  · exact dftTask_decimates ho d

/-- The odd half keeps what the even half left, and the pass combines both (R125, R129). -/
theorem fft1Rec_succ_decimates (ho : OperandsFit c o) (h2 : 2 ≤ o.size)
    (heven : Decimates ns c co si o.evenHalf (fft1Half ns c l o.evenHalf))
    (hodd : Decimates ns c co si o.oddHalf (fft1Half ns c l o.oddHalf)) :
    Decimates ns c co si o (fft1Rec ns c (l + 1) o.ioff o.ooff o.size o.stride) := fun d xr xi ht hx => by
  obtain ⟨hpow, hsize, -, -, hrun⟩ := ho
  have hhalf := hpow.half_add_half h2
  obtain ⟨hxe, hxo⟩ := hx.halves hhalf
  obtain ⟨e₁, er, ei, he₁, hye, hde⟩ := heven d _ _ ht hxe
  obtain ⟨-, -, hframe₁⟩ := fft1Half_frame fft1Rec_frame he₁
  have ht₁ := hframe₁.tableValues ht
  obtain ⟨e₂, odr, odi, he₂, hyo, hdo⟩ := hodd e₁ _ _ ht₁ (hframe₁.viewValues hxo)
  obtain ⟨-, -, hframe₂⟩ := fft1Half_frame fft1Rec_frame he₂
  obtain ⟨e₃, he₃, hy⟩ := bpassTask_halves (ns := ns) hpow h2 hsize hrun (hframe₂.tableValues ht₁)
    (hframe₂.runValues (le_refl _) hye) hyo
  exact ⟨e₃, _, _, by rw [fft1Rec_succ, he₁, Res.ok_bind, he₂, Res.ok_bind, he₃], hy, .pass hhalf hde hdo⟩

/-- The recursive function on operands that fit, every word it reads holding a value (R126, R129). -/
theorem fft1Rec_decimates (ho : OperandsFit c o) (h2 : 2 ≤ o.size) (hl : o.size = 2 ^ l) :
    Decimates ns c co si o (fft1Rec ns c l o.ioff o.ooff o.size o.stride) := by
  induction l generalizing o with
  | zero => omega
  | succ l ih =>
    have hhalf : o.size / 2 = 2 ^ l := by rw [hl, Nat.pow_succ]; omega
    obtain ⟨heven, hodd⟩ := ho.halves h2
    exact fft1Rec_succ_decimates ho h2 (fft1Half_decimates heven fun h => ih heven h hhalf)
      (fft1Half_decimates hodd fun h => ih hodd h hhalf)

/-- The execution of FFT1 from an empty stack, in any NUM (R122, R129). -/
theorem runFft1_decimates (hc : c.wellFormed = true) (ho : OperandsFit c o) (h2 : 2 ≤ o.size) {d : Datapath α}
    (hseq : d.seq = []) {xr xi : Nat → α} (ht : TableValues c d.mem co si)
    (hx : ViewValues d.mem o.ioff o.stride o.size xr xi) :
    ∃ e yr yi, runFft1 ns c o d = .ok e ∧ RunValues e.mem o.ooff o.size yr yi ∧
      DecimatedInTime ns c co si o.size xr xi yr yi := by
  rw [taskStackEqualsRecursion α ns c o d hc ho h2 hseq]
  exact fft1Rec_decimates ho h2 ho.size_eq_two_pow d xr xi ht hx

/-! ### The FFT1 command (R122) -/

/-- FFT1 on an engine that accepts it, in any NUM: it completes with the datapath the recursive function leaves. -/
theorem execIn_fft1_ok {num : Num α n} {s : State α n} {xr xi : Nat → α} (hs : Ready s) (htvalid : s.status.tvalid = true)
    (ho : OperandsFit s.cfg s.operands) (h2 : 2 ≤ s.size.toNat) (ht : TableValues s.cfg s.dp.mem co si)
    (hx : ViewValues s.dp.mem s.ioff.toNat s.stride.toNat s.size.toNat xr xi) :
    ∃ d, fft1Rec num.toNumSys s.cfg s.size.toNat.log2 s.ioff.toNat s.ooff.toNat s.size.toNat s.stride.toNat s.dp = .ok d ∧
      execIn num .fft1 s = .next (completedState s d) := by
  obtain ⟨hwf, hidle, herr⟩ := hs
  obtain ⟨hseq, -⟩ := isIdle_iff.mp hidle
  obtain ⟨d, -, -, hrun, -⟩ := runFft1_decimates (ns := num.toNumSys) hwf ho h2 hseq ht hx
  refine ⟨d, (taskStackEqualsRecursion _ _ _ _ _ hwf ho h2 hseq).symm.trans hrun, ?_⟩
  obtain ⟨hpow, hfit⟩ := ho
  rw [execIn_fft1_eq, issue_next_iff]
  exact ⟨hidle, .inr (.inr ⟨herr, checkFft1_none_iff.mpr ⟨htvalid, hpow, h2, hfit⟩, _,
    onDatapath_ok_iff.mpr ⟨_, hrun, rfl⟩, rfl⟩)⟩

/-- Settles O36: the rule of FFT1 in any NUM, at R64. -/
theorem fft1Completes : Obligations.Fft1Completes := by
  intro s co si xr xi hs htvalid ho h2 ht hx
  rw [exec_eq_execIn]
  exact execIn_fft1_ok (num := R64.num) hs htvalid ho h2 ht hx

/-! ### Decimation in time of the direct transform (R130) -/

theorem twiddle_add (N p q : ℕ) : twiddle N (p + q) = twiddle N p * twiddle N q := by
  rw [twiddle, twiddle, twiddle, ← Complex.exp_add]
  push_cast
  ring_nf

theorem twiddle_add_period {N : ℕ} (hN : 0 < N) (p q : ℕ) : twiddle N (p + q * N) = twiddle N p := by
  rw [← twiddle_mod hN, Nat.add_mul_mod_self_right, twiddle_mod hN]

/-- Half a turn is a change of sign (R113). -/
theorem twiddle_add_half {half : ℕ} (h : 0 < half) (k : ℕ) : twiddle (2 * half) (k + half) = -twiddle (2 * half) k := by
  have hturn : twiddle (2 * half) (1 * half) = -1 := by
    rw [twiddle_mul_right h, twiddle, ← Complex.exp_neg_pi_mul_I]
    congr 1
    push_cast
    ring
  rw [one_mul] at hturn
  rw [twiddle_add, hturn, mul_neg_one]

theorem sum_range_even_odd (f : ℕ → ℂ) (half : ℕ) :
    ∑ s ∈ Finset.range (2 * half), f s =
      ∑ s ∈ Finset.range half, f (2 * s) + ∑ s ∈ Finset.range half, f (2 * s + 1) := by
  induction half with
  | zero => simp
  | succ half ih =>
    rw [show 2 * (half + 1) = 2 * half + 1 + 1 by ring]
    simp only [Finset.sum_range_succ, ih]
    ring

theorem directTransform_eq_twiddle (N size : ℕ) (x : ℕ → ℂ) (k : ℕ) :
    directTransform N size x k = 1 / N * ∑ s ∈ Finset.range size, x s * twiddle size (k * s) := by
  rw [directTransform]
  congr 1
  refine Finset.sum_congr rfl fun s _ => ?_
  rw [twiddle, Nat.cast_mul, ← mul_assoc]

/-- The direct transform is periodic in its size. -/
theorem directTransform_add_size {size : ℕ} (h : 0 < size) (N : ℕ) (x : ℕ → ℂ) (k : ℕ) :
    directTransform N size x (k + size) = directTransform N size x k := by
  simp only [directTransform_eq_twiddle, Nat.add_mul, Nat.mul_comm size, twiddle_add_period h]

/-- The transform of 2 · half samples from those of the even and of the odd samples (R130). -/
theorem directTransform_decimation (half N : ℕ) (x : ℕ → ℂ) (k : ℕ) :
    directTransform N (2 * half) x k = directTransform N half (fun s => x (2 * s)) k +
      directTransform N half (fun s => x (2 * s + 1)) k * twiddle (2 * half) k := by
  have heven (s : ℕ) : twiddle (2 * half) (k * (2 * s)) = twiddle half (k * s) := by
    rw [← twiddle_mul_right two_pos half, Nat.mul_comm half, Nat.mul_assoc, Nat.mul_comm s]
  have hodd (s : ℕ) : twiddle (2 * half) (k * (2 * s + 1)) = twiddle half (k * s) * twiddle (2 * half) k := by
    rw [Nat.mul_add, mul_one, twiddle_add, heven]
  simp only [directTransform_eq_twiddle, sum_range_even_odd, heven, hodd]
  rw [mul_add, mul_assoc, Finset.sum_mul]
  simp only [mul_assoc]

/-- The rotation of a pass of width `size` is by the twiddle factor of `size` (R113). -/
theorem rot_real_pass {size : ℕ} (hdvd : size ∣ c.N) (xr xi : ℝ) (i : ℕ) :
    (⟨rotRe realNum (realNum.cosEntry c.n) (realNum.sinEntry c.n) xr xi (i * (c.N / size)),
      rotIm realNum (realNum.cosEntry c.n) (realNum.sinEntry c.n) xr xi (i * (c.N / size))⟩ : ℂ) =
        ⟨xr, xi⟩ * twiddle size i := by
  obtain ⟨q, hq⟩ := hdvd
  have hN : 0 < size * q := hq ▸ Nat.two_pow_pos c.n
  have hphase : twiddle c.N (i * (c.N / size)) = twiddle size i := by
    rw [hq, Nat.mul_div_cancel_left _ (Nat.pos_of_mul_pos_right hN), twiddle_mul_right (Nat.pos_of_mul_pos_left hN)]
  obtain ⟨hre, him⟩ := rot_real c ⟨xr, xi⟩ (i * (c.N / size))
  rw [← hphase]
  exact Complex.ext hre him

/-- In REAL values that come from samples by decimation in time are their direct transform, whatever the sizes at which the
recursion ended (R130). -/
theorem DecimatedInTime.eq_directTransform {size : ℕ} {xr xi yr yi : ℕ → ℝ}
    (h : DecimatedInTime realNum c (realNum.cosEntry c.n) (realNum.sinEntry c.n) size xr xi yr yi) (hdvd : size ∣ c.N) :
    ∀ k < size, (⟨yr k, yi k⟩ : ℂ) = directTransform c.N size (fun s => ⟨xr s, xi s⟩) k := by
  have hN : 0 < c.N := Nat.two_pow_pos c.n
  induction h with
  | dft size xr xi =>
    intro k _
    obtain ⟨q, -, hq⟩ := (Nat.dvd_prime_pow Nat.prime_two).mp hdvd
    obtain ⟨hre, him⟩ := dftBin_real ⟨q, hq⟩ (Nat.le_of_dvd hN hdvd) (fun s => ⟨xr s, xi s⟩) k
    exact Complex.ext hre him
  | @pass size xr xi er ei odr odi hhalf heven hodd iheven ihodd =>
    have hsize : 2 * (size / 2) = size := by omega
    have hdvd' : size / 2 ∣ c.N := (Nat.div_dvd_of_dvd ⟨_, hsize.symm⟩).trans hdvd
    have hpos : 0 < size / 2 := Nat.pos_of_dvd_of_pos hdvd' hN
    have hsplit := directTransform_decimation (size / 2) c.N fun s => (⟨xr s, xi s⟩ : ℂ)
    rw [hsize] at hsplit
    have hturn := twiddle_add_half hpos
    rw [hsize] at hturn
    rw [forall_run_iff hhalf, passRe, passIm]
    constructor <;> intro i hi
    · rw [hsplit, ← iheven hdvd' i hi, ← ihodd hdvd' i hi, ← rot_real_pass hdvd, joinRuns_lower _ _ hi,
        joinRuns_lower _ _ hi]
      rfl
    · rw [hsplit, hturn, directTransform_add_size hpos, directTransform_add_size hpos, ← iheven hdvd' i hi,
        ← ihodd hdvd' i hi, mul_neg, ← rot_real_pass hdvd, joinRuns_upper, joinRuns_upper, ← sub_eq_add_neg]
      rfl

/-- Settles O37: the execution decimates the samples of the view, which in REAL is the direct transform. -/
theorem fft1IsTheDirectTransform : Obligations.Fft1IsTheDirectTransform := by
  intro c o d x hc ho h2 hseq ht hx
  obtain ⟨e, yr, yi, hrun, hy, hdec⟩ := runFft1_decimates (ns := realNum) hc ho h2 hseq ht hx
  have ⟨hpow, hsize, _⟩ := ho
  refine ⟨e, hrun, fun k hk => ?_⟩
  rw [← hdec.eq_directTransform (hpow.dvd_N hsize) k hk]
  exact hy k hk

end Sys2Proof.Machine
end

section
/-! PROOFS. Bit reversal (spec/44_bitreverse.md): BREVNET reverses the bits of the index, is its own inverse and places even
and odd indices (R132 to R134), and an accepted BREV completes in any NUM (R137).

That r is i with m bits reversed is one equation per bit (`IsBitReverse`), false from bit m on. It determines r, so BREVNET
answers whatever number satisfies it (`brevnet_eq_ok`), and each clause of the statement is a fact about the relation. -/

namespace Sys2Proof.Machine

/-! ### The relation (R132) -/

/-- `r` has the lowest m bits of `i` in reverse, and nothing above them (R132). -/
def IsBitReverse (m i r : Nat) : Prop := ∀ q, r.testBit q = (decide (q < m) && i.testBit (m - 1 - q))

theorem IsBitReverse.testBit {m i r q : Nat} (h : IsBitReverse m i r) (hq : q < m) :
    r.testBit q = i.testBit (m - 1 - q) := by simpa [hq] using h q

theorem IsBitReverse.lt {m i r : Nat} (h : IsBitReverse m i r) : r < 2 ^ m := by
  refine Nat.lt_pow_two_of_testBit r fun q hq => ?_
  rw [h, decide_eq_false (Nat.not_lt.mpr hq), Bool.false_and]

theorem IsBitReverse.unique {m i r r' : Nat} (h : IsBitReverse m i r) (h' : IsBitReverse m i r') : r = r' :=
  Nat.eq_of_testBit_eq fun q => (h q).trans (h' q).symm

theorem isBitReverse_of_lt {m i r : Nat} (hr : r < 2 ^ m) (h : ∀ q < m, r.testBit q = i.testBit (m - 1 - q)) :
    IsBitReverse m i r := by
  intro q
  by_cases hq : q < m
  · rw [h q hq, decide_eq_true hq, Bool.true_and]
  · rw [decide_eq_false hq, Bool.false_and]
    exact Nat.testBit_lt_two_pow (hr.trans_le (Nat.pow_le_pow_right two_pos (Nat.not_lt.mp hq)))

/-- Reversing twice gives the index back (R134). -/
theorem IsBitReverse.symm {m i r : Nat} (hi : i < 2 ^ m) (h : IsBitReverse m i r) : IsBitReverse m r i := by
  refine isBitReverse_of_lt hi fun q hq => ?_
  rw [h.testBit (by omega), show m - 1 - (m - 1 - q) = q by omega]

/-- A bit appended below the index comes out above its reversal (R134). -/
theorem IsBitReverse.append {m i r : Nat} (h : IsBitReverse m i r) (b : Bool) :
    IsBitReverse (m + 1) (2 * i + b.toNat) (2 ^ m * b.toNat + r) := by
  have hlow (k : Nat) : (2 * i + b.toNat).testBit k = if k < 1 then b.toNat.testBit k else i.testBit (k - 1) := by
    simpa using Nat.testBit_two_pow_mul_add i (i := 1) b.toNat_lt k
  intro q
  rw [Nat.testBit_two_pow_mul_add _ h.lt, Nat.add_sub_cancel, hlow]
  obtain hq | rfl | hq := lt_trichotomy q m
  · rw [if_pos hq, if_neg (by omega), h.testBit hq, decide_eq_true (by omega), Bool.true_and, Nat.sub_right_comm]
  · simp
  · rw [if_neg (by omega), decide_eq_false (by omega), Bool.false_and]
    exact Nat.testBit_lt_two_pow (b.toNat_lt.trans_le (Nat.pow_le_pow_right two_pos (by omega : 1 ≤ q - m)))

/-! ### BREVNET (R133, R134) -/

theorem brevnetRegs_isBitReverse {m i : Nat} (hi : i < 2 ^ m) :
    ∃ r, brevnetRegs i (2 ^ m) = .ok ⟨1, r⟩ ∧ IsBitReverse m i r := by
  obtain ⟨r, hregs, hr, hbits⟩ := brevnetRegs_ok hi
  exact ⟨r, hregs, isBitReverse_of_lt hr hbits⟩

/-- Inside its domain BREVNET answers the reversal of its index. -/
theorem brevnet_eq_ok {m i r : Nat} (hi : i < 2 ^ m) (h : IsBitReverse m i r) : brevnet i (2 ^ m) = .ok r := by
  obtain ⟨r', hregs, hr'⟩ := brevnetRegs_isBitReverse hi
  rw [h.unique hr', brevnet, hregs]
  rfl

/-- Settles O38: the reversal of the index is the only number the four calls can answer with, by `symm` and `append`. -/
theorem brevnetReversesBits : Obligations.BrevnetReversesBits := by
  intro m i hi
  obtain ⟨r, -, hr⟩ := brevnetRegs_isBitReverse hi
  have heven : IsBitReverse (m + 1) (2 * i) r := by simpa using hr.append false
  have hodd : IsBitReverse (m + 1) (2 * i + 1) (2 ^ m + r) := by simpa using hr.append true
  rw [← Nat.pow_succ']
  exact ⟨r, brevnet_eq_ok hi hr, hr.lt, fun q => hr.testBit, brevnet_eq_ok hr.lt (hr.symm hi),
    brevnet_eq_ok (by omega) heven, brevnet_eq_ok (by omega) hodd⟩

/-! ### The BREV command (R137) -/

/-- BREV on an engine that accepts it, in any NUM: it completes with the reversal of IOFF in RESULT. -/
theorem execIn_brev_ok {α : Type} {n : Nat} {num : Num α n} {s : State α n} {m : Nat} (hs : Ready s)
    (hsize : s.size.toNat = 2 ^ m) (hioff : s.ioff.toNat < 2 ^ m) : ∃ r, IsBitReverse m s.ioff.toNat r ∧
      execIn num .brev s = .next { completedState s { s.dp with work := .dead } with result := BitVec.ofNat 32 r } := by
  obtain ⟨-, hidle, herr⟩ := hs
  obtain ⟨r, hregs, hr⟩ := brevnetRegs_isBitReverse hioff
  refine ⟨r, hr, ?_⟩
  rw [← hsize] at hregs hioff
  rw [execIn_brev_eq, issue_next_iff]
  exact ⟨hidle, .inr (.inr ⟨herr, checkBrev_none_iff.mpr ⟨⟨m, hsize⟩, hioff⟩, _, Res.bind_ok_iff.mpr ⟨_, hregs, rfl⟩, rfl⟩)⟩

/-- Settles O40: the rule of BREV in any NUM, at R64. The reversal fits in RESULT, since it is below SIZE. -/
theorem brevWritesTheReversedIndex : Obligations.BrevWritesTheReversedIndex := by
  intro s m hs hsize hioff
  obtain ⟨r, hr, hexec⟩ := execIn_brev_ok (num := R64.num) hs hsize hioff
  have hlt : r < 2 ^ 32 := hr.lt.trans (hsize ▸ s.size.isLt)
  refine ⟨BitVec.ofNat 32 r, fun q => ?_, (exec_eq_execIn .brev s).trans hexec⟩
  rw [← BitVec.testBit_toNat, BitVec.toNat_ofNat, Nat.mod_eq_of_lt hlt, hr q, BitVec.testBit_toNat]

end Sys2Proof.Machine
end

section
/-! PROOFS. What a transform depends on (spec/41_dft.md R104, spec/42_butterfly.md R112, spec/43_fft_recursive.md R129): a DFT
task reads the input and twiddle banks only, a pass reads the twiddle banks and its window. Run from two states with the same
words there they leave the same words in their run, in any NUM. -/

namespace Sys2Proof.Machine

variable {α : Type} {ns : NumSys α} {c : Config}

/-! ### Loops in step -/

/-- Two loops in step: where each round of one that ends well has its counterpart in the other, the second ends well if the
first does. -/
theorem forN_simulates {σ τ : Type} {f : Nat → σ → Res σ} {g : Nat → τ → Res τ} (R : Nat → σ → τ → Prop) {k : Nat}
    (hstep : ∀ i x y x', i < k → R i x y → f i x = .ok x' → ∃ y', g i y = .ok y' ∧ R (i + 1) x' y')
    {x x' : σ} {y : τ} (h0 : R 0 x y) (h : forN k f x = .ok x') : ∃ y', forN k g y = .ok y' ∧ R k x' y' := by
  induction k generalizing x' with
  | zero => cases h; exact ⟨y, rfl, h0⟩
  | succ k ih =>
    obtain ⟨z, hz, hzx⟩ := Res.bind_ok_iff.mp h
    obtain ⟨w, hw, hR⟩ := ih (fun i x y x' hi => hstep i x y x' (by omega)) hz
    obtain ⟨y', hy, hR'⟩ := hstep k z w x' (Nat.lt_succ_self k) hR hzx
    exact ⟨y', by rw [forN, hw, Res.ok_bind, hy], hR'⟩

/-! ### What a task depends on (R104, R112) -/

/-- `m` and `m'` have the same words in the banks no transform writes and in the output words lo ≤ i < hi. -/
def AgreeOn (lo hi : Nat) (m m' : Memory α) : Prop :=
  ∀ b i, (b = .outRe ∨ b = .outIm → lo ≤ i ∧ i < hi) → m'.read b i = m.read b i

theorem AgreeOn.refl (lo hi : Nat) (m : Memory α) : AgreeOn lo hi m m := fun _ _ _ => rfl

theorem AgreeOn.symm {lo hi : Nat} {m m' : Memory α} (h : AgreeOn lo hi m m') : AgreeOn lo hi m' m :=
  fun b i hb => (h b i hb).symm

theorem AgreeOn.trans {lo hi : Nat} {m m' m'' : Memory α} (h : AgreeOn lo hi m m') (h' : AgreeOn lo hi m' m'') :
    AgreeOn lo hi m m'' := fun b i hb => (h' b i hb).trans (h b i hb)

/-- Agreement on no output word at all. -/
theorem AgreeOn.empty {lo hi : Nat} {m m' : Memory α} (h : AgreeOn lo hi m m') (k : Nat) : AgreeOn k k m m' :=
  fun b i hb => h b i fun ho => by have := hb ho; omega

theorem AgreeOn.join {lo mid hi : Nat} {m m' : Memory α} (h : AgreeOn lo mid m m') (h' : AgreeOn mid hi m m') :
    AgreeOn lo hi m m' := fun b i hb => by
  by_cases hi : i < mid
  · exact h b i fun ho => ⟨(hb ho).1, hi⟩
  · exact h' b i fun ho => ⟨Nat.not_lt.mp hi, (hb ho).2⟩

/-- A transform that writes elsewhere leaves the words as they were. -/
theorem OutFrame.agreeOn {lo hi lo' hi' : Nat} {m m' : Memory α} (h : OutFrame c lo' hi' m m') (hd : hi ≤ lo' ∨ hi' ≤ lo) :
    AgreeOn lo hi m m' := fun b i hb => h.same b i fun ⟨ho, h1, h2, _⟩ => by
  obtain ⟨h3, h4⟩ := hb ho
  omega

theorem load_congr {m m' : Memory α} {b : BankId} {i : Nat} (h : m'.read b i = m.read b i) : m'.load c b i = m.load c b i := by
  rw [Memory.load, Memory.load, h]

/-- DFTBIN reads no output word. -/
theorem dftbinRegs_congr {lo hi ioff size stride k : Nat} {m m' : Memory α} (h : AgreeOn lo hi m m') :
    dftbinRegs ns c m' ioff size stride k = dftbinRegs ns c m ioff size stride k := by
  have hload (b : BankId) (i : Nat) (hb : ¬(b = .outRe ∨ b = .outIm)) : m'.load c b i = m.load c b i :=
    load_congr (h b i fun ho => absurd ho hb)
  have hsample : dftSample ns c m' ioff size stride = dftSample ns c m ioff size stride := by
    funext r
    simp [dftSample, twmul, hload]
  rw [dftbinRegs, dftbinRegs, hsample]

/-- The same two values written to the output words after those agreed on. -/
theorem AgreeOn.extend {lo hi : Nat} {m m' : Memory α} (h : AgreeOn lo hi m m') (x y : α) :
    AgreeOn lo (hi + 1) ((m.write .outRe hi x).write .outIm hi y) ((m'.write .outRe hi x).write .outIm hi y) := by
  intro b i hb
  by_cases hlast : (b = .outRe ∨ b = .outIm) ∧ i = hi
  · obtain ⟨rfl | rfl, rfl⟩ := hlast <;> simp [Memory.read_write]
  · simp only [Memory.read_write]
    rw [h b i fun ho => ?_]
    obtain ⟨hlo, hhi⟩ := hb ho
    have hne : i ≠ hi := fun hi' => hlast ⟨ho, hi'⟩
    omega

/-- A DFT task on banks with the same input and table leaves the same words in its run. -/
theorem dftTask_agree {ioff ooff size stride : Nat} {d e d' : Datapath α} (h : dftTask ns c ioff ooff size stride d = .ok e)
    (hd : AgreeOn ooff ooff d.mem d'.mem) :
    ∃ e', dftTask ns c ioff ooff size stride d' = .ok e' ∧ AgreeOn ooff (ooff + size) e.mem e'.mem := by
  obtain ⟨x, hx, he⟩ := Res.bind_ok_iff.mp h
  cases he
  obtain ⟨x', hx', hagree⟩ := forN_simulates (g := dftBinStep ns c ioff ooff size stride)
    (fun k (y y' : Datapath α) => AgreeOn ooff (ooff + k) y.mem y'.mem) (fun k y y' z _ hy hz => by
      simp only [dftBinStep, Res.bind_ok_iff, store_ok_iff, Except.ok.injEq] at hz ⊢
      obtain ⟨r, hr, _, ⟨hN, rfl⟩, _, ⟨_, rfl⟩, rfl⟩ := hz
      exact ⟨_, ⟨r, (dftbinRegs_congr hy).trans hr, _, ⟨hN, rfl⟩, _, ⟨hN, rfl⟩, rfl⟩, hy.extend _ _⟩) hd hx
  exact ⟨x'.endTask, by rw [dftTask, hx']; rfl, hagree⟩

/-- A butterfly on banks that agree on the window of its pass. -/
theorem bpassStep_agree {ooff size i : Nat} {d e d' : Datapath α} (hi : i < size / 2)
    (hd : AgreeOn ooff (ooff + size) d.mem d'.mem) (h : bpassStep ns c ooff size i d = .ok e) :
    ∃ e', bpassStep ns c ooff size i d' = .ok e' ∧ AgreeOn ooff (ooff + size) e.mem e'.mem := by
  have hmem : butterfly ns c ooff size d.mem i = .ok e.mem := by rw [← bpassStep_map_mem, h]; rfl
  obtain ⟨m', hm', hpair⟩ := butterfly_local hmem (u := d'.mem) fun b k hk => hd b k fun ho => by
    obtain rfl | rfl | ⟨-, hk⟩ := hk
    · simp at ho
    · simp at ho
    · omega
  obtain ⟨e', he', rfl⟩ := Res.map_ok_iff.mp ((bpassStep_map_mem ooff size i d').trans hm')
  refine ⟨e', he', fun b k hk => ?_⟩
  by_cases hin : PairWord ooff size i b k
  · exact hpair b k hin
  · rw [butterfly_frame hm' hin, butterfly_frame hmem hin, hd b k hk]

/-- A pass on banks that agree on its window leaves the same words there. -/
theorem bpassTask_agree {ooff size : Nat} {d e d' : Datapath α} (h : bpassTask ns c ooff size d = .ok e)
    (hd : AgreeOn ooff (ooff + size) d.mem d'.mem) :
    ∃ e', bpassTask ns c ooff size d' = .ok e' ∧ AgreeOn ooff (ooff + size) e.mem e'.mem := by
  obtain ⟨x, hx, he⟩ := Res.bind_ok_iff.mp h
  cases he
  obtain ⟨x', hx', hagree⟩ := forN_simulates (g := bpassStep ns c ooff size)
    (fun _ (y y' : Datapath α) => AgreeOn ooff (ooff + size) y.mem y'.mem) (fun _ _ _ _ => bpassStep_agree) hd hx
  exact ⟨x'.endTask, by rw [bpassTask, hx']; rfl, hagree⟩

end Sys2Proof.Machine
end

section
/-! PROOFS. The iterative transform (spec/45_fft_iterative.md): the loop controller is the nested loops (R144), FFT2 with one
block is the direct transform (R149), FFT2 and FFT1 agree bit for bit where the leaves of FFT1 have size B (R150 (b)), an
accepted FFT2 completes (R142, R148), and in REAL it is the direct transform (R150 (a)).

FFT2 and the recursion that splits down to blocks of size B do the same tasks in different orders. The link is one claim about
each window of each stage: it holds what the recursion leaves for that window when it is run alone (`WindowDone`). The scatter
makes it true of the windows of width B, each pass makes it true of a window from its two halves, and the last window is the
whole transform (`fft2Loops_agree`). What is known of FFT1 at every threshold then holds of FFT2, by taking T = B. -/

namespace Sys2Proof.Machine

variable {α : Type} {n : Nat} {ns : NumSys α} {c : Config}

/-! ### The loop controller (R144) -/

theorem fft2Block_work {j : Nat} {d e : Datapath α} (h : fft2Block ns c j d = .ok e) : e.work = .dead := by
  obtain ⟨_, -, htask⟩ := Res.bind_ok_iff.mp h
  obtain ⟨-, -, hwork, -⟩ := dftTask_frame htask
  exact hwork

theorem fft2Stage_work {w : Nat} {d e : Datapath α} (hd : d.work = .dead) (h : fft2Stage ns c w d = .ok e) :
    e.work = .dead := by
  refine forN_invariant (fun _ (x : Datapath α) => x.work = .dead) (fun _ _ _ _ hpass => ?_) hd h
  obtain ⟨-, -, hwork, -⟩ := bpassTask_frame hpass
  exact hwork

/-- The last task of FFT2 leaves the working registers dead (R36). There is a last task, since there is a block. -/
theorem fft2Loops_work (hc : c.wellFormed = true) {d e : Datapath α} (h : fft2Loops ns c d = .ok e) : e.work = .dead := by
  obtain ⟨-, hblocks, -, -⟩ := cfg_blocks_spec hc
  obtain ⟨x, hscatter, hstages⟩ := Res.bind_ok_iff.mp h
  have hdead : c.blocks = 0 ∨ x.work = .dead :=
    forN_invariant (fun j (y : Datapath α) => j = 0 ∨ y.work = .dead) (fun _ _ _ _ hblock => .inr (fft2Block_work hblock))
      (.inl rfl) hscatter
  have hx : x.work = .dead := hdead.resolve_left (by rw [hblocks]; positivity)
  exact forN_invariant (fun _ (y : Datapath α) => y.work = .dead) (fun _ _ _ => fft2Stage_work) hx hstages

/-- Settles O41: the controller is the nested loops, which leave the working registers dead. -/
theorem loopControllerEqualsLoops : Obligations.LoopControllerEqualsLoops := by
  intro α ns c d hc hseq
  have hrun : runFft2 ns c d = (fft2Loops ns c (d.withIt ⟨.scatter, 0, 0, 0⟩)).map (Datapath.withIt LoopRegs.idle) :=
    runFft2_eq_fft2Loops (d := d.withIt ⟨.scatter, 0, 0, 0⟩) hc hseq
  rw [hrun, ← Datapath.withIt]
  cases h : fft2Loops ns c (d.withIt ⟨.scatter, 0, 0, 0⟩) with
  | error e => rfl
  | ok e =>
    have hwork := fft2Loops_work hc h
    rw [Res.ok_bind, ← hwork]
    rfl

/-! ### One block (R149) -/

/-- With B = N the one block is the whole input and there is no stage. -/
theorem fft2Loops_one_block (hb : c.b = c.n) (d : Datapath α) : fft2Loops ns c d = dftTask ns c 0 0 c.N 1 d := by
  have hB : c.B = c.N := congrArg (2 ^ ·) hb
  have hN : 0 < c.N := Nat.two_pow_pos c.n
  have hblocks : c.blocks = 1 := by rw [Config.blocks, hB, Nat.div_self hN]
  have hblock : fft2Block ns c 0 d = dftTask ns c 0 0 c.N 1 d := by
    rw [fft2Block, hblocks, hB]
    rfl
  rw [fft2Loops, hblocks, hb, Nat.sub_self, ← hblock]
  cases h : fft2Block ns c 0 d <;> simp [forN, h]

/-- Settles O45: both commands are the DFT task of the whole input. -/
theorem fft2WithOneBlockIsTheDft : Obligations.Fft2WithOneBlockIsTheDft := by
  intro α ns c d e hc hseq hb hrun
  obtain ⟨hstack, -⟩ := cfg_blocks_spec hc
  rw [runDft_eq hseq hstack] at hrun
  exact ⟨e.withIt LoopRegs.idle, by rw [runFft2_eq_fft2Loops hc hseq, fft2Loops_one_block hb, hrun]; rfl, rfl⟩

/-! ### A transform split a given number of times (R139, R141) -/

/-- The transform whose recursion splits its view `levels` times and then does DFT tasks (R121, R123): FFT1 where its leaves
have size `o.size` div 2^levels. -/
def splitTransform (ns : NumSys α) (c : Config) : Nat → Operands → Datapath α → Res (Datapath α)
  | 0, o, d => dftTask ns c o.ioff o.ooff o.size o.stride d
  | levels + 1, o, d => do
    let e ← splitTransform ns c levels o.evenHalf d
    let e ← splitTransform ns c levels o.oddHalf e
    bpassTask ns c o.ooff o.size e

/-- The two halves and the pass of a split transform that ends well. -/
theorem splitTransform_succ_ok_iff {r : Nat} {o : Operands} {d e : Datapath α} :
    splitTransform ns c (r + 1) o d = .ok e ↔
      ∃ x, splitTransform ns c r o.evenHalf d = .ok x ∧ ∃ y, splitTransform ns c r o.oddHalf x = .ok y ∧
        bpassTask ns c o.ooff o.size y = .ok e := by
  simp only [splitTransform, Res.bind_ok_iff]

/-- A split transform writes its run and nothing else. -/
theorem splitTransform_frame {r : Nat} {o : Operands} {d e : Datapath α} (h : splitTransform ns c r o d = .ok e) :
    OutFrame c o.ooff (o.ooff + o.size) d.mem e.mem := by
  induction r generalizing o d e with
  | zero =>
    obtain ⟨-, -, -, hframe⟩ := dftTask_frame h
    exact hframe
  | succ r ih =>
    obtain ⟨x, hx, y, hy, he⟩ := splitTransform_succ_ok_iff.mp h
    obtain ⟨-, -, -, hpass⟩ := bpassTask_frame he
    have heven := ih hx
    have hodd := ih hy
    dsimp only [Operands.evenHalf, Operands.oddHalf] at heven hodd
    exact ((heven.mono (by omega) (by omega)).trans (hodd.mono (by omega) (by omega))).trans hpass

/-- A split transform on banks with the same input and table leaves the same words in its run. -/
theorem splitTransform_agree {r : Nat} {o : Operands} (hdvd : 2 ^ r ∣ o.size) {d e d' : Datapath α} {k : Nat}
    (h : splitTransform ns c r o d = .ok e) (hd : AgreeOn k k d.mem d'.mem) :
    ∃ e', splitTransform ns c r o d' = .ok e' ∧ AgreeOn o.ooff (o.ooff + o.size) e.mem e'.mem := by
  induction r generalizing o d e d' k with
  | zero => exact dftTask_agree h (hd.empty _)
  | succ r ih =>
    obtain ⟨a, ha⟩ := hdvd
    have hsize : o.size = 2 * (2 ^ r * a) := by rw [ha]; ring
    have hdvd' : 2 ^ r ∣ o.size / 2 := ⟨a, by omega⟩
    obtain ⟨x, hx, y, hy, he⟩ := splitTransform_succ_ok_iff.mp h
    obtain ⟨x', hx', hxx⟩ := ih (o := o.evenHalf) hdvd' hx hd
    obtain ⟨y', hy', hyy⟩ := ih (o := o.oddHalf) hdvd' hy (hxx.empty k)
    have hkept : AgreeOn o.ooff (o.ooff + o.size / 2) x.mem y.mem := (splitTransform_frame hy).agreeOn (.inl (le_refl _))
    have hkept' : AgreeOn o.ooff (o.ooff + o.size / 2) x'.mem y'.mem :=
      (splitTransform_frame hy').agreeOn (.inl (le_refl _))
    have hwindow := (hkept.symm.trans (hxx.trans hkept')).join hyy
    rw [show o.oddHalf.ooff + o.oddHalf.size = o.ooff + o.size by
      simp only [Operands.oddHalf]; omega] at hwindow
    obtain ⟨e', he', hee⟩ := bpassTask_agree he hwindow
    exact ⟨e', splitTransform_succ_ok_iff.mpr ⟨x', hx', y', hy', he'⟩, hee⟩

/-! ### The windows of FFT2 (R139, R145, R146) -/

/-- The lowest m bits of i in reverse (R132). -/
def bitReverse : Nat → Nat → Nat
  | 0, _ => 0
  | m + 1, i => 2 ^ m * (i % 2) + bitReverse m (i / 2)

theorem isBitReverse_bitReverse (m i : Nat) : IsBitReverse m i (bitReverse m i) := by
  induction m generalizing i with
  | zero => intro q; simp [bitReverse]
  | succ m ih =>
    have h := (ih (i / 2)).append (i.testBit 0)
    rwa [Nat.toNat_testBit, pow_zero, Nat.div_one, Nat.div_add_mod] at h

theorem bitReverse_bitReverse {m i : Nat} (hi : i < 2 ^ m) : bitReverse m (bitReverse m i) = i :=
  (isBitReverse_bitReverse m _).unique ((isBitReverse_bitReverse m i).symm hi)

theorem bitReverse_injective {m i j : Nat} (hi : i < 2 ^ m) (hj : j < 2 ^ m) (h : bitReverse m i = bitReverse m j) :
    i = j := by
  rw [← bitReverse_bitReverse hi, h, bitReverse_bitReverse hj]

/-- The transform that window p of FFT2 holds after r stages, with s stages to come: the view that s splits produce there, in
the run of the window (R139, R141, R146). -/
def fft2Window (c : Config) (r s p : Nat) : Operands := ⟨2 ^ r * c.B, 2 ^ s, bitReverse s p, p * (2 ^ r * c.B)⟩

theorem half_stage_width (r B : Nat) : 2 ^ (r + 1) * B / 2 = 2 ^ r * B := by
  rw [Nat.pow_succ, Nat.mul_right_comm, Nat.mul_div_cancel _ two_pos]

/-- The halves of a window are the windows 2p and 2p + 1 of the stage before. -/
theorem fft2Window_halves (c : Config) (r s p : Nat) :
    (fft2Window c (r + 1) s p).evenHalf = fft2Window c r (s + 1) (2 * p) ∧
      (fft2Window c (r + 1) s p).oddHalf = fft2Window c r (s + 1) (2 * p + 1) := by
  simp only [fft2Window, Operands.evenHalf, Operands.oddHalf, half_stage_width, Operands.mk.injEq, bitReverse, true_and]
  refine ⟨⟨?_, ?_, ?_⟩, ?_, ?_, ?_⟩
  · ring
  · simp
  · ring
  · ring
  · rw [show (2 * p + 1) % 2 = 1 by omega, show (2 * p + 1) / 2 = p by omega, mul_one, Nat.add_comm]
  · ring

/-- The last of the widths B, 2B, 4B, … is N (R143). -/
theorem N_eq_last_width (hb : c.b ≤ c.n) : c.N = 2 ^ (c.n - c.b) * c.B := by
  rw [Config.N, Config.B, ← Nat.pow_add, Nat.sub_add_cancel hb]

/-- The last window is the whole input (R140). -/
theorem fft2Window_whole (hb : c.b ≤ c.n) : fft2Window c (c.n - c.b) 0 0 = ⟨c.N, 1, 0, 0⟩ := by
  simp [fft2Window, bitReverse, N_eq_last_width hb]

/-- Block j is the transform of the window it is scattered to (R142, R145). -/
theorem fft2Block_eq_window (hc : c.wellFormed = true) {j : Nat} (hj : j < 2 ^ (c.n - c.b)) (d : Datapath α) :
    fft2Block ns c j d = splitTransform ns c 0 (fft2Window c 0 (c.n - c.b) (bitReverse (c.n - c.b) j)) d := by
  obtain ⟨-, hblocks, -, -⟩ := cfg_blocks_spec hc
  rw [fft2Block, hblocks, brevnet_eq_ok hj (isBitReverse_bitReverse _ _), Res.ok_bind, splitTransform]
  simp only [fft2Window, bitReverse_bitReverse hj, pow_zero, one_mul, Nat.mul_comm]

/-- Different windows of one width share no word. -/
theorem window_disjoint {p p' : Nat} (w : Nat) (h : p ≠ p') : (p + 1) * w ≤ p' * w ∨ (p' + 1) * w ≤ p * w := by
  obtain h | h := Nat.lt_or_gt_of_ne h
  · exact .inl (Nat.mul_le_mul_right w h)
  · exact .inr (Nat.mul_le_mul_right w h)

/-- Window p of the banks `m` holds after r stages what its transform leaves when it is run from `d`, alone. -/
def WindowDone (ns : NumSys α) (c : Config) (d : Datapath α) (r s p : Nat) (m : Memory α) : Prop :=
  ∃ e, splitTransform ns c r (fft2Window c r s p) d = .ok e ∧
    AgreeOn (p * (2 ^ r * c.B)) ((p + 1) * (2 ^ r * c.B)) e.mem m

/-- A task that writes elsewhere leaves a window as it was. -/
theorem WindowDone.of_frame {d : Datapath α} {r s p lo hi : Nat} {m m' : Memory α} (h : WindowDone ns c d r s p m)
    (hframe : OutFrame c lo hi m m') (hd : (p + 1) * (2 ^ r * c.B) ≤ lo ∨ hi ≤ p * (2 ^ r * c.B)) :
    WindowDone ns c d r s p m' := by
  obtain ⟨e, he, hagree⟩ := h
  exact ⟨e, he, hagree.trans (hframe.agreeOn hd)⟩

/-- Running the transform of a window puts the window in place. -/
theorem splitTransform_windowDone {d x : Datapath α} {r s p k : Nat}
    (hp : ∃ e, splitTransform ns c r (fft2Window c r s p) d = .ok e) (hx : AgreeOn k k d.mem x.mem) :
    ∃ x', splitTransform ns c r (fft2Window c r s p) x = .ok x' ∧ WindowDone ns c d r s p x'.mem := by
  obtain ⟨e, he⟩ := hp
  obtain ⟨x', hx', hagree⟩ := splitTransform_agree ⟨_, rfl⟩ he hx
  refine ⟨x', hx', e, he, ?_⟩
  rw [Nat.succ_mul]
  exact hagree

/-- The pass over a window combines the two windows of the stage before (R146). -/
theorem bpassTask_windowDone {d x : Datapath α} {r s p : Nat}
    (hp : ∃ e, splitTransform ns c (r + 1) (fft2Window c (r + 1) s p) d = .ok e)
    (heven : WindowDone ns c d r (s + 1) (2 * p) x.mem) (hodd : WindowDone ns c d r (s + 1) (2 * p + 1) x.mem) :
    ∃ x', bpassTask ns c (p * (2 ^ (r + 1) * c.B)) (2 ^ (r + 1) * c.B) x = .ok x' ∧
      WindowDone ns c d (r + 1) s p x'.mem := by
  obtain ⟨e, he⟩ := hp
  obtain ⟨y, hy, z, hz, hpass⟩ := splitTransform_succ_ok_iff.mp he
  obtain ⟨hwe, hwo⟩ := fft2Window_halves c r s p
  rw [hwe] at hy
  rw [hwo] at hz
  obtain ⟨y', hy', hyx⟩ := heven
  obtain rfl : y = y' := Except.ok.inj (hy.symm.trans hy')
  obtain ⟨z', hz', hzx⟩ := hodd
  have hinput : AgreeOn 0 0 d.mem y.mem := (splitTransform_frame hy).agreeOn (.inl (Nat.zero_le _))
  obtain ⟨z'', hz'', hzz⟩ := splitTransform_agree ⟨_, rfl⟩ hz' hinput
  obtain rfl : z = z'' := Except.ok.inj (hz.symm.trans hz'')
  have hkept : AgreeOn (2 * p * (2 ^ r * c.B)) ((2 * p + 1) * (2 ^ r * c.B)) y.mem z.mem :=
    (splitTransform_frame hz).agreeOn (.inl (le_refl _))
  rw [show (fft2Window c r (s + 1) (2 * p + 1)).ooff + (fft2Window c r (s + 1) (2 * p + 1)).size =
    (2 * p + 1 + 1) * (2 ^ r * c.B) from (Nat.succ_mul _ _).symm] at hzz
  have hwindow := (hkept.symm.trans hyx).join (hzz.symm.trans hzx)
  rw [show 2 * p * (2 ^ r * c.B) = p * (2 ^ (r + 1) * c.B) by ring,
    show (2 * p + 1 + 1) * (2 ^ r * c.B) = p * (2 ^ (r + 1) * c.B) + 2 ^ (r + 1) * c.B by ring] at hwindow
  obtain ⟨x', hx', hagree⟩ := bpassTask_agree hpass hwindow
  refine ⟨x', hx', e, he, ?_⟩
  rw [Nat.succ_mul]
  exact hagree

/-! ### The loops of FFT2 (R142) -/

/-- A transform that ends well is made of transforms that do, each run alone. -/
theorem splitTransform_window_ok {d : Datapath α} {s r p : Nat} (hp : p < 2 ^ s)
    (h : ∃ e, splitTransform ns c (r + s) (fft2Window c (r + s) 0 0) d = .ok e) :
    ∃ e, splitTransform ns c r (fft2Window c r s p) d = .ok e := by
  induction s generalizing r p with
  | zero =>
    obtain rfl : p = 0 := by omega
    exact h
  | succ s ih =>
    have hparent : p / 2 < 2 ^ s := by rw [Nat.pow_succ] at hp; omega
    obtain ⟨e, he⟩ := ih hparent (r := r + 1) (by rwa [Nat.add_right_comm])
    obtain ⟨y, hy, z, hz, -⟩ := splitTransform_succ_ok_iff.mp he
    obtain ⟨hwe, hwo⟩ := fft2Window_halves c r s (p / 2)
    obtain heven | hodd := Nat.mod_two_eq_zero_or_one p
    · rw [hwe, show 2 * (p / 2) = p by omega] at hy
      exact ⟨y, hy⟩
    · rw [hwo, show 2 * (p / 2) + 1 = p by omega] at hz
      have hinput : AgreeOn 0 0 y.mem d.mem := ((splitTransform_frame hy).agreeOn (.inl (Nat.zero_le _))).symm
      obtain ⟨z', hz', -⟩ := splitTransform_agree ⟨_, rfl⟩ hz hinput
      exact ⟨z', hz'⟩

/-- The scatter leaves every window of width B in place (R145). -/
theorem fft2_scatter_done (hc : c.wellFormed = true) {d : Datapath α}
    (hd : ∀ p < 2 ^ (c.n - c.b), ∃ e, splitTransform ns c 0 (fft2Window c 0 (c.n - c.b) p) d = .ok e) :
    ∃ x, forN c.blocks (fft2Block ns c) d = .ok x ∧
      ∀ p < 2 ^ (c.n - c.b), WindowDone ns c d 0 (c.n - c.b) p x.mem := by
  obtain ⟨-, hblocks, -, -⟩ := cfg_blocks_spec hc
  rw [hblocks]
  obtain ⟨x, hx, -, hdone⟩ := forN_progress (n := 2 ^ (c.n - c.b)) (f := fft2Block ns c) (x := d)
    (fun j (x : Datapath α) => AgreeOn 0 0 d.mem x.mem ∧
      ∀ i < j, WindowDone ns c d 0 (c.n - c.b) (bitReverse (c.n - c.b) i) x.mem)
    (fun j x hj ⟨hinput, hdone⟩ => by
      obtain ⟨x', hx', hnew⟩ := splitTransform_windowDone (hd _ (isBitReverse_bitReverse _ j).lt) hinput
      have hframe := splitTransform_frame hx'
      refine ⟨x', (fft2Block_eq_window hc hj x).trans hx', hinput.trans (hframe.agreeOn (.inl (Nat.zero_le _))),
        fun i hi => ?_⟩
      obtain rfl | hne := eq_or_ne i j
      · exact hnew
      · refine (hdone i (by omega)).of_frame hframe ?_
        have hrev : bitReverse (c.n - c.b) i ≠ bitReverse (c.n - c.b) j :=
          fun h => hne (bitReverse_injective (by omega) hj h)
        have := window_disjoint (2 ^ 0 * c.B) hrev
        rwa [Nat.succ_mul (bitReverse (c.n - c.b) j)] at this)
    ⟨AgreeOn.refl _ _ _, fun _ hi => absurd hi (Nat.not_lt_zero _)⟩
  refine ⟨x, hx, fun p hp => ?_⟩
  have h := hdone _ (isBitReverse_bitReverse (c.n - c.b) p).lt
  rwa [bitReverse_bitReverse hp] at h

/-- A stage leaves every window of its width in place (R146). -/
theorem fft2Stage_done {d x : Datapath α} {r s : Nat} (hwindows : c.N / (2 ^ (r + 1) * c.B) = 2 ^ s)
    (hd : ∀ p < 2 ^ s, ∃ e, splitTransform ns c (r + 1) (fft2Window c (r + 1) s p) d = .ok e)
    (hx : ∀ p < 2 ^ (s + 1), WindowDone ns c d r (s + 1) p x.mem) :
    ∃ x', fft2Stage ns c (2 ^ (r + 1) * c.B) x = .ok x' ∧ ∀ p < 2 ^ s, WindowDone ns c d (r + 1) s p x'.mem := by
  rw [fft2Stage, hwindows]
  obtain ⟨x', hx', hdone, -⟩ := forN_progress (n := 2 ^ s)
    (f := fun i => bpassTask ns c (i * (2 ^ (r + 1) * c.B)) (2 ^ (r + 1) * c.B)) (x := x)
    (fun i (x : Datapath α) => (∀ p < i, WindowDone ns c d (r + 1) s p x.mem) ∧
      ∀ p < 2 ^ (s + 1), 2 * i ≤ p → WindowDone ns c d r (s + 1) p x.mem)
    (fun i x hi ⟨hdone, hleft⟩ => by
      have hlt : 2 * i + 1 < 2 ^ (s + 1) := by rw [Nat.pow_succ]; omega
      obtain ⟨x', hx', hnew⟩ := bpassTask_windowDone (hd i hi) (hleft (2 * i) (by omega) (le_refl _))
        (hleft (2 * i + 1) hlt (by omega))
      obtain ⟨-, -, -, hframe⟩ := bpassTask_frame hx'
      rw [← Nat.succ_mul] at hframe
      refine ⟨x', hx', fun p hp => ?_, fun p hp hip => ?_⟩
      · obtain rfl | hne := eq_or_ne p i
        · exact hnew
        · exact (hdone p (by omega)).of_frame hframe (window_disjoint _ hne)
      · refine (hleft p hp (by omega)).of_frame hframe (.inr ?_)
        calc (i + 1) * (2 ^ (r + 1) * c.B) = 2 * (i + 1) * (2 ^ r * c.B) := by ring
          _ ≤ p * (2 ^ r * c.B) := Nat.mul_le_mul_right _ hip)
    ⟨fun _ hp => absurd hp (Nat.not_lt_zero _), fun p hp _ => hx p hp⟩
  exact ⟨x', hx', hdone⟩

/-- The stages turn windows of width B in place into the window of width N in place (R142, R143). -/
theorem fft2_stages_done (hb : c.b ≤ c.n) {d x : Datapath α}
    (hd : ∀ r s, r + s = c.n - c.b → ∀ p < 2 ^ s, ∃ e, splitTransform ns c r (fft2Window c r s p) d = .ok e)
    (hx : ∀ p < 2 ^ (c.n - c.b), WindowDone ns c d 0 (c.n - c.b) p x.mem) :
    ∃ x', forN (c.n - c.b) (fun q => fft2Stage ns c (2 ^ (q + 1) * c.B)) x = .ok x' ∧
      WindowDone ns c d (c.n - c.b) 0 0 x'.mem := by
  obtain ⟨x', hx', hdone⟩ := forN_progress (n := c.n - c.b) (f := fun q => fft2Stage ns c (2 ^ (q + 1) * c.B)) (x := x)
    (fun q (x : Datapath α) => ∀ p < 2 ^ (c.n - c.b - q), WindowDone ns c d q (c.n - c.b - q) p x.mem)
    (fun q x hq hdone => by
      have hwindows : c.N / (2 ^ (q + 1) * c.B) = 2 ^ (c.n - c.b - 1 - q) :=
        Nat.div_eq_of_eq_mul_left (Nat.mul_pos (Nat.two_pow_pos _) (Nat.two_pow_pos _)) (N_eq_mul_stage_width hb hq)
      rw [show c.n - c.b - q = c.n - c.b - 1 - q + 1 by omega] at hdone
      rw [show c.n - c.b - (q + 1) = c.n - c.b - 1 - q by omega]
      exact fft2Stage_done hwindows (hd (q + 1) _ (by omega)) hdone) hx
  rw [Nat.sub_self] at hdone
  exact ⟨x', hx', hdone 0 Nat.one_pos⟩

/-- FFT2 does what the transform split into its blocks does, in another order: it ends well where that does, with the same
words in the output banks (R150). -/
theorem fft2Loops_agree (hc : c.wellFormed = true) {d e : Datapath α}
    (h : splitTransform ns c (c.n - c.b) ⟨c.N, 1, 0, 0⟩ d = .ok e) :
    ∃ e', fft2Loops ns c d = .ok e' ∧ AgreeOn 0 c.N e.mem e'.mem := by
  obtain ⟨-, -, -, hb⟩ := cfg_blocks_spec hc
  rw [← fft2Window_whole hb] at h
  have hok (r s : Nat) (hrs : r + s = c.n - c.b) (p : Nat) (hp : p < 2 ^ s) :
      ∃ e, splitTransform ns c r (fft2Window c r s p) d = .ok e :=
    splitTransform_window_ok hp ⟨e, by rwa [hrs]⟩
  obtain ⟨x, hx, hblocks⟩ := fft2_scatter_done hc (hok 0 _ (Nat.zero_add _))
  obtain ⟨e', he', e'', he'', hagree⟩ := fft2_stages_done hb hok hblocks
  obtain rfl : e = e'' := Except.ok.inj (h.symm.trans he'')
  rw [← N_eq_last_width hb, Nat.zero_mul, Nat.zero_add, Nat.one_mul] at hagree
  exact ⟨e', by rw [fft2Loops, hx, Res.ok_bind, he'], hagree⟩

/-! ### FFT1 with leaves of size B (R126, R150) -/

/-- FFT1 splits a transform of size 2^k · B, k up to r, exactly if k ≠ 0: its leaves there have size B (R123, R126). -/
def LeavesAreBlocks (c : Config) (r : Nat) : Prop := ∀ k ≤ r, (2 ^ k * c.B > c.T ∧ 2 ^ k * c.B % 2 = 0) ↔ k ≠ 0

theorem leavesAreBlocks_of_threshold (hlo : c.B ≤ max c.T 1) (hhi : max c.T 1 < 2 * c.B) (r : Nat) :
    LeavesAreBlocks c r := by
  intro k _
  obtain _ | k := k
  · simp only [pow_zero, one_mul, ne_eq, not_true_eq_false, iff_false]
    omega
  · have hsize : 2 ^ (k + 1) * c.B = 2 * (2 ^ k * c.B) := by ring
    have hle : c.B ≤ 2 ^ k * c.B := Nat.le_mul_of_pos_left _ (Nat.two_pow_pos k)
    simp only [hsize, ne_eq, Nat.succ_ne_zero, not_false_eq_true, iff_true]
    omega

theorem leavesAreBlocks_zero (h : c.B ≤ c.T) : LeavesAreBlocks c 0 := by
  intro k hk
  obtain rfl : k = 0 := by omega
  simp only [pow_zero, one_mul, ne_eq, not_true_eq_false, iff_false]
  omega

/-- A recursive transform whose halves are split `r` times is split once more. -/
theorem fft1Rec_eq_of_halves {r l : Nat} {o : Operands}
    (hhalf : ∀ o' : Operands, o'.size = o.size / 2 → fft1Half ns c l o' = splitTransform ns c r o') (d : Datapath α) :
    fft1Rec ns c (l + 1) o.ioff o.ooff o.size o.stride d = splitTransform ns c (r + 1) o d := by
  rw [fft1Rec_succ, hhalf o.evenHalf rfl, hhalf o.oddHalf rfl, splitTransform]

theorem fft1Half_eq_splitTransform {r l : Nat} {o : Operands} (hleaf : LeavesAreBlocks c r) (hl : r ≤ l)
    (hsize : o.size = 2 ^ r * c.B) : fft1Half ns c l o = splitTransform ns c r o := by
  induction r generalizing l o with
  | zero =>
    funext d
    rw [fft1Half, hsize, if_neg fun h => (hleaf 0 (le_refl _)).mp h rfl, splitTransform, hsize]
  | succ r ih =>
    obtain ⟨l, rfl⟩ : ∃ k, l = k + 1 := ⟨l - 1, by omega⟩
    have hsplit : o.size > c.T ∧ o.size % 2 = 0 := hsize ▸ (hleaf (r + 1) (le_refl _)).mpr r.succ_ne_zero
    funext d
    rw [fft1Half, if_pos hsplit]
    exact fft1Rec_eq_of_halves (fun o' ho' => ih (fun k hk => hleaf k (by omega)) (by omega)
      (by rw [ho', hsize, half_stage_width])) d

theorem wholeInput_fits (c : Config) : OperandsFit c ⟨c.N, 1, 0, 0⟩ := by
  refine ⟨⟨c.n, rfl⟩, le_refl _, ?_, ?_, ?_⟩ <;> dsimp only <;> omega

/-- The constraints on the parameters (R7 to R9, R12). -/
theorem wellFormed_iff {c : Config} : c.wellFormed = true ↔
    1 ≤ c.n ∧ c.n ≤ 30 ∧ c.T < 2 ^ 32 ∧ c.b ≤ c.n ∧ 2 * c.n + 1 ≤ c.stackDepth := by
  simp only [Config.wellFormed, Bool.and_eq_true, decide_eq_true_eq, and_assoc]

theorem two_le_N (hc : c.wellFormed = true) : 2 ≤ c.N := by
  obtain ⟨hn, -⟩ := wellFormed_iff.mp hc
  exact Nat.pow_le_pow_right two_pos hn

/-- FFT1 on the whole input, its leaves of size B, is the transform split into the blocks of FFT2. -/
theorem runFft1_whole_eq_splitTransform (hc : c.wellFormed = true) {r : Nat} (hr : c.n - c.b = r + 1)
    (hleaf : LeavesAreBlocks c r) {d : Datapath α} (hseq : d.seq = []) :
    runFft1 ns c ⟨c.N, 1, 0, 0⟩ d = splitTransform ns c (c.n - c.b) ⟨c.N, 1, 0, 0⟩ d := by
  have hN : c.N = 2 ^ (r + 1) * c.B := by rw [← hr]; exact N_eq_last_width (by omega)
  obtain ⟨l, hl⟩ : ∃ l, c.n = l + 1 := ⟨c.n - 1, by omega⟩
  rw [taskStackEqualsRecursion α ns c _ d hc (wholeInput_fits c) (two_le_N hc) hseq]
  have hlog : c.N.log2 = l + 1 := by rw [Config.N, Nat.log2_two_pow, hl]
  rw [hr, hlog]
  exact fft1Rec_eq_of_halves (o := ⟨c.N, 1, 0, 0⟩) (fun o' ho' => fft1Half_eq_splitTransform hleaf (by omega)
    (by rw [ho', hN, half_stage_width])) d

/-- The leaves of FFT1 have size B under the condition on T of R150 (b). -/
theorem leavesAreBlocks_of_condition {r : Nat} (hr : c.n - c.b = r + 1)
    (h : (c.B ≤ max c.T 1 ∧ max c.T 1 < 2 * c.B) ∨ (c.B = c.N / 2 ∧ c.B ≤ c.T)) : LeavesAreBlocks c r := by
  obtain ⟨hlo, hhi⟩ | ⟨hhalf, hT⟩ := h
  · exact leavesAreBlocks_of_threshold hlo hhi r
  · have hb : c.b = c.n - 1 := by
      have hn : c.n = c.n - 1 + 1 := by omega
      rw [Config.N, hn, Nat.pow_succ, Nat.mul_div_cancel _ two_pos] at hhalf
      exact Nat.pow_right_injective (le_refl 2) hhalf
    obtain rfl : r = 0 := by omega
    exact leavesAreBlocks_zero hT

/-- Canonical banks of which both frames and the words of the output run agree are the same. -/
theorem AgreeOn.mem_eq {m₀ m m' : Memory α} (h : AgreeOn 0 c.N m m') (hm : OutFrame c 0 c.N m₀ m)
    (hm' : OutFrame c 0 c.N m₀ m') (hwf : m₀.wf c.N = true) : m' = m := by
  refine Memory.ext_of_wf (hm'.wf hwf) (hm.wf hwf) fun b i => ?_
  by_cases hi : i < c.N
  · exact h b i fun _ => ⟨Nat.zero_le _, hi⟩
  · rw [hm.same b i (by omega), hm'.same b i (by omega)]

/-- Settles O44: both commands are the transform split into the blocks of FFT2, in two orders. -/
theorem fft1AndFft2AgreeBitForBit : Obligations.Fft1AndFft2AgreeBitForBit := by
  intro α ns c d e hc hseq hwf hB hleaves hrun
  have hlt : c.b < c.n := by
    have hpos : 0 < c.N := Nat.two_pow_pos c.n
    exact (Nat.pow_lt_pow_iff_right one_lt_two).mp (show c.B < c.N by omega)
  obtain ⟨r, hr⟩ : ∃ r, c.n - c.b = r + 1 := ⟨c.n - c.b - 1, by omega⟩
  obtain ⟨-, -, hframe⟩ := runFft1_frame hseq hrun
  rw [runFft1_whole_eq_splitTransform hc hr (leavesAreBlocks_of_condition hr hleaves) hseq] at hrun
  obtain ⟨e', he', hagree⟩ := fft2Loops_agree hc hrun
  have hrun' : runFft2 ns c d = .ok (e'.withIt LoopRegs.idle) := by rw [runFft2_eq_fft2Loops hc hseq, he']; rfl
  obtain ⟨-, -, hframe'⟩ := runFft2_frame hseq hrun'
  rw [Nat.zero_add] at hframe
  exact ⟨_, hrun', hagree.mem_eq hframe hframe' hwf⟩

/-! ### The values FFT2 computes, in any NUM (R129, R142) -/

/-- The parameters of `c` with T = B, at which the leaves of FFT1 have size B. T plays no part in FFT2 (R149). -/
def withBlockLeaves (c : Config) : Config := { c with T := c.B }

theorem leavesAreBlocks_withBlockLeaves (c : Config) (r : Nat) : LeavesAreBlocks (withBlockLeaves c) r := by
  have hpos : 0 < c.B := Nat.two_pow_pos c.b
  refine leavesAreBlocks_of_threshold ?_ ?_ r
  · exact le_max_left _ _
  · change max c.B 1 < 2 * c.B
    omega

theorem wellFormed_withBlockLeaves (hc : c.wellFormed = true) : (withBlockLeaves c).wellFormed = true := by
  obtain ⟨h1, hn, -, hb, hstack⟩ := wellFormed_iff.mp hc
  exact wellFormed_iff.mpr ⟨h1, hn, Nat.pow_lt_pow_right one_lt_two (by omega : c.b < 32), hb, hstack⟩

/-- The nested loops of FFT2 with the table and the whole input holding values: they succeed and decimate the input in time. -/
theorem fft2Loops_decimates (hc : c.wellFormed = true) {co si xr xi : Nat → α} {d : Datapath α}
    (ht : TableValues c d.mem co si) (hx : ViewValues d.mem 0 1 c.N xr xi) :
    ∃ e yr yi, fft2Loops ns c d = .ok e ∧ RunValues e.mem 0 c.N yr yi ∧
      DecimatedInTime ns (withBlockLeaves c) co si c.N xr xi yr yi := by
  obtain ⟨-, -, -, hb⟩ := cfg_blocks_spec hc
  have ho := wholeInput_fits (withBlockLeaves c)
  obtain ⟨e, yr, yi, he, hy, hdec⟩ := fft1Half_decimates (ns := ns) (l := c.n) ho
    (fun h2 => fft1Rec_decimates ho h2 rfl) d xr xi ht hx
  rw [fft1Half_eq_splitTransform (leavesAreBlocks_withBlockLeaves c (c.n - c.b)) (Nat.sub_le _ _)
    (N_eq_last_width hb)] at he
  obtain ⟨e', he', hagree⟩ : ∃ e', fft2Loops ns c d = .ok e' ∧ AgreeOn 0 c.N e.mem e'.mem :=
    fft2Loops_agree (wellFormed_withBlockLeaves hc) he
  refine ⟨e', yr, yi, he', fun k hk => ?_, hdec⟩
  rw [hagree _ _ fun _ => by omega, hagree _ _ fun _ => by omega]
  exact hy k hk

/-- FFT2 on an engine that accepts it, in any NUM: it completes with the datapath the nested loops leave, IT idle (R142). -/
theorem execIn_fft2_ok {num : Num α n} {s : State α n} {co si xr xi : Nat → α} (hs : Ready s)
    (htvalid : s.status.tvalid = true) (hsize : s.size.toNat = s.cfg.N) (ht : TableValues s.cfg s.dp.mem co si)
    (hx : ViewValues s.dp.mem 0 1 s.cfg.N xr xi) :
    ∃ d, fft2Loops num.toNumSys s.cfg s.dp = .ok d ∧
      execIn num .fft2 s = .next (completedState s { d with it := LoopRegs.idle }) := by
  obtain ⟨hwf, hidle, herr⟩ := hs
  obtain ⟨hseq, -⟩ := isIdle_iff.mp hidle
  obtain ⟨d, -, -, hd, -⟩ := fft2Loops_decimates (ns := num.toNumSys) hwf ht hx
  have hrun : runFft2 num.toNumSys s.cfg s.dp = .ok { d with it := LoopRegs.idle } := by
    rw [runFft2_eq_fft2Loops hwf hseq, hd]
    rfl
  refine ⟨d, hd, ?_⟩
  rw [execIn_fft2_eq, issue_next_iff]
  exact ⟨hidle, .inr (.inr ⟨herr, checkFft2_none_iff.mpr ⟨htvalid, hsize⟩, _, onDatapath_ok_iff.mpr ⟨_, hrun, rfl⟩, rfl⟩)⟩

/-- Settles O42: the rule of FFT2 in any NUM, at R64. -/
theorem fft2Completes : Obligations.Fft2Completes := by
  intro s co si xr xi hs htvalid hsize ht hx
  rw [exec_eq_execIn]
  exact execIn_fft2_ok (num := R64.num) hs htvalid hsize ht hx

/-- Settles O43: the loops decimate the whole input, which in REAL is the direct transform. -/
theorem fft2IsTheDirectTransform : Obligations.Fft2IsTheDirectTransform := by
  intro c d x hc hseq ht hx
  obtain ⟨e, yr, yi, hrun, hy, hdec⟩ := fft2Loops_decimates (ns := realNum) (xr := fun s => (x s).re)
    (xi := fun s => (x s).im) hc ht hx
  refine ⟨e.withIt LoopRegs.idle, by rw [runFft2_eq_fft2Loops hc hseq, hrun]; rfl, fun k hk => ?_⟩
  have hdirect := hdec.eq_directTransform (dvd_refl _) k hk
  change _ = directTransform c.N c.N x k at hdirect
  rw [← hdirect]
  exact hy k hk

end Sys2Proof.Machine
end

section
/-! PROOFS. Faults (spec/60_exceptions.md): which precondition of a command is the fault taken (R153), what fault entry does
(R160), that a CMD write answered OKAY leaves exactly one of DONE and ERR set (R161), and that the fault state turns commands
away (R162).

All of it rests on two facts: a check that finds a fault makes the issue end in `faultedState` (`issue_faults`), and a CMD write
that is answered was turned away, faulted or completed (`issueWord_outcome`). -/

namespace Sys2Proof.Machine

variable {α : Type} {n : Nat}

/-! ### Fault entry (R153, R160) -/

/-- Fault entry at the state of the issue, which has cleared DONE, ends in the state of R160. -/
theorem takeFault_clearDone (k : Cause) (word : Word) (s : State) :
    takeFault k word { s with status := s.status.clearDone } = faultedState k word s := rfl

/-- An issue whose checks find a fault takes that fault. -/
theorem issue_faults {word : Word} {check : State → Option Cause} {run : State → Res State} {s : State} {k : Cause}
    (hs : Ready s) (hk : check { s with status := s.status.clearDone } = some k) :
    issue word check run s = .next (faultedState k word s) := by
  obtain ⟨-, hidle, herr⟩ := hs
  exact issue_next_iff.mpr ⟨hidle, .inr (.inl ⟨herr, k, hk, (takeFault_clearDone k word s).symm⟩)⟩

/-- The checks of each command. -/
def checkOf : Instr → State α n → Option Cause
  | .init => checkInit
  | .dft => checkDft
  | .fft1 => checkFft1
  | .fft2 => checkFft2
  | .bpass => checkBpass
  | .brev => checkBrev

theorem exec_eq_issue_checkOf (i : Instr) : ∃ run, ∀ s, exec i s = issue (encode i) (checkOf i) run s := by
  cases i
  · exact ⟨_, exec_init_eq⟩
  · exact ⟨_, exec_dft_eq⟩
  · exact ⟨_, exec_fft1_eq⟩
  · exact ⟨_, exec_fft2_eq⟩
  · exact ⟨_, exec_bpass_eq⟩
  · exact ⟨_, exec_brev_eq⟩

/-- No check looks at DONE. -/
@[simp] theorem checkOf_clearDone (i : Instr) (s : State α n) :
    checkOf i { s with status := s.status.clearDone } = checkOf i s := by
  cases i <;> rfl

theorem exec_faults {i : Instr} {s : State} {k : Cause} (hs : Ready s) (hk : checkOf i s = some k) :
    exec i s = .next (faultedState k (encode i) s) := by
  obtain ⟨run, hexec⟩ := exec_eq_issue_checkOf i
  rw [hexec]
  exact issue_faults hs ((checkOf_clearDone i s).trans hk)

/-! ### The fault each check finds (R153, R156 to R159) -/

/-! Each rule reads a check as the nested list of its tests: a cause is found exactly if its own test fails and every test
before it passes. -/

/-- One check in front of others: its own fault where it fails, theirs where it passes. -/
theorem ite_some_eq_some_iff {p : Prop} [Decidable p] {c k : Cause} {rest : Option Cause} :
    (if p then some c else rest) = some k ↔ (p ∧ c = k) ∨ (¬p ∧ rest = some k) := by
  rw [ite_eq_iff, Option.some.injEq]

theorem isPow2_eq_false_iff {x : Nat} : isPow2 x = false ↔ ¬PowerOfTwo x := by
  rw [← Bool.not_eq_true, isPow2_iff, PowerOfTwo]

theorem checkInit_eq_some_iff {s : State α n} {k : Cause} :
    checkInit s = some k ↔ s.status.tvalid = true ∧ .tableReinit = k := by
  simp [checkInit]

theorem checkDft_eq_some_iff {s : State α n} {k : Cause} :
    checkDft s = some k ↔
      s.status.tvalid = false ∧ .tableNotInit = k ∨
      s.status.tvalid = true ∧
        ((¬PowerOfTwo s.size.toNat ∨ s.cfg.N < s.size.toNat) ∧ .badSize = k ∨
        (PowerOfTwo s.size.toNat ∧ s.size.toNat ≤ s.cfg.N) ∧
          (s.cfg.N < s.stride.toNat * s.size.toNat ∧ .badStride = k ∨
          s.stride.toNat * s.size.toNat ≤ s.cfg.N ∧
            (s.cfg.N - 1 < s.ioff.toNat + (s.size.toNat - 1) * s.stride.toNat ∨ s.cfg.N < s.ooff.toNat + s.size.toNat) ∧
              .badRange = k)) := by
  simp [checkDft, ite_some_eq_some_iff, isPow2_eq_false_iff]

theorem checkFft1_eq_some_iff {s : State α n} {k : Cause} :
    checkFft1 s = some k ↔
      s.status.tvalid = false ∧ .tableNotInit = k ∨
      s.status.tvalid = true ∧
        ((¬PowerOfTwo s.size.toNat ∨ s.size.toNat < 2 ∨ s.cfg.N < s.size.toNat) ∧ .badSize = k ∨
        (PowerOfTwo s.size.toNat ∧ 2 ≤ s.size.toNat ∧ s.size.toNat ≤ s.cfg.N) ∧
          (s.cfg.N < s.stride.toNat * s.size.toNat ∧ .badStride = k ∨
          s.stride.toNat * s.size.toNat ≤ s.cfg.N ∧
            (s.cfg.N - 1 < s.ioff.toNat + (s.size.toNat - 1) * s.stride.toNat ∨ s.cfg.N < s.ooff.toNat + s.size.toNat) ∧
              .badRange = k)) := by
  simp [checkFft1, ite_some_eq_some_iff, isPow2_eq_false_iff, and_assoc, or_assoc, Nat.succ_le_iff]

theorem checkFft2_eq_some_iff {s : State α n} {k : Cause} :
    checkFft2 s = some k ↔
      s.status.tvalid = false ∧ .tableNotInit = k ∨
      s.status.tvalid = true ∧ s.size.toNat ≠ s.cfg.N ∧ .badSize = k := by
  simp [checkFft2, ite_some_eq_some_iff]

theorem checkBpass_eq_some_iff {s : State α n} {k : Cause} :
    checkBpass s = some k ↔
      s.status.tvalid = false ∧ .tableNotInit = k ∨
      s.status.tvalid = true ∧
        ((¬PowerOfTwo s.size.toNat ∨ s.size.toNat < 2 ∨ s.cfg.N < s.size.toNat) ∧ .badSize = k ∨
        (PowerOfTwo s.size.toNat ∧ 2 ≤ s.size.toNat ∧ s.size.toNat ≤ s.cfg.N) ∧
          s.cfg.N < s.ooff.toNat + s.size.toNat ∧ .badRange = k) := by
  simp [checkBpass, ite_some_eq_some_iff, isPow2_eq_false_iff, and_assoc, or_assoc, Nat.succ_le_iff]

theorem checkBrev_eq_some_iff {s : State α n} {k : Cause} :
    checkBrev s = some k ↔
      ¬PowerOfTwo s.size.toNat ∧ .badSize = k ∨
      PowerOfTwo s.size.toNat ∧ s.size.toNat ≤ s.ioff.toNat ∧ .badIndex = k := by
  simp [checkBrev, ite_some_eq_some_iff, isPow2_eq_false_iff]

/-- Settles O14: each clause names the first check that fails, and the command takes its fault. -/
theorem violatedPreconditionsFaultInOrder : Obligations.ViolatedPreconditionsFaultInOrder := by
  intro s hs
  have hinit {k} (h) : exec .init s = .next (faultedState k 1#32 s) := exec_faults hs (checkInit_eq_some_iff.mpr h)
  have hdft {k} (h) : exec .dft s = .next (faultedState k 2#32 s) := exec_faults hs (checkDft_eq_some_iff.mpr h)
  have hfft1 {k} (h) : exec .fft1 s = .next (faultedState k 3#32 s) := exec_faults hs (checkFft1_eq_some_iff.mpr h)
  have hfft2 {k} (h) : exec .fft2 s = .next (faultedState k 4#32 s) := exec_faults hs (checkFft2_eq_some_iff.mpr h)
  have hbpass {k} (h) : exec .bpass s = .next (faultedState k 5#32 s) := exec_faults hs (checkBpass_eq_some_iff.mpr h)
  have hbrev {k} (h) : exec .brev s = .next (faultedState k 6#32 s) := exec_faults hs (checkBrev_eq_some_iff.mpr h)
  refine ⟨fun ht => hinit ⟨ht, rfl⟩, fun ht => ?table, fun ht hsize => ?dftSize, fun ht hsize => ?halvingSize,
    fun ht hsize => ?fft2Size, fun hpow => ?brevSize, fun ht hpow hN hstride => ?stride,
    fun ht hpow hN hstride hrange => ?range, fun ht hpow h2 hN hrun => ?bpassRange, fun hpow hindex => ?index⟩
  case table => exact ⟨hdft (.inl ⟨ht, rfl⟩), hfft1 (.inl ⟨ht, rfl⟩), hfft2 (.inl ⟨ht, rfl⟩), hbpass (.inl ⟨ht, rfl⟩)⟩
  case dftSize => exact hdft (.inr ⟨ht, .inl ⟨hsize, rfl⟩⟩)
  case halvingSize => exact ⟨hfft1 (.inr ⟨ht, .inl ⟨hsize, rfl⟩⟩), hbpass (.inr ⟨ht, .inl ⟨hsize, rfl⟩⟩)⟩
  case fft2Size => exact hfft2 (.inr ⟨ht, hsize, rfl⟩)
  case brevSize => exact hbrev (.inl ⟨hpow, rfl⟩)
  case stride =>
    exact ⟨hdft (.inr ⟨ht, .inr ⟨⟨hpow, hN⟩, .inl ⟨hstride, rfl⟩⟩⟩),
      fun h2 => hfft1 (.inr ⟨ht, .inr ⟨⟨hpow, h2, hN⟩, .inl ⟨hstride, rfl⟩⟩⟩)⟩
  case range =>
    exact ⟨hdft (.inr ⟨ht, .inr ⟨⟨hpow, hN⟩, .inr ⟨hstride, hrange, rfl⟩⟩⟩),
      fun h2 => hfft1 (.inr ⟨ht, .inr ⟨⟨hpow, h2, hN⟩, .inr ⟨hstride, hrange, rfl⟩⟩⟩)⟩
  case bpassRange => exact hbpass (.inr ⟨ht, .inr ⟨⟨hpow, h2, hN⟩, hrun, rfl⟩⟩)
  case index => exact hbrev (.inr ⟨hpow, hindex, rfl⟩)

/-! ### Illegal words (R70, R155) -/

/-- The illegal words, as numbers: a bit above bit 3 is set, or the opcode is 0 or 7 to 15. -/
theorem decode_error_iff {w : Word} :
    (∃ e, decode w = .error e) ↔ w.toNat / 16 ≠ 0 ∨ w.toNat % 16 = 0 ∨ 7 ≤ w.toNat % 16 := by
  have hcommand : (∃ e, decode w = .error e) ↔ ¬∃ i, decode w = .ok i := by cases decode w <;> simp
  simp only [hcommand, decode_eq_ok_iff, exists_eq_encode_iff]
  omega

/-- An illegal word is checked for nothing but being illegal: it faults whatever the state holds. -/
theorem issueWord_illegal {ex : Instr → State → Host.Outcome State Fault Refusal} {word : Word} {s : State} (hs : Ready s)
    (hword : ∃ e, decode word = .error e) : issueWord ex word s = .next (faultedState .illegalCmd word s) := by
  obtain ⟨e, he⟩ := hword
  rw [issueWord, he]
  exact issue_faults hs rfl

/-- Settles O4: the low word of the data is illegal, and the issue of an illegal word faults. -/
theorem illegalWordFaults : Obligations.IllegalWordFaults := by
  intro s d rest hp hs hd
  have ⟨_, hidle, _⟩ := hs
  rw [step_cmd_write hp hidle]
  refine issueWord_illegal hs (decode_error_iff.mpr ?_)
  rw [BitVec.toNat_setWidth]
  omega

/-! ### The fault state (R162) -/

/-- Settles O12: a write to CMD issues its word, and while ERR = 1 the issue of any word is turned away. -/
theorem faultStateTurnsCommandsAway : Obligations.FaultStateTurnsCommandsAway := by
  intro s d rest hidle herr hp
  rw [step_cmd_write hp hidle]
  exact issueWord_turned_away hidle herr

/-! ### How a command ends (R160, R161) -/

/-- Everything the issue of a word that answers a next state can have done: turned away in the fault state, faulted, or the
command of the word completed. -/
theorem issueWord_outcome {word : Word} {s t : State} (h : issueWord exec word s = .next t) :
    (s.status.err = true ∧ t = s.respond .error) ∨
      (s.status.err = false ∧ ∃ k, t = faultedState k word s) ∨
      (s.status.err = false ∧ ∃ i, word = encode i ∧ CompletesFrom i s t) := by
  unfold issueWord at h
  split at h
  · next i hi =>
    obtain rfl := decode_eq_ok_iff.mp hi
    rw [exec_eq_execIn] at h
    obtain hturned | hfault | ⟨herr, hcompleted⟩ := execIn_outcome h
    · exact .inl hturned
    · exact .inr (.inl hfault)
    · exact .inr (.inr ⟨herr, i, rfl, hcompleted⟩)
  · obtain ⟨-, hturned | ⟨herr, k, -, hfault⟩ | ⟨-, hnone, -⟩⟩ := issue_next_iff.mp h
    · exact .inl hturned
    · exact .inr (.inl ⟨herr, k, hfault⟩)
    · cases hnone

/-- A completion sets DONE and leaves ERR as the issue found it. -/
theorem CompletesFrom.done_and_err {i : Instr} {s t : State α n} (h : CompletesFrom i s t) :
    t.status.done = true ∧ t.status.err = s.status.err := by
  obtain ⟨r, d, rfl, -, -⟩ := h
  exact ⟨rfl, rfl⟩

/-- A step that answers a next state to a request found the engine idle (R52). -/
theorem isIdle_of_step {s t : State} {r : Request} {rest : List Request} (hp : s.bus.pending = r :: rest)
    (h : step s = .next t) : s.dp.isIdle = true := by
  rw [step_eq, hp] at h
  obtain ⟨hidle, -⟩ := transact_next h
  exact hidle

/-- Settles O15: turned away is not answered OKAY, a fault sets ERR with DONE cleared, and a completion sets DONE and keeps
ERR = 0. -/
theorem exactlyOneOfDoneAndErr : Obligations.ExactlyOneOfDoneAndErr := by
  intro s t d rest hp hstep hokay
  rw [step_cmd_write hp (isIdle_of_step hp hstep)] at hstep
  obtain ⟨-, rfl⟩ | ⟨-, k, rfl⟩ | ⟨herr, i, -, hcompleted⟩ := issueWord_outcome hstep
  · simp at hokay
  · rfl
  · obtain ⟨hdone, herr'⟩ := hcompleted.done_and_err
    rw [hdone, herr', herr]
    rfl

/-- Settles O50: with ERR = 0 before, only a fault ends with ERR = 1, and fault entry is all it does. -/
theorem faultsHaveNoPartialEffect : Obligations.FaultsHaveNoPartialEffect := by
  intro i s t herr h hfaulted
  rw [exec_eq_execIn] at h
  obtain ⟨hturned, -⟩ | ⟨-, k, rfl⟩ | ⟨-, hcompleted⟩ := execIn_outcome h
  · simp [herr] at hturned
  · exact takeFault_clearDone k (encode i) s
  · obtain ⟨-, herr'⟩ := hcompleted.done_and_err
    rw [herr', herr] at hfaulted
    cases hfaulted

end Sys2Proof.Machine
end

section
/-! PROOFS. Reset and hazards (spec/70_reset_and_hazards.md): the state after reset (R173), and DFT, FFT1 and FFT2 issued again
(R180).

A transform reads no output word that it has not written before, so what it leaves in its run is a function of the input and
twiddle banks (`IsTransform`), which the first run has not changed; and outside its run the second run changes nothing. For DFT
and FFT1 that is known of a transform split some number of times (`splitTransform_agree`). FFT2 is followed twice in step, block
by block and pass by pass, as its tasks come in another order. -/

namespace Sys2Proof.Machine

variable {α : Type} {n : Nat} {ns : NumSys α} {c : Config}

/-! ### Reset (R173) -/

/-- After reset no word of a bank holds a value (R40). -/
theorem Memory.read_empty (b : BankId) (i : Nat) : (Memory.empty : Memory α).read b i = none := by cases b <;> rfl

/-- STATUS reads 0 after reset (R39). -/
theorem Status.toWord_reset : Status.reset.toWord = 0 := by decide

/-- Settles O17: the registers are those of the reset state, and its banks are empty. -/
theorem resetLeavesTheSpecifiedState : Obligations.ResetLeavesTheSpecifiedState := fun _ =>
  ⟨Status.toWord_reset, rfl, rfl, rfl, rfl, rfl, rfl, rfl, rfl, rfl, rfl, Memory.read_empty, rfl, rfl, rfl, rfl⟩

/-! ### Tasks in step -/

/-- After a task that writes words of [lo, hi) only, and leaves the same words there in both runs, two banks have the same
word where they had it before or the task wrote it. -/
theorem AgreeOn.read_eq {lo hi : Nat} {x x' y y' : Memory α} (h : AgreeOn lo hi x' y') (hx : OutFrame c lo hi x x')
    (hy : OutFrame c lo hi y y') {b : BankId} {k : Nat} (hold : ¬(lo ≤ k ∧ k < hi) → y.read b k = x.read b k) :
    y'.read b k = x'.read b k := by
  by_cases hk : lo ≤ k ∧ k < hi
  · exact h b k fun _ => hk
  · have hunwritten : ¬((b = .outRe ∨ b = .outIm) ∧ lo ≤ k ∧ k < hi ∧ k < c.N) :=
      fun ⟨_, hlo, hhi, _⟩ => hk ⟨hlo, hhi⟩
    rw [hx.same b k hunwritten, hy.same b k hunwritten, hold hk]

/-- A run that writes words of [lo, hi) only and puts there what they hold changes nothing. -/
theorem AgreeOn.eq_of_frame {lo hi : Nat} {m m' : Memory α} (h : AgreeOn lo hi m m') (hframe : OutFrame c lo hi m m')
    (hwf : m.wf c.N = true) : m' = m :=
  Memory.ext_of_wf (hframe.wf hwf) hwf fun _ _ => h.read_eq (OutFrame.refl lo hi m) hframe fun _ => rfl

/-! ### The loops of FFT2 in step (R142) -/

/-- After j blocks the two runs agree in the windows of these blocks, so after all blocks in the whole of the output banks
(R145). -/
theorem fft2_scatter_agree (hc : c.wellFormed = true) {d e d' : Datapath α}
    (h : forN c.blocks (fft2Block ns c) d = .ok e) (hd : AgreeOn 0 0 d.mem d'.mem) :
    ∃ e', forN c.blocks (fft2Block ns c) d' = .ok e' ∧ AgreeOn 0 c.N e.mem e'.mem := by
  obtain ⟨-, hblocks, -, hb⟩ := cfg_blocks_spec hc
  have hB : 0 < c.B := Nat.two_pow_pos c.b
  have hwindow (k : Nat) (hk : k < c.N) : k / c.B < 2 ^ (c.n - c.b) := by
    rwa [Nat.div_lt_iff_lt_mul hB, ← N_eq_last_width hb]
  rw [hblocks] at h ⊢
  obtain ⟨e', he', hagree⟩ := forN_simulates (g := fft2Block ns c) (y := d')
    (fun j (x y : Datapath α) => ∀ b k, (b = .outRe ∨ b = .outIm → k < c.N ∧ bitReverse (c.n - c.b) (k / c.B) < j) →
      y.mem.read b k = x.mem.read b k)
    (fun j x y x' hj hR hx => by
      rw [fft2Block_eq_window hc hj] at hx
      obtain ⟨y', hy, hnew⟩ := splitTransform_agree (one_dvd _) hx (k := 0) (d' := y) fun b k hk =>
        hR b k fun ho => by have := hk ho; omega
      refine ⟨y', (fft2Block_eq_window hc hj y).trans hy, fun b k hk => ?_⟩
      refine hnew.read_eq (splitTransform_frame hx) (splitTransform_frame hy) fun hout => hR b k fun ho => ?_
      obtain ⟨hkN, hlt⟩ := hk ho
      refine ⟨hkN, lt_of_le_of_ne (Nat.le_of_lt_succ hlt) fun hrev => hout ?_⟩
      have hplace : k / c.B = bitReverse (c.n - c.b) j := by rw [← hrev, bitReverse_bitReverse (hwindow k hkN)]
      obtain ⟨hlo, hhi⟩ := (Nat.div_eq_iff hB).mp hplace
      dsimp only [fft2Window]
      rw [pow_zero, one_mul]
      omega)
    (fun b k hk => hd b k fun ho => absurd (hk ho).2 (Nat.not_lt_zero _)) h
  exact ⟨e', he', fun b k hk => hagree b k fun ho => ⟨(hk ho).2, (isBitReverse_bitReverse _ _).lt⟩⟩

/-- A stage on output banks that agree (R146). -/
theorem fft2Stage_agree {w : Nat} {d e d' : Datapath α} (h : fft2Stage ns c w d = .ok e)
    (hd : AgreeOn 0 c.N d.mem d'.mem) : ∃ e', fft2Stage ns c w d' = .ok e' ∧ AgreeOn 0 c.N e.mem e'.mem :=
  forN_simulates (g := fun i => bpassTask ns c (i * w) w) (fun _ (x y : Datapath α) => AgreeOn 0 c.N x.mem y.mem)
    (fun i x y x' hi hR hx => by
      have hlast : i * w + w ≤ c.N := by
        rw [← Nat.succ_mul]
        exact (Nat.mul_le_mul_right w hi).trans (Nat.div_mul_le_self c.N w)
      obtain ⟨y', hy, hnew⟩ := bpassTask_agree hx (d' := y) fun b k hk => hR b k fun ho => by have := hk ho; omega
      obtain ⟨-, -, -, hframe⟩ := bpassTask_frame hx
      obtain ⟨-, -, -, hframe'⟩ := bpassTask_frame hy
      exact ⟨y', hy, fun b k hk => hnew.read_eq hframe hframe' fun _ => hR b k hk⟩) hd h

/-- The nested loops of FFT2 on banks with the same input and table leave the same output banks. -/
theorem fft2Loops_agree_of_input (hc : c.wellFormed = true) {d e d' : Datapath α} (h : fft2Loops ns c d = .ok e)
    (hd : AgreeOn 0 0 d.mem d'.mem) : ∃ e', fft2Loops ns c d' = .ok e' ∧ AgreeOn 0 c.N e.mem e'.mem := by
  obtain ⟨x, hscatter, hstages⟩ := Res.bind_ok_iff.mp h
  obtain ⟨x', hscatter', hx⟩ := fft2_scatter_agree hc hscatter hd
  obtain ⟨e', hstages', he⟩ := forN_simulates (g := fun q => fft2Stage ns c (2 ^ (q + 1) * c.B))
    (fun _ (y y' : Datapath α) => AgreeOn 0 c.N y.mem y'.mem)
    (fun _ _ _ _ _ hR hy => fft2Stage_agree hy hR) hx hstages
  exact ⟨e', Res.bind_ok_iff.mpr ⟨x', hscatter', hstages'⟩, he⟩

/-! ### FFT1 as a split transform (R126) -/

/-- All leaves of the recursion are at one depth, as whether a half is split depends on its size alone. -/
theorem fft1Half_eq_splitTransform_of_size {q l : Nat} (hq : q ≤ l) :
    ∃ r ≤ q, ∀ o : Operands, o.size = 2 ^ q → fft1Half ns c l o = splitTransform ns c r o := by
  induction q generalizing l with
  | zero =>
    refine ⟨0, le_refl _, fun o ho => funext fun d => ?_⟩
    rw [fft1Half, if_neg (by simp [ho]), splitTransform]
  | succ q ih =>
    obtain ⟨l, rfl⟩ := Nat.exists_eq_add_one.mpr (Nat.zero_lt_of_lt hq)
    by_cases hT : 2 ^ (q + 1) > c.T
    · obtain ⟨r, hr, hhalf⟩ := ih (Nat.le_of_succ_le_succ hq)
      refine ⟨r + 1, Nat.succ_le_succ hr, fun o ho => funext fun d => ?_⟩
      rw [fft1Half, if_pos (by rw [ho, Nat.pow_succ]; omega)]
      exact fft1Rec_eq_of_halves (fun o' ho' => hhalf o' (by rw [ho', ho, Nat.pow_succ]; omega)) d
    · refine ⟨0, Nat.zero_le _, fun o ho => funext fun d => ?_⟩
      rw [fft1Half, if_neg (by rw [ho]; omega), splitTransform]

/-- The execution of FFT1 from an empty stack is a transform split some number of times. -/
theorem runFft1_eq_splitTransform (hc : c.wellFormed = true) {o : Operands} (ho : OperandsFit c o) (h2 : 2 ≤ o.size) :
    ∃ r, 2 ^ r ∣ o.size ∧ ∀ d : Datapath α, d.seq = [] → runFft1 ns c o d = splitTransform ns c r o d := by
  have hsize := ho.size_eq_two_pow
  obtain ⟨l, hl⟩ := Nat.exists_eq_add_one.mpr ((Nat.le_log2 (k := 1) (by omega)).mpr h2)
  obtain ⟨r, hr, hhalf⟩ := fft1Half_eq_splitTransform_of_size (ns := ns) (c := c) (le_refl l)
  rw [hl] at hsize
  refine ⟨r + 1, hsize ▸ pow_dvd_pow 2 (Nat.succ_le_succ hr), fun d hseq => ?_⟩
  rw [taskStackEqualsRecursion α ns c o d hc ho h2 hseq, hl]
  exact fft1Rec_eq_of_halves (fun o' ho' => hhalf o' (by rw [ho', hsize, Nat.pow_succ]; omega)) d

/-! ### Transforms (R180) -/

/-- From an idle engine `run` ends on one, having written output words of [lo, hi) only; and whether it ends well and what it
leaves there is decided by the input and twiddle banks. -/
structure IsTransform (c : Config) (lo hi : Nat) (run : Datapath α → Res (Datapath α)) : Prop where
  frame : ∀ {d e}, d.isIdle = true → run d = .ok e → e.isIdle = true ∧ OutFrame c lo hi d.mem e.mem
  agree : ∀ {d e d'}, d.isIdle = true → d'.isIdle = true → run d = .ok e → AgreeOn 0 0 d.mem d'.mem →
    ∃ e', run d' = .ok e' ∧ AgreeOn lo hi e.mem e'.mem

/-- A transform run from where it ended ends well and leaves the same banks. -/
theorem IsTransform.runs_again {lo hi : Nat} {run : Datapath α → Res (Datapath α)} (h : IsTransform c lo hi run)
    {d e : Datapath α} (hidle : d.isIdle = true) (hwf : d.mem.wf c.N = true) (hrun : run d = .ok e) :
    ∃ e', run e = .ok e' ∧ e'.mem = e.mem := by
  obtain ⟨hidle', hframe⟩ := h.frame hidle hrun
  obtain ⟨e', hrun', hagree⟩ := h.agree hidle hidle' hrun (hframe.agreeOn (.inl (Nat.zero_le _)))
  obtain ⟨-, hframe'⟩ := h.frame hidle' hrun'
  exact ⟨e', hrun', hagree.eq_of_frame hframe' (hframe.wf hwf)⟩

theorem isIdle_of_frame {d e : Datapath α} (hidle : d.isIdle = true) (hseq : e.seq = []) (hit : e.it = d.it) :
    e.isIdle = true := by
  obtain ⟨-, hphase⟩ := isIdle_iff.mp hidle
  exact isIdle_iff.mpr ⟨hseq, hit ▸ hphase⟩

theorem runDft_isTransform (hc : c.wellFormed = true) (o : Operands) :
    IsTransform c o.ooff (o.ooff + o.size) (runDft ns c o) where
  frame hidle hrun := by
    obtain ⟨hempty, -⟩ := isIdle_iff.mp hidle
    obtain ⟨hseq, hit, hframe⟩ := runDft_frame hempty hrun
    exact ⟨isIdle_of_frame hidle hseq hit, hframe⟩
  agree hidle hidle' hrun hd := by
    obtain ⟨hseq, -⟩ := isIdle_iff.mp hidle
    obtain ⟨hseq', -⟩ := isIdle_iff.mp hidle'
    obtain ⟨hstack, -⟩ := cfg_blocks_spec hc
    rw [runDft_eq hseq hstack] at hrun
    rw [runDft_eq hseq' hstack]
    exact dftTask_agree hrun (hd.empty _)

theorem runFft1_isTransform (hc : c.wellFormed = true) {o : Operands} (ho : OperandsFit c o) (h2 : 2 ≤ o.size) :
    IsTransform c o.ooff (o.ooff + o.size) (runFft1 ns c o) where
  frame hidle hrun := by
    obtain ⟨hempty, -⟩ := isIdle_iff.mp hidle
    obtain ⟨hseq, hit, hframe⟩ := runFft1_frame hempty hrun
    exact ⟨isIdle_of_frame hidle hseq hit, hframe⟩
  agree hidle hidle' hrun hd := by
    obtain ⟨hseq, -⟩ := isIdle_iff.mp hidle
    obtain ⟨hseq', -⟩ := isIdle_iff.mp hidle'
    obtain ⟨r, hdvd, hsplit⟩ := runFft1_eq_splitTransform (ns := ns) hc ho h2
    rw [hsplit _ hseq] at hrun
    rw [hsplit _ hseq']
    exact splitTransform_agree hdvd hrun hd

theorem runFft2_isTransform (hc : c.wellFormed = true) : IsTransform c 0 c.N (runFft2 ns c) where
  frame hidle hrun := by
    obtain ⟨hempty, -⟩ := isIdle_iff.mp hidle
    obtain ⟨hseq, hphase, hframe⟩ := runFft2_frame hempty hrun
    exact ⟨isIdle_iff.mpr ⟨hseq, hphase⟩, hframe⟩
  agree hidle hidle' hrun hd := by
    obtain ⟨hseq, -⟩ := isIdle_iff.mp hidle
    obtain ⟨hseq', -⟩ := isIdle_iff.mp hidle'
    rw [runFft2_eq_fft2Loops hc hseq] at hrun
    rw [runFft2_eq_fft2Loops hc hseq']
    obtain ⟨x, hx, rfl⟩ := Res.map_ok_iff.mp hrun
    obtain ⟨x', hx', hagree⟩ := fft2Loops_agree_of_input hc hx hd
    exact ⟨x'.withIt LoopRegs.idle, Res.map_ok_iff.mpr ⟨x', hx', rfl⟩, hagree⟩

/-! ### A command issued again (R180) -/

/-- The checks of a command do not depend on what its execution and its completion change: DONE, the datapath and the
responses. -/
def IgnoresCompletion (check : State α n → Option Cause) : Prop :=
  ∀ (s : State α n) (done : Bool) (d : Datapath α) (bus : HostBusOf n),
    check { s with status := { s.status with done := done }, dp := d, bus := bus } = check s

/-- A command that runs a transform, where its checks let it, completes again after it completed, with the same banks. -/
theorem issue_completes_again {word : Word} {check : State α n → Option Cause}
    {run : Config → Operands → Datapath α → Res (Datapath α)} {s t : State α n} {lo hi : Nat}
    (hcheck : IgnoresCompletion check) (hrun : check s = none → IsTransform s.cfg lo hi (run s.cfg s.operands))
    (hwf : s.dp.mem.wf s.cfg.N = true)
    (h : issue word check (fun u => u.onDatapath (run u.cfg u.operands)) s = .next t) (herr : t.status.err = false) :
    ∃ u, issue word check (fun u => u.onDatapath (run u.cfg u.operands)) t = .next u ∧ u.status.err = false ∧
      u.status.done = true ∧ u.dp.mem = t.dp.mem := by
  obtain ⟨hidle, ⟨herr', rfl⟩ | ⟨-, k, -, rfl⟩ | ⟨herr', hpass, v, hv, rfl⟩⟩ := issue_next_iff.mp h
  case inl => simp [herr'] at herr
  case inr.inl => simp at herr
  case inr.inr =>
    obtain ⟨d, hd, rfl⟩ := onDatapath_ok_iff.mp hv
    have hpass' : check s = none := (hcheck s false s.dp s.bus).symm.trans hpass
    obtain ⟨hidle', -⟩ := (hrun hpass').frame hidle hd
    obtain ⟨d', hd', hmem⟩ := (hrun hpass').runs_again hidle hwf hd
    exact ⟨_, issue_next_iff.mpr ⟨hidle', .inr (.inr ⟨herr', (hcheck s false d _).trans hpass', _,
      onDatapath_ok_iff.mpr ⟨d', hd', rfl⟩, rfl⟩)⟩, herr', rfl, hmem⟩

/-- DFT, FFT1 and FFT2 issued again, in any NUM (R180). -/
theorem execIn_completes_again {num : Num α n} {i : Instr} {s t : State α n} (hi : i = .dft ∨ i = .fft1 ∨ i = .fft2)
    (hc : s.cfg.wellFormed = true) (hwf : s.dp.mem.wf s.cfg.N = true) (h : execIn num i s = .next t)
    (herr : t.status.err = false) :
    ∃ u, execIn num i t = .next u ∧ u.status.err = false ∧ u.status.done = true ∧ u.dp.mem = t.dp.mem := by
  obtain rfl | rfl | rfl := hi
  · exact issue_completes_again (run := runDft num.toNumSys) (fun _ _ _ _ => rfl)
      (fun _ => runDft_isTransform hc s.operands) hwf h herr
  · exact issue_completes_again (run := runFft1 num.toNumSys) (fun _ _ _ _ => rfl) (fun hcheck => by
      obtain ⟨-, hpow, h2, hfit⟩ := checkFft1_none_iff.mp hcheck
      exact runFft1_isTransform (o := s.operands) hc ⟨hpow, hfit⟩ h2) hwf h herr
  · exact issue_completes_again (run := fun c _ => runFft2 num.toNumSys c) (fun _ _ _ _ => rfl)
      (fun _ => runFft2_isTransform hc) hwf h herr

/-- Settles O52: the rule of a transform issued again in any NUM, at R64. -/
theorem transformsAreIdempotent : Obligations.TransformsAreIdempotent := by
  intro i s t hi hc hwf h herr
  rw [exec_eq_execIn] at h ⊢
  exact execIn_completes_again hi hc hwf h herr

end Sys2Proof.Machine
end
